-- ==== Sys2Proof/Word.lean ====
section
/-! DEFINITION. The plain data every layer shares: the dword, the enables of a dword, and a dword slot of a
stream word with its enables (spec/00_scope.md R8, R9, R12). -/

namespace Sys2Proof

/-- "a 32-bit word, the protocol's natural alignment unit" (R12). -/
abbrev Dword := BitVec 32

/-- The four byte-enables of one dword slot (R9, `nib`). -/
abbrev Nibble := BitVec 4

/-- One dword slot of a stream word: its data and its four byte-enables (R51, R55). A `W`-bit stream word is
the list of its `D` slots, slot 0 first, which is packet order (R56). -/
structure Slot where
  dat : Dword
  be : Nibble
  deriving DecidableEq, Repr, Inhabited

/-- The enables of a slot all of whose bytes are meaningful (R51). -/
def allEnabled : Nibble := 0xF#4

/-- The enables of a slot that holds no dword. -/
def noneEnabled : Nibble := 0x0#4

end Sys2Proof
end

