-- ==== Sys2Proof/Config.lean ====
section
/-! DEFINITION. What one instance fixes at elaboration (spec/00_scope.md R6): the parameters W, AW, ENDIAN and
ARB_POLICY, the record type of HEADER_LAYOUT, and the two free values of the model (the bits under a zero
enable, the choice of the open arbitration policy). The layout's VALUE stands in Decode.lean. -/

namespace Sys2Proof

/-- `W`, the datapath width in bits of every stream word (R6). -/
inductive Width where
  | w64 | w128 | w256 | w512
  deriving DecidableEq, Repr, Inhabited

/-- `W` as a number of bits. -/
def Width.bits : Width → Nat
  | .w64 => 64
  | .w128 => 128
  | .w256 => 256
  | .w512 => 512

/-- `D = W/32`, the dword slots of a stream word (R6). -/
def Width.dwords (w : Width) : Nat := w.bits / 32

/-- `AW`, the width in bits of the address of a Generic Request (R6, decision D16). -/
inductive AddrWidth where
  | a32 | a64
  deriving DecidableEq, Repr, Inhabited

/-- `ENDIAN`, the Endianness Converter's mode (R6, R158). -/
inductive Endian where
  | noSwap | swap
  deriving DecidableEq, Repr, Inhabited

/-- The two sources of the Arbiter: the request stream and the completion stream (R26, R170). -/
inductive Source where
  | req | cmp
  deriving DecidableEq, Repr, Inhabited

/-- `ARB_POLICY` (R175): the three named policies, and the OPEN one about which nothing is known. -/
inductive Policy where
  | prioReq | prioCmp | alternate
  | unspecified
  deriving DecidableEq, Repr, Inhabited

/-- The parameters of one instance (R6). No step changes them (R31). -/
structure Params where
  width : Width
  aw : AddrWidth
  endian : Endian
  policy : Policy
  deriving DecidableEq, Repr, Inhabited

/-- `D` of an instance. -/
def Params.D (p : Params) : Nat := p.width.dwords

/-- The instance `State.reset` is built for; log entry 2 (DESIGN CHOICE): the spec fixes no instance. -/
def Params.default : Params :=
  { width := .w128, aw := .a64, endian := .noSwap, policy := .unspecified }

/-- `HEADER_LAYOUT` (R6): the bit positions and codes that the spec supplies from general knowledge (G1 to G5),
kept in one record so that they can be replaced without touching the step rules: the formatters, the encoder, the
header size, the opcode map and the decoder all read them here. A position is the lowest bit of the field inside
its dword; the widths of the fields (G6) are the types of the records that hold them. `longHeaderBit` is the bit of
`fmt` that says the header has four dwords (R92, R94, R187). -/
structure HeaderLayout where
  fmtLo : Nat
  typeLo : Nat
  tcLo : Nat
  tdLo : Nat
  epLo : Nat
  attrLo : Nat
  lengthLo : Nat
  reqRequesterIdLo : Nat
  reqTagLo : Nat
  lastBeLo : Nat
  firstBeLo : Nat
  completerIdLo : Nat
  statusLo : Nat
  bcmLo : Nat
  byteCountLo : Nat
  cmpRequesterIdLo : Nat
  cmpTagLo : Nat
  lowerAddressLo : Nat
  typeMem : BitVec 5
  typeCpl : BitVec 5
  fmtMrd32 : BitVec 2
  fmtMwr32 : BitVec 2
  fmtMrd64 : BitVec 2
  fmtMwr64 : BitVec 2
  fmtCpl : BitVec 2
  fmtCpld : BitVec 2
  longHeaderBit : Nat
  statusSC : BitVec 3
  statusUR : BitVec 3
  deriving DecidableEq, Repr

/-- `any` (R10, R188, decision D9): the data bits of a slot whose four enables are zero. A free value: nothing
constrains it. `draw` is the step number, so that every step draws afresh; `slot` is the slot of the word. Log
entry 5. -/
opaque Config.anyDword (draw slot : Nat) : Dword

/-- The choice of the OPEN `ARB_POLICY` (R175, decision D13) when the Arbiter is idle and both sources offer. A
policy has a state of its own that is "updated only from the sequence of grants", so its choice is some
function of the grants made so far (newest first); which function is free. Log entry 6. -/
opaque Config.arbPolicy (grants : List Source) : Source

end Sys2Proof
end

