-- ==== Sys2Proof/Syntax.lean ====
section
/-! DEFINITION. The operations of the hardware: one constructor per row of spec/opcode_table.json, that is per TLP
kind (spec/30_encoding.md R92, R97, R99), and a packet, which is an operation with its payload. -/

namespace Sys2Proof

/-- The six TLP kinds with their operands (R127 to R130, R146, R147). The payload of a kind that carries data
is not part of the header the table encodes: it stands beside the operation in `Packet`, and reaches the
hardware as the `dat` of the packet's stream words (R69). Nothing else has a constructor (R97 a). -/
inductive Instr where
  /-- `MRD32`: memory read request, 32-bit address (R127). -/
  | mrd32 (adr : BitVec 32) (len : BitVec 10) (reqId : BitVec 16) (tag : BitVec 8)
  /-- `MWR32`: memory write request, 32-bit address (R128). -/
  | mwr32 (adr : BitVec 32) (len : BitVec 10) (reqId : BitVec 16) (tag : BitVec 8)
  /-- `MRD64`: memory read request, 64-bit address (R129). -/
  | mrd64 (adr : BitVec 64) (len : BitVec 10) (reqId : BitVec 16) (tag : BitVec 8)
  /-- `MWR64`: memory write request, 64-bit address (R130). -/
  | mwr64 (adr : BitVec 64) (len : BitVec 10) (reqId : BitVec 16) (tag : BitVec 8)
  /-- `CPL`: completion without data, unsupported request (R147). `ladr` is the 8-bit port `adr` of `cmp_in`. -/
  | cpl (cmpId : BitVec 16) (reqId : BitVec 16) (tag : BitVec 8) (ladr : BitVec 8) (len : BitVec 10)
  /-- `CPLD`: completion with data, successful (R146). -/
  | cpld (cmpId : BitVec 16) (reqId : BitVec 16) (tag : BitVec 8) (ladr : BitVec 8) (len : BitVec 10)
  deriving DecidableEq, Repr

/-- One operation with its payload: a line of R99, `data` being the payload dwords in packet order before
endianness conversion. -/
structure Packet where
  op : Instr
  data : List Dword
  deriving DecidableEq, Repr

/-- The 10-bit `len` operand. -/
def Instr.len : Instr → BitVec 10
  | .mrd32 _ len _ _ => len
  | .mwr32 _ len _ _ => len
  | .mrd64 _ len _ _ => len
  | .mwr64 _ len _ _ => len
  | .cpl _ _ _ _ len => len
  | .cpld _ _ _ _ len => len

/-- The stream an operation is presented on: `req_in` for the four requests, `cmp_in` for the completions
(R99). `true` is `req_in`. -/
def Instr.isRequest : Instr → Bool
  | .mrd32 .. => true
  | .mwr32 .. => true
  | .mrd64 .. => true
  | .mwr64 .. => true
  | .cpl .. => false
  | .cpld .. => false

/-- Does the kind carry a payload (R92, last column)? -/
def Instr.hasData : Instr → Bool
  | .mrd32 .. => false
  | .mwr32 .. => true
  | .mrd64 .. => false
  | .mwr64 .. => true
  | .cpl .. => false
  | .cpld .. => true

/-- `H`, the header dwords of the kind (R92). -/
def Instr.headerDwords : Instr → Nat
  | .mrd32 .. => 3
  | .mwr32 .. => 3
  | .mrd64 .. => 4
  | .mwr64 .. => 4
  | .cpl .. => 3
  | .cpld .. => 3

/-- `|Payload(op)|` (R232): `len` dwords for a kind with data, none otherwise. -/
def Instr.payloadDwords (i : Instr) : Nat := if i.hasData then i.len.toNat else 0

end Sys2Proof
end

