-- ==== Sys2Proof/WellFormed.lean ====
section
/-! DEFINITION. Which operations and packets are well formed (spec/30_encoding.md R81, R82, R99, R100). -/

namespace Sys2Proof

/-- A request has `1 <= len` (R81); a 64-bit request has a non-zero upper address half (R100: with a zero one it
"is ill-formed and names no input the hardware can be given"). A 32-bit address has no upper half to check, by
its type. A completion's `len` may be 0 (R82). -/
def Instr.wellFormed : Instr → Bool
  | .mrd32 _ len _ _ => len != 0#10
  | .mwr32 _ len _ _ => len != 0#10
  | .mrd64 adr len _ _ => len != 0#10 && adr.extractLsb' 32 32 != 0#32
  | .mwr64 adr len _ _ => len != 0#10 && adr.extractLsb' 32 32 != 0#32
  | .cpl .. => true
  | .cpld .. => true

/-- "its length must equal `len`" (R99) for the kinds with data; no data for the others. -/
def Packet.wellFormed (p : Packet) : Bool :=
  p.op.wellFormed && p.data.length == p.op.payloadDwords

end Sys2Proof
end

