-- ==== Sys2Proof/Decode.lean ====
section
/-! DEFINITION. The header layout's value, the opcode map, the decoder of spec/30_encoding.md R98 (total,
rejecting by name) and, after it, the encoder written from the same tables (R86 to R92). The unit is the
dword, as it stands before the Endianness Converter (R96). -/

namespace Sys2Proof

/-- The value of `HEADER_LAYOUT`, from R86 to R93 (general knowledge G1 to G5; log entry 1). -/
def headerLayout : HeaderLayout where
  fmtLo := 29
  typeLo := 24
  tcLo := 20
  tdLo := 15
  epLo := 14
  attrLo := 12
  lengthLo := 0
  reqRequesterIdLo := 16
  reqTagLo := 8
  lastBeLo := 4
  firstBeLo := 0
  completerIdLo := 16
  statusLo := 13
  bcmLo := 12
  byteCountLo := 0
  cmpRequesterIdLo := 16
  cmpTagLo := 8
  lowerAddressLo := 0
  typeMem := 0b00000#5
  typeCpl := 0b01010#5
  fmtMrd32 := 0b00#2
  fmtMwr32 := 0b10#2
  fmtMrd64 := 0b01#2
  fmtMwr64 := 0b11#2
  fmtCpl := 0b00#2
  fmtCpld := 0b10#2
  longHeaderBit := 0
  statusSC := 0b000#3
  statusUR := 0b001#3

/-- A field's value placed at its position in a dword. -/
def putField {n : Nat} (lo : Nat) (v : BitVec n) : Dword := v.setWidth 32 <<< lo

/-- `d[lo+n-1 : lo]` (R8). -/
def getField (lo n : Nat) (d : Dword) : BitVec n := d.extractLsb' lo n

/-- The bits of a field of `n` bits at a position. -/
def fieldMask (lo n : Nat) : Dword := putField lo (BitVec.allOnes n)

/-! ## The opcode map -/

/-- The six kinds, without operands. -/
inductive Kind where
  | mrd32 | mwr32 | mrd64 | mwr64 | cpl | cpld
  deriving DecidableEq, Repr

/-- `fmt` of a kind (R92). -/
def kindFmt : Kind → BitVec 2
  | .mrd32 => headerLayout.fmtMrd32
  | .mwr32 => headerLayout.fmtMwr32
  | .mrd64 => headerLayout.fmtMrd64
  | .mwr64 => headerLayout.fmtMwr64
  | .cpl => headerLayout.fmtCpl
  | .cpld => headerLayout.fmtCpld

/-- `type` of a kind (R92). -/
def kindType : Kind → BitVec 5
  | .mrd32 => headerLayout.typeMem
  | .mwr32 => headerLayout.typeMem
  | .mrd64 => headerLayout.typeMem
  | .mwr64 => headerLayout.typeMem
  | .cpl => headerLayout.typeCpl
  | .cpld => headerLayout.typeCpl

/-- `fmt` and `type` of a kind in their places in header dword 0: the match value of R96. -/
def kindPattern (k : Kind) : Dword :=
  putField headerLayout.fmtLo (kindFmt k) ||| putField headerLayout.typeLo (kindType k)

/-- The bits of `fmt` and `type` in header dword 0: the mask of R96. -/
def kindMask : Dword := fieldMask headerLayout.fmtLo 2 ||| fieldMask headerLayout.typeLo 5

/-- One row of the opcode map (R96). -/
structure OpcodeRow where
  kind : Kind
  pattern : Dword
  mask : Dword
  deriving DecidableEq, Repr

/-- The opcode map (R96): mask and match on header dword 0. -/
def opcodeMap : List OpcodeRow :=
  [.mrd32, .mwr32, .mrd64, .mwr64, .cpl, .cpld].map fun k => ⟨k, kindPattern k, kindMask⟩

/-- Does the dword match the row? -/
def rowMatches (d : Dword) (row : OpcodeRow) : Bool := d &&& row.mask == row.pattern

/-- The kind of a header dword 0, none for any other `fmt` and `type` (R97 a). -/
def kindOf (d : Dword) : Option Kind := (opcodeMap.find? (rowMatches d)).map (·.kind)

/-! ## The decoder -/

/-- Why a dword sequence is not decoded. -/
inductive DecodeError where
  /-- `fmt` and `type` are those of none of the six (R97 a). -/
  | unknownKind (fmt : BitVec 2) (type : BitVec 5)
  /-- fewer dwords than the header of the kind has (R94). -/
  | truncatedHeader
  /-- fewer payload dwords than `length` says. -/
  | truncatedPayload
  deriving DecidableEq, Repr

/-- The fields R98 decodes of a request's header. A 32-bit address stands in the low half of `address`. -/
structure ReqFields where
  length : BitVec 10
  requesterId : BitVec 16
  tag : BitVec 8
  lastBe : Nibble
  firstBe : Nibble
  address : BitVec 64
  deriving DecidableEq, Repr

/-- The fields R98 decodes of a completion's header. -/
structure CmpFields where
  length : BitVec 10
  completerId : BitVec 16
  status : BitVec 3
  byteCount : BitVec 12
  requesterId : BitVec 16
  tag : BitVec 8
  lowerAddress : BitVec 7
  deriving DecidableEq, Repr

/-- A decoded header: its kind and the fields of the kind (R98). -/
inductive HeaderFields where
  | mrd32 (f : ReqFields)
  | mwr32 (f : ReqFields)
  | mrd64 (f : ReqFields)
  | mwr64 (f : ReqFields)
  | cpl (f : CmpFields)
  | cpld (f : CmpFields)
  deriving DecidableEq, Repr

/-- A request's fields from its dwords 0 and 1 (R86, R87, R98), given its address. -/
def reqFields (d0 d1 : Dword) (address : BitVec 64) : ReqFields where
  length := getField headerLayout.lengthLo 10 d0
  requesterId := getField headerLayout.reqRequesterIdLo 16 d1
  tag := getField headerLayout.reqTagLo 8 d1
  lastBe := getField headerLayout.lastBeLo 4 d1
  firstBe := getField headerLayout.firstBeLo 4 d1
  address := address

/-- A completion's fields from its three dwords (R86, R90, R91, R98). -/
def cmpFields (d0 d1 d2 : Dword) : CmpFields where
  length := getField headerLayout.lengthLo 10 d0
  completerId := getField headerLayout.completerIdLo 16 d1
  status := getField headerLayout.statusLo 3 d1
  byteCount := getField headerLayout.byteCountLo 12 d1
  requesterId := getField headerLayout.cmpRequesterIdLo 16 d2
  tag := getField headerLayout.cmpTagLo 8 d2
  lowerAddress := getField headerLayout.lowerAddressLo 7 d2

/-- The decoder of a header (R98): its kind and every field, with the dwords after it. -/
def decodeHeader : List Dword → Except DecodeError (HeaderFields × List Dword)
  | d0 :: d1 :: d2 :: rest =>
    match kindOf d0 with
    | none => .error (.unknownKind (getField headerLayout.fmtLo 2 d0) (getField headerLayout.typeLo 5 d0))
    | some .mrd32 => .ok (.mrd32 (reqFields d0 d1 (d2.setWidth 64)), rest)
    | some .mwr32 => .ok (.mwr32 (reqFields d0 d1 (d2.setWidth 64)), rest)
    | some .mrd64 =>
      match rest with
      | [] => .error .truncatedHeader
      | d3 :: rest => .ok (.mrd64 (reqFields d0 d1 (d2 ++ d3)), rest)
    | some .mwr64 =>
      match rest with
      | [] => .error .truncatedHeader
      | d3 :: rest => .ok (.mwr64 (reqFields d0 d1 (d2 ++ d3)), rest)
    | some .cpl => .ok (.cpl (cmpFields d0 d1 d2), rest)
    | some .cpld => .ok (.cpld (cmpFields d0 d1 d2), rest)
  | _ => .error .truncatedHeader

/-- The operation a header stands for. `lower_address` has 7 bits in the header, so bit 7 of the operand is 0
(R148, R238). -/
def operation : HeaderFields → Instr
  | .mrd32 f => .mrd32 (f.address.setWidth 32) f.length f.requesterId f.tag
  | .mwr32 f => .mwr32 (f.address.setWidth 32) f.length f.requesterId f.tag
  | .mrd64 f => .mrd64 f.address f.length f.requesterId f.tag
  | .mwr64 f => .mwr64 f.address f.length f.requesterId f.tag
  | .cpl f => .cpl f.completerId f.requesterId f.tag (f.lowerAddress.setWidth 8) f.length
  | .cpld f => .cpld f.completerId f.requesterId f.tag (f.lowerAddress.setWidth 8) f.length

/-- The operation at the head of a dword sequence (R98), with the dwords after its header. -/
def decode (ds : List Dword) : Except DecodeError (Instr × List Dword) :=
  match decodeHeader ds with
  | .error e => .error e
  | .ok (h, rest) => .ok (operation h, rest)

/-- A decoded TLP: everything R98 reads. -/
structure DecodedTlp where
  header : HeaderFields
  payload : List Dword
  deriving DecidableEq, Repr

/-- The decoder of a whole TLP (R98): the header, then `length` payload dwords for the kinds with data; with it
the dwords after the packet. -/
def decodeTlp (ds : List Dword) : Except DecodeError (DecodedTlp × List Dword) :=
  match decodeHeader ds with
  | .error e => .error e
  | .ok (h, rest) =>
    let n := (operation h).payloadDwords
    if (rest.take n).length < n then .error .truncatedPayload
    else .ok (⟨h, rest.take n⟩, rest.drop n)

/-- The packet of such a TLP, with the dwords after it. -/
def decodePacket (ds : List Dword) : Except DecodeError (Packet × List Dword) :=
  match decodeTlp ds with
  | .error e => .error e
  | .ok (t, rest) => .ok (⟨operation t.header, t.payload⟩, rest)

/-! ## The encoder -/

/-- Header dword 0: the match value of the kind, and `length` (R86, R96). -/
def encodeDw0 (k : Kind) (len : BitVec 10) : Dword := kindPattern k ||| putField headerLayout.lengthLo len

/-- `first_be` is all ones and `last_be` all ones exactly when `len > 1` (R122). -/
def encodeLastBe (len : BitVec 10) : Nibble := if 1 < len.toNat then 0xF#4 else 0x0#4

/-- `byte_count` is `4 * len`: `len` with two zero bits below it (R143). -/
def encodeByteCount (len : BitVec 10) : BitVec 12 := len ++ 0#2

/-- Header dword 1 of a request (R87). -/
def encodeReqDw1 (len : BitVec 10) (reqId : BitVec 16) (tag : BitVec 8) : Dword :=
  putField headerLayout.reqRequesterIdLo reqId ||| putField headerLayout.reqTagLo tag |||
    putField headerLayout.lastBeLo (encodeLastBe len) ||| putField headerLayout.firstBeLo 0xF#4

/-- Header dword 1 of a completion (R90); `bcm` is 0. -/
def encodeCmpDw1 (cmpId : BitVec 16) (status : BitVec 3) (len : BitVec 10) : Dword :=
  putField headerLayout.completerIdLo cmpId ||| putField headerLayout.statusLo status |||
    putField headerLayout.byteCountLo (encodeByteCount len)

/-- Header dword 2 of a completion (R91): seven bits of the lower address; the reserved bit is 0. -/
def encodeCmpDw2 (reqId : BitVec 16) (tag : BitVec 8) (ladr : BitVec 8) : Dword :=
  putField headerLayout.cmpRequesterIdLo reqId ||| putField headerLayout.cmpTagLo tag |||
    putField headerLayout.lowerAddressLo (ladr.extractLsb' 0 7)

/-- The header dwords of an operation, dword 0 first, before the Endianness Converter (R86 to R91). -/
def encode : Instr → List Dword
  | .mrd32 adr len reqId tag => [encodeDw0 .mrd32 len, encodeReqDw1 len reqId tag, adr]
  | .mwr32 adr len reqId tag => [encodeDw0 .mwr32 len, encodeReqDw1 len reqId tag, adr]
  | .mrd64 adr len reqId tag =>
    [encodeDw0 .mrd64 len, encodeReqDw1 len reqId tag, adr.extractLsb' 32 32, adr.extractLsb' 0 32]
  | .mwr64 adr len reqId tag =>
    [encodeDw0 .mwr64 len, encodeReqDw1 len reqId tag, adr.extractLsb' 32 32, adr.extractLsb' 0 32]
  | .cpl cmpId reqId tag ladr len =>
    [encodeDw0 .cpl len, encodeCmpDw1 cmpId headerLayout.statusUR len, encodeCmpDw2 reqId tag ladr]
  | .cpld cmpId reqId tag ladr len =>
    [encodeDw0 .cpld len, encodeCmpDw1 cmpId headerLayout.statusSC len, encodeCmpDw2 reqId tag ladr]

/-- The dwords of a whole TLP: header, then payload (R232, `Flat` before `Conv`). -/
def encodePacket (p : Packet) : List Dword := encode p.op ++ p.data

/-- What a header keeps of an operation: everything but bit 7 of `lower_address` (R148, R238). -/
def onWire : Instr → Instr
  | .mrd32 adr len reqId tag => .mrd32 adr len reqId tag
  | .mwr32 adr len reqId tag => .mwr32 adr len reqId tag
  | .mrd64 adr len reqId tag => .mrd64 adr len reqId tag
  | .mwr64 adr len reqId tag => .mwr64 adr len reqId tag
  | .cpl cmpId reqId tag ladr len => .cpl cmpId reqId tag (ladr &&& 0x7F#8) len
  | .cpld cmpId reqId tag ladr len => .cpld cmpId reqId tag (ladr &&& 0x7F#8) len

/-! ## Canonical headers -/

/-- Is every bit outside these fields 0? -/
def clearOutside (mask d : Dword) : Bool := d &&& ~~~mask == 0#32

/-- The fields of a request's header dword 1 (R87). -/
def reqDw1Mask : Dword :=
  fieldMask headerLayout.reqRequesterIdLo 16 ||| fieldMask headerLayout.reqTagLo 8 |||
    fieldMask headerLayout.lastBeLo 4 ||| fieldMask headerLayout.firstBeLo 4

/-- The fields of a completion's header dword 1 that are not always 0 (R90). -/
def cmpDw1Mask : Dword :=
  fieldMask headerLayout.completerIdLo 16 ||| fieldMask headerLayout.statusLo 3 |||
    fieldMask headerLayout.byteCountLo 12

/-- The fields of a completion's header dword 2 (R91). -/
def cmpDw2Mask : Dword :=
  fieldMask headerLayout.cmpRequesterIdLo 16 ||| fieldMask headerLayout.cmpTagLo 8 |||
    fieldMask headerLayout.lowerAddressLo 7

/-- The constant and reserved bits of header dword 0 are 0 (R86, R97 d). -/
def canonicalDw0 (d0 : Dword) : Bool := clearOutside (kindMask ||| fieldMask headerLayout.lengthLo 10) d0

/-- A request's derived fields: `first_be` and `last_be` as R122 fixes them (R97 e). -/
def canonicalReq (f : ReqFields) (d1 : Dword) : Bool :=
  f.firstBe == 0xF#4 && f.lastBe == encodeLastBe f.length && clearOutside reqDw1Mask d1

/-- A completion's derived fields and constant bits: `status` of its kind (R142), `byte_count` (R143), `bcm` and the
reserved bit 0 (R90, R91). -/
def canonicalCmp (status : BitVec 3) (f : CmpFields) (d1 d2 : Dword) : Bool :=
  f.status == status && f.byteCount == encodeByteCount f.length &&
    clearOutside cmpDw1Mask d1 && clearOutside cmpDw2Mask d2

/-- The derived fields of a decoded header and the constant bits of its dwords 1 and 2. -/
def canonicalFields (h : HeaderFields) (d1 d2 : Dword) : Bool :=
  match h with
  | .mrd32 f => canonicalReq f d1
  | .mwr32 f => canonicalReq f d1
  | .mrd64 f => canonicalReq f d1
  | .mwr64 f => canonicalReq f d1
  | .cpl f => canonicalCmp headerLayout.statusUR f d1 d2
  | .cpld f => canonicalCmp headerLayout.statusSC f d1 d2

/-- Is this dword sequence, header first, one whose header has every constant and derived field as R86 to R93,
R122 and R143 give it? The packetizer emits no other header (R97). -/
def canonicalHeader (ds : List Dword) : Bool :=
  match ds, decodeHeader ds with
  | d0 :: d1 :: d2 :: _, .ok (h, _) => canonicalDw0 d0 && canonicalFields h d1 d2
  | _, _ => false

/-! ## The opcode table's numbering -/

/-- The most dwords a TLP of this hardware has: 4 header dwords and 1023 payload dwords (R92, R81). -/
def longestPacket : Nat := 1027

/-- The first `n` dwords of a bit string, the lowest 32 bits first. -/
def lowDwords : Nat → Nat → List Dword
  | 0, _ => []
  | n + 1, w => BitVec.ofNat 32 w :: lowDwords n (w >>> 32)

/-- The dwords of a bit string numbered as the opcode table numbers it: dword `k` is bits `32k+31:32k`, and
every bit from `nbits` up is 0. -/
def tableDwords (nbits w : Nat) : List Dword := lowDwords longestPacket (w % 2 ^ nbits)

/-- The packet the decoder reads from such a bit string, payload dwords included. -/
def decodeTablePacket (nbits w : Nat) : Option Packet :=
  match decodePacket (tableDwords nbits w) with
  | .ok (p, _) => some p
  | .error _ => none

/-- The operation the decoder reads from such a bit string. -/
def decodeTableWord (nbits w : Nat) : Option Instr := (decodeTablePacket nbits w).map (·.op)

end Sys2Proof
end

