-- ==== Sys2Proof/Machine/Lanes.lean ====
section
/-! DEFINITION. The bit view of a stream word (spec/00_scope.md R8, R9; spec/20_memory.md R51, R55): a word is kept
as the list of its dword slots, and these functions are its `dat` and `be` as bit vectors, with the accessors of
R9. A vector is 512 (64) bits wide, of which a `W`-bit word uses the low `W` (`W/8`). -/

namespace Sys2Proof.Machine

/-- `dat` of a word from the dwords of its slots. -/
def packDat : List Dword → BitVec 512
  | [] => 0
  | d :: ds => d.setWidth 512 ||| packDat ds <<< 32

/-- `be` of a word from the nibbles of its slots. -/
def packBe : List Nibble → BitVec 64
  | [] => 0
  | n :: ns => n.setWidth 64 ||| packBe ns <<< 4

/-- `dw(x, j)` (R9). -/
def dw (x : BitVec 512) (j : Nat) : Dword := x.extractLsb' (32 * j) 32

/-- `nib(b, j)` (R9). -/
def nib (b : BitVec 64) (j : Nat) : Nibble := b.extractLsb' (4 * j) 4

/-- `byte(x, i)` (R9), byte lane `i`. -/
def byteLane (x : BitVec 512) (i : Nat) : BitVec 8 := x.extractLsb' (8 * i) 8

/-- `phy_out.dat` and every other `dat`, as bits. -/
def datBits (slots : List Slot) : BitVec 512 := packDat (slots.map (·.dat))

/-- `phy_out.be` and every other `be`, as bits. -/
def beBits (slots : List Slot) : BitVec 64 := packBe (slots.map (·.be))

/-- The word of exactly `d` slots that a list of dwords stands for: a port has `d` slots, no more and no fewer
(R54). A list given too short is read as zero beyond its end, one given too long is cut. -/
def fitDwords (d : Nat) (l : List Dword) : List Dword := (List.range d).map fun j => l.getD j 0

/-- The same for a register of `d` slots. -/
def fitSlots (d : Nat) (l : List Slot) : List Slot :=
  (List.range d).map fun j => l.getD j ⟨0, noneEnabled⟩

end Sys2Proof.Machine
end

