-- ==== Sys2Proof/Machine/State.lean ====
section
/-! DEFINITION. The state of the machine as plain data, why it can stop, and the state after reset
(spec/10_state.md R20 to R34, spec/70_reset_and_hazards.md R270, R271). -/

namespace Sys2Proof.Machine

/-! ## The signals of the three streams -/

/-- The producer-driven signals of `req_in` (R54). `dat` lists the word's dword slots, slot 0 first. -/
structure ReqIn where
  valid : Bool
  first : Bool
  last : Bool
  we : Bool
  adr : BitVec 64
  len : BitVec 10
  reqId : BitVec 16
  tag : BitVec 8
  dat : List Dword
  deriving DecidableEq, Repr

/-- The producer-driven signals of `cmp_in` (R54). -/
structure CmpIn where
  valid : Bool
  first : Bool
  last : Bool
  cmpId : BitVec 16
  reqId : BitVec 16
  tag : BitVec 8
  adr : BitVec 8
  len : BitVec 10
  err : Bool
  dat : List Dword
  deriving DecidableEq, Repr

/-- The side fields of `req_in`, constant over a packet (R53, R256). -/
structure ReqParams where
  we : Bool
  adr : BitVec 64
  len : BitVec 10
  reqId : BitVec 16
  tag : BitVec 8
  deriving DecidableEq, Repr

/-- The side fields of `cmp_in`, constant over a packet (R53, R256). -/
structure CmpParams where
  cmpId : BitVec 16
  reqId : BitVec 16
  tag : BitVec 8
  adr : BitVec 8
  len : BitVec 10
  err : Bool
  deriving DecidableEq, Repr

/-- `req_in` with nothing on offer. -/
def ReqIn.idle : ReqIn := ⟨false, false, false, false, 0, 0, 0, 0, []⟩

/-- `cmp_in` with nothing on offer. -/
def CmpIn.idle : CmpIn := ⟨false, false, false, 0, 0, 0, 0, 0, false, []⟩

/-- One physical word: framing and slots (R85). -/
structure PhyWord where
  first : Bool
  last : Bool
  slots : List Slot
  deriving DecidableEq, Repr

/-- The inputs of a step (R231, `In`), with the reset of R270 beside them. -/
structure Inputs where
  rst : Bool
  req : ReqIn
  cmp : CmpIn
  ready : Bool
  deriving DecidableEq, Repr

/-- The outputs of a step (R231, `Out`). `phy` is none when `phy_out.valid = 0`. -/
structure Outputs where
  reqReady : Bool
  cmpReady : Bool
  phy : Option PhyWord
  deriving DecidableEq, Repr

/-! ## The environment's moves, held as data (log entry 3) -/

/-- What a producer does in a step: offer the word at the head of its queue, offer nothing, or drive the given
signals whatever they are (so that every input sequence, the unlawful ones too, can be written). -/
inductive Drive (ω : Type) where
  | queue
  | gap
  | signals (w : ω)
  deriving DecidableEq, Repr

/-- The environment in one step: reset, the consumer's `ready`, and the two producers. -/
structure Frame where
  rst : Bool
  ready : Bool
  req : Drive ReqIn
  cmp : Drive CmpIn
  deriving DecidableEq, Repr

/-- The environment past the end of its script: the consumer is ready, and each producer offers what it has
queued (log entry 3). -/
def Frame.default : Frame := ⟨false, true, .queue, .queue⟩

/-! ## The registers (R20) -/

/-- `st`: which phase of the packet the Header Inserter is in (R23). -/
inductive Phase where
  | header | data
  deriving DecidableEq, Repr

/-- `grant`: the source that owns the raw-TLP output (R26). -/
inductive Grant where
  | idle | req | cmp
  deriving DecidableEq, Repr

/-- The carry register (R22): the slots of the last input word transferred, which hold `carry.dat` and
`carry.be`, and its `last` flag. -/
structure Carry where
  slots : List Slot
  last : Bool
  deriving DecidableEq, Repr

/-- The policy's own state (R175): `lastg` is `ALTERNATE`'s; `grants`, newest first, is that of the open
policy. -/
structure PolicyState where
  lastg : Source
  grants : List Source
  deriving DecidableEq, Repr

/-! ## The model's own state (R33) -/

/-- The protocol monitor of one input stream (R33). -/
structure Monitor (ω π : Type) where
  inPacket : Bool
  offered : Option ω
  wordsSeen : Nat
  params : Option π
  deriving DecidableEq, Repr

/-- A monitor at reset (R34). -/
def Monitor.fresh {ω π : Type} : Monitor ω π := ⟨false, none, 0, none⟩

/-- The fault codes (R251). -/
inductive Code where
  | offerRetracted
  | firstMisplaced
  | lastMisplaced
  | zeroLengthRequest
  | paramsChanged
  | multiWordNoData
  deriving DecidableEq, Repr

/-- The code's number (R251). -/
def Code.number : Code → Nat
  | .offerRetracted => 1
  | .firstMisplaced => 2
  | .lastMisplaced => 3
  | .zeroLengthRequest => 4
  | .paramsChanged => 5
  | .multiWordNoData => 6

/-- The stream a violation is detected on (R251); `raw` is the Header Inserter's own check (R190, R194). -/
inductive StreamId where
  | reqIn | cmpIn | raw
  deriving DecidableEq, Repr

/-- A fault record: "Each records the stream and the step" (R250, R251). -/
structure Violation where
  code : Code
  stream : StreamId
  step : Nat
  deriving DecidableEq, Repr

/-! ## The state -/

/-- The whole state. The first seven fields after `cfg` are the table of R20; `policy` belongs to `ARB_POLICY`
(R175); `fault` and the monitors are R33's; the last six are the model's: the step number, the environment's
script and queues, the outputs of the last step, and the words transferred on `phy_out` so far, oldest first.
`cfg` is the instance's parameters, which no step changes (R6, R31). -/
structure State where
  cfg : Params
  st : Phase
  cnt : BitVec 1
  sL : BitVec 4
  carry : Carry
  grant : Grant
  policy : PolicyState
  fault : Option Violation
  monReq : Monitor ReqIn ReqParams
  monCmp : Monitor CmpIn CmpParams
  time : Nat
  env : List Frame
  reqQ : List ReqIn
  cmpQ : List CmpIn
  out : Option Outputs
  sent : List PhyWord
  deriving DecidableEq, Repr

/-- Why a step stops the machine. -/
inductive Fault where
  /-- Raised by every step, but a reset step, of a state whose `fault` field is set: a contract violation ended
  the run (R250, R259). Safe: the hardware goes on, the spec does not say how, and nothing can be proved of
  it here. -/
  | contractViolation (v : Violation)
  deriving DecidableEq, Repr

/-- Why an operation has no meaning. -/
inductive Refusal where
  /-- Raised by an arm of `exec` whose instruction has no meaning yet. Safe: nothing is claimed of it. -/
  | notModelled (mnemonic : String)
  /-- Raised by `execMrd64` and `execMwr64` for an operand the spec says "names no input the hardware can be
  given" (R100: an upper address half of zero; D16: an instance with a 32-bit address port). Safe: no run of
  `step` meets it. -/
  | namesNoInput
  deriving DecidableEq, Repr

/-- The carry register's content at reset: zero in every slot (log entry 4; R34 leaves it unspecified). -/
def Carry.zero (p : Params) : Carry := ⟨List.replicate p.D ⟨0, noneEnabled⟩, false⟩

/-- The policy's state at reset (R271: `lastg = Cmp`); the open policy has seen no grant. -/
def PolicyState.initial : PolicyState := ⟨.cmp, []⟩

/-- The machine right after reset, for a given instance (R34, R271). -/
def State.resetFor (p : Params) : State where
  cfg := p
  st := .header
  cnt := 0
  sL := 0
  carry := Carry.zero p
  grant := .idle
  policy := PolicyState.initial
  fault := none
  monReq := Monitor.fresh
  monCmp := Monitor.fresh
  time := 0
  env := []
  reqQ := []
  cmpQ := []
  out := none
  sent := []

/-- The machine right after reset (R34, R271), the instance being the default one (log entry 2). -/
def State.reset : State := State.resetFor Params.default

end Sys2Proof.Machine
end

