-- ==== Sys2Proof/Machine/Flags.lean ====
section
/-! DEFINITION. The flag-like values (spec/10_state.md R28): byte-enables of payload words, the word count that
places `last`, the derived constants of a header size, and the fits test (spec/40 R125, spec/41 R144,
spec/20 R69, spec/44 R186, R187, R189). -/

namespace Sys2Proof.Machine

/-- `ceil(a / b)` over the natural numbers (R10). -/
def ceilDiv (a b : Nat) : Nat := (a + b - 1) / b

/-- `((len - 1) mod D) + 1`: the payload dwords in the last word of a packet of `len >= 1` (R125, R144). -/
def lastWordDwords (d len : Nat) : Nat := (len - 1) % d + 1

/-- `nv` of R125: the slots that hold a payload dword in one word of a request. -/
def reqEnabledSlots (d : Nat) (we last : Bool) (len : Nat) : Nat :=
  if !we then 0 else if !last then d else lastWordDwords d len

/-- `nv` of R144: the same for one word of a completion. -/
def cmpEnabledSlots (d : Nat) (err last : Bool) (len : Nat) : Nat :=
  if err then 0 else if !last then d else if len = 0 then 0 else lastWordDwords d len

/-- The slots of a payload word: `dat` with the low `nv` slots enabled (R125, R144). -/
def payloadSlots (d nv : Nat) (dat : List Dword) : List Slot :=
  (List.range d).map fun j => ⟨dat.getD j 0, if j < nv then allEnabled else noneEnabled⟩

/-- `need`: the word count of a packet (R69, R254). -/
def wordsNeeded (d : Nat) (hasData : Bool) (len : Nat) : Nat :=
  if hasData then max 1 (ceilDiv len d) else 1

/-- `H` of a packet, from the bit of `fmt` that says so, `fmt[0]` in the layout of R92 (R187, R94). -/
def headerSize (fmt : BitVec 2) : Nat := if fmt.getLsbD headerLayout.longHeaderBit then 4 else 3

/-- `Hw`: the physical words that hold header dwords (R186). -/
def headerWords (d h : Nat) : Nat := ceilDiv h d

/-- `r`: the header dwords in the last of those words (R186). -/
def headerRest (d h : Nat) : Nat := h - d * (headerWords d h - 1)

/-- `s`: the payload slots in the last of those words (R186). -/
def shiftOf (d h : Nat) : Nat := d - headerRest d h

/-- `fits(i, s)` (R189): the word ends the packet and holds nothing at or beyond slot `s`. -/
def fits (last : Bool) (slots : List Slot) (s : Nat) : Bool :=
  last && (slots.drop s).all fun x => x.be == noneEnabled

/-- `cnt`, which does not exist (constant 0) for `D >= 4` (R20, R24). -/
def cntOf (d : Nat) (cnt : BitVec 1) : Nat := if d = 2 then cnt.toNat else 0

/-- `sL`, of which an instance has the `ceil(log2 D)` bits that number its slots (R20, R25). -/
def sLOf (d : Nat) (sL : BitVec 4) : Nat := sL.toNat % d

end Sys2Proof.Machine
end

