-- ==== Sys2Proof/Machine/Header.lean ====
section
/-! DEFINITION. The logical header records, the Header Encoder and the Endianness Converter
(spec/30_encoding.md R83, spec/42_header_encoder_endianness.md R155 to R162). -/

namespace Sys2Proof.Machine

/-- The logical header of a request (R83). -/
structure TlpReq where
  fmt : BitVec 2
  type : BitVec 5
  tc : BitVec 3
  td : BitVec 1
  ep : BitVec 1
  attr : BitVec 2
  length : BitVec 10
  requesterId : BitVec 16
  tag : BitVec 8
  lastBe : Nibble
  firstBe : Nibble
  address : BitVec 64
  deriving DecidableEq, Repr

/-- The logical header of a completion (R83). -/
structure TlpCmp where
  fmt : BitVec 2
  type : BitVec 5
  tc : BitVec 3
  td : BitVec 1
  ep : BitVec 1
  attr : BitVec 2
  length : BitVec 10
  completerId : BitVec 16
  status : BitVec 3
  bcm : BitVec 1
  byteCount : BitVec 12
  requesterId : BitVec 16
  tag : BitVec 8
  lowerAddress : BitVec 7
  deriving DecidableEq, Repr

/-- `hdr(h, j)` (R9): dword `j` of a 128-bit raw header. -/
def hdr (h : BitVec 128) (j : Nat) : Dword := h.extractLsb' (32 * j) 32

/-- The raw header of four dwords: dword `j` at bits `32j+31:32j` (R84, R155). -/
def packHdr (d0 d1 d2 d3 : Dword) : BitVec 128 := d3 ++ d2 ++ d1 ++ d0

/-- Header dword 0, the same for both paths (R86, R156, R157). -/
def headerDw0 (fmt : BitVec 2) (type : BitVec 5) (tc : BitVec 3) (td ep : BitVec 1) (attr : BitVec 2)
    (length : BitVec 10) : Dword :=
  putField headerLayout.fmtLo fmt ||| putField headerLayout.typeLo type |||
    putField headerLayout.tcLo tc ||| putField headerLayout.tdLo td ||| putField headerLayout.epLo ep |||
    putField headerLayout.attrLo attr ||| putField headerLayout.lengthLo length

/-- `EncodeReq` (R156). -/
def encodeReq (t : TlpReq) : BitVec 128 :=
  packHdr
    (headerDw0 t.fmt t.type t.tc t.td t.ep t.attr t.length)
    (putField headerLayout.reqRequesterIdLo t.requesterId ||| putField headerLayout.reqTagLo t.tag |||
      putField headerLayout.lastBeLo t.lastBe ||| putField headerLayout.firstBeLo t.firstBe)
    (t.address.extractLsb' 0 32)
    (t.address.extractLsb' 32 32)

/-- `EncodeCmp` (R157). -/
def encodeCmp (t : TlpCmp) : BitVec 128 :=
  packHdr
    (headerDw0 t.fmt t.type t.tc t.td t.ep t.attr t.length)
    (putField headerLayout.completerIdLo t.completerId ||| putField headerLayout.statusLo t.status |||
      putField headerLayout.bcmLo t.bcm ||| putField headerLayout.byteCountLo t.byteCount)
    (putField headerLayout.cmpRequesterIdLo t.requesterId ||| putField headerLayout.cmpTagLo t.tag |||
      putField headerLayout.lowerAddressLo t.lowerAddress)
    0

/-! ## The Endianness Converter -/

/-- The four bytes of a dword reversed (R158). -/
def bswap32 (v : Dword) : Dword :=
  v.extractLsb' 0 8 ++ v.extractLsb' 8 8 ++ v.extractLsb' 16 8 ++ v.extractLsb' 24 8

/-- The four enables of a dword reversed (R158). -/
def nibrev (n : Nibble) : Nibble :=
  n.extractLsb' 0 1 ++ n.extractLsb' 1 1 ++ n.extractLsb' 2 1 ++ n.extractLsb' 3 1

/-- `Conv` (R158). -/
def conv : Endian → Dword → Dword
  | .noSwap, v => v
  | .swap, v => bswap32 v

/-- `ConvBe` (R158). -/
def convBe : Endian → Nibble → Nibble
  | .noSwap, n => n
  | .swap, n => nibrev n

/-- The converter on the header: all four dwords, whatever `fmt` is (R159). -/
def convHeader (e : Endian) (h : BitVec 128) : BitVec 128 :=
  packHdr (conv e (hdr h 0)) (conv e (hdr h 1)) (conv e (hdr h 2)) (conv e (hdr h 3))

/-- The converter on one payload slot, its enables moving with its bytes (R160, R161). -/
def convSlot (e : Endian) (x : Slot) : Slot := ⟨conv e x.dat, convBe e x.be⟩

/-- The converter on the payload: every slot, enabled or not (R160, R161). -/
def convSlots (e : Endian) (l : List Slot) : List Slot := l.map (convSlot e)

end Sys2Proof.Machine
end

