-- ==== Sys2Proof/Machine/Operands.lean ====
section
/-! DEFINITION. The operand forms: what the ports carry, the operation a word on a port belongs to and back, the
Request Formatter and the Completion Formatter with the encoder and the converter behind them
(spec/20_memory.md R54, R69; spec/40 R120 to R126; spec/41 R140 to R148; spec/45 R230). -/

namespace Sys2Proof.Machine

/-! ## The ports -/

/-- The address an instance's port carries: `AW` bits (R6, R123, decision D16). -/
def portAdr (p : Params) (adr : BitVec 64) : BitVec 64 :=
  match p.aw with
  | .a64 => adr
  | .a32 => (adr.extractLsb' 0 32).setWidth 64

/-- What `req_in` carries of given signals: `AW` address bits and `D` slots (R54). -/
def ReqIn.onPort (p : Params) (r : ReqIn) : ReqIn :=
  { r with adr := portAdr p r.adr, dat := fitDwords p.D r.dat }

/-- What `cmp_in` carries of given signals: `D` slots (R54). -/
def CmpIn.onPort (p : Params) (c : CmpIn) : CmpIn := { c with dat := fitDwords p.D c.dat }

/-- The side fields of a request word (R54, R256). -/
def ReqIn.params (r : ReqIn) : ReqParams := ⟨r.we, r.adr, r.len, r.reqId, r.tag⟩

/-- The side fields of a completion word (R54, R256). -/
def CmpIn.params (c : CmpIn) : CmpParams := ⟨c.cmpId, c.reqId, c.tag, c.adr, c.len, c.err⟩

/-! ## Kinds -/

/-- `hi` (R123): the address's upper 32 bits. On an instance with `AW = 32` the port has none and `hi = 0`
(`portAdr`). -/
def adrHi (adr : BitVec 64) : BitVec 32 := adr.extractLsb' 32 32

/-- The address's lower 32 bits. -/
def adrLo (adr : BitVec 64) : BitVec 32 := adr.extractLsb' 0 32

/-- `is64` (R123). -/
def is64 (adr : BitVec 64) : Bool := adrHi adr != 0#32

/-- The kind of a request (R123). -/
def kindOfReq (r : ReqIn) : Kind :=
  match r.we, is64 r.adr with
  | true, true => .mwr64
  | false, true => .mrd64
  | true, false => .mwr32
  | false, false => .mrd32

/-- The kind of a completion (R142). -/
def kindOfCmp (c : CmpIn) : Kind := if c.err then .cpl else .cpld

/-- The operation a word on `req_in` belongs to: the kind selection of R123. It is also what the pseudo-operations
`MRD` and `MWR` without a width suffix stand for (R100). -/
def instrOfReq (r : ReqIn) : Instr :=
  match r.we, is64 r.adr with
  | true, true => .mwr64 r.adr r.len r.reqId r.tag
  | false, true => .mrd64 r.adr r.len r.reqId r.tag
  | true, false => .mwr32 (adrLo r.adr) r.len r.reqId r.tag
  | false, false => .mrd32 (adrLo r.adr) r.len r.reqId r.tag

/-- The operation a word on `cmp_in` belongs to (R142), which is what the pseudo-operation `CMP err=` stands for
(R100). -/
def instrOfCmp (c : CmpIn) : Instr :=
  if c.err then .cpl c.cmpId c.reqId c.tag c.adr c.len else .cpld c.cmpId c.reqId c.tag c.adr c.len

/-- Can the instance's address port carry this 64-bit operand as a 64-bit request? R100: the upper half is not
zero; D16: `AW = 64`. -/
def carries64 (p : Params) (adr : BitVec 64) : Bool := p.aw == .a64 && is64 adr

/-- The inputs of a step in which `req_in` offers a word with these side fields; framing and payload are those
of the word on the port. -/
def presentReq (we : Bool) (adr : BitVec 64) (len : BitVec 10) (reqId : BitVec 16) (tag : BitVec 8)
    (inp : Inputs) : Inputs :=
  { inp with req := { inp.req with valid := true, we := we, adr := adr, len := len, reqId := reqId, tag := tag } }

/-- The inputs of a step in which `cmp_in` offers a word with these side fields. -/
def presentCmp (err : Bool) (cmpId reqId : BitVec 16) (tag ladr : BitVec 8) (len : BitVec 10)
    (inp : Inputs) : Inputs :=
  { inp with cmp := { inp.cmp with
      valid := true, err := err, cmpId := cmpId, reqId := reqId, tag := tag, adr := ladr, len := len } }

/-! ## The formatters -/

/-- `tlp_req`'s side fields (R121 to R124). The codes of the kind that R123 selects are the layout's (R92); R123's
`fmt = {we, is64}` is what that layout makes of them. -/
def formatReq (r : ReqIn) : TlpReq where
  fmt := kindFmt (kindOfReq r)
  type := kindType (kindOfReq r)
  tc := 0
  td := 0
  ep := 0
  attr := 0
  length := r.len
  requesterId := r.reqId
  tag := r.tag
  lastBe := if 1 < r.len.toNat then allEnabled else noneEnabled
  firstBe := allEnabled
  address := if is64 r.adr then adrLo r.adr ++ adrHi r.adr else 0#32 ++ adrLo r.adr

/-- `tlp_cmp`'s side fields (R141 to R143, R148). -/
def formatCmp (c : CmpIn) : TlpCmp where
  fmt := kindFmt (kindOfCmp c)
  type := kindType (kindOfCmp c)
  tc := 0
  td := 0
  ep := 0
  attr := 0
  length := c.len
  completerId := c.cmpId
  status := if c.err then headerLayout.statusUR else headerLayout.statusSC
  bcm := 0
  byteCount := c.len.setWidth 12 * 4
  requesterId := c.reqId
  tag := c.tag
  lowerAddress := c.adr.extractLsb' 0 7

/-- One word of a Raw TLP stream (R84): framing, the endianness-converted slots, and the side fields. -/
structure RawWord where
  valid : Bool
  first : Bool
  last : Bool
  slots : List Slot
  header : BitVec 128
  fmt : BitVec 2
  deriving DecidableEq, Repr

/-- A Raw TLP stream with nothing on offer. -/
def RawWord.idle : RawWord := ⟨false, false, false, [], 0, 0⟩

/-- `raw_req`: formatter, encoder and converter of the request path (R230, R126, R125). -/
def rawReq (p : Params) (r : ReqIn) : RawWord where
  valid := r.valid
  first := r.first
  last := r.last
  slots := convSlots p.endian
    (payloadSlots p.D (reqEnabledSlots p.D r.we r.last r.len.toNat) r.dat)
  header := convHeader p.endian (encodeReq (formatReq r))
  fmt := (formatReq r).fmt

/-- `raw_cmp`: formatter, encoder and converter of the completion path (R230, R145, R144). -/
def rawCmp (p : Params) (c : CmpIn) : RawWord where
  valid := c.valid
  first := c.first
  last := c.last
  slots := convSlots p.endian
    (payloadSlots p.D (cmpEnabledSlots p.D c.err c.last c.len.toNat) c.dat)
  header := convHeader p.endian (encodeCmp (formatCmp c))
  fmt := (formatCmp c).fmt

/-! ## The words a packet is presented in (R69) -/

/-- The payload dwords of input word `k` (R69). -/
def payloadChunk (d : Nat) (data : List Dword) (k : Nat) : List Dword := (data.drop (k * d)).take d

/-- The words of a request packet (R69, R53); a read is one word. -/
def reqWords (d : Nat) (we : Bool) (adr : BitVec 64) (len : BitVec 10) (reqId : BitVec 16) (tag : BitVec 8)
    (data : List Dword) : List ReqIn :=
  let need := wordsNeeded d we len.toNat
  (List.range need).map fun k =>
    ⟨true, k == 0, k + 1 == need, we, adr, len, reqId, tag, payloadChunk d data k⟩

/-- The words of a completion packet (R69, R53); an error completion is one word. -/
def cmpWords (d : Nat) (err : Bool) (cmpId reqId : BitVec 16) (tag ladr : BitVec 8) (len : BitVec 10)
    (data : List Dword) : List CmpIn :=
  let need := wordsNeeded d (!err) len.toNat
  (List.range need).map fun k =>
    ⟨true, k == 0, k + 1 == need, cmpId, reqId, tag, ladr, len, err, payloadChunk d data k⟩

/-- The words of a packet on `req_in`; none for a completion. -/
def packetReqWords (d : Nat) (k : Packet) : List ReqIn :=
  match k.op with
  | .mrd32 adr len reqId tag => reqWords d false (adr.setWidth 64) len reqId tag k.data
  | .mwr32 adr len reqId tag => reqWords d true (adr.setWidth 64) len reqId tag k.data
  | .mrd64 adr len reqId tag => reqWords d false adr len reqId tag k.data
  | .mwr64 adr len reqId tag => reqWords d true adr len reqId tag k.data
  | .cpl .. => []
  | .cpld .. => []

/-- The words of a packet on `cmp_in`; none for a request. -/
def packetCmpWords (d : Nat) (k : Packet) : List CmpIn :=
  match k.op with
  | .mrd32 .. => []
  | .mwr32 .. => []
  | .mrd64 .. => []
  | .mwr64 .. => []
  | .cpl cmpId reqId tag ladr len => cmpWords d true cmpId reqId tag ladr len k.data
  | .cpld cmpId reqId tag ladr len => cmpWords d false cmpId reqId tag ladr len k.data

end Sys2Proof.Machine
end

