-- ==== Sys2Proof/Machine/Ops.lean ====
section
/-! DEFINITION. The named operations of a step: the environment's inputs, the protocol monitors and the fault
state (spec/60_exceptions.md), the Arbiter (spec/43_arbiter.md), the Header Inserter
(spec/44_header_inserter.md), reset (spec/70 R270), and `cycle`, the whole-step function of spec/45 R231. -/

namespace Sys2Proof.Machine

/-! ## The inputs of a step -/

/-- The environment's move in this step (log entry 3). -/
def frameOf (s : State) : Frame := s.env.headD Frame.default

/-- The signals of `req_in` in this step, as the port carries them. -/
def reqSignals (s : State) : ReqIn :=
  ReqIn.onPort s.cfg <|
    match (frameOf s).req with
    | .queue => match s.reqQ with
      | [] => ReqIn.idle
      | w :: _ => { w with valid := true }
    | .gap => ReqIn.idle
    | .signals w => w

/-- The signals of `cmp_in` in this step, as the port carries them. -/
def cmpSignals (s : State) : CmpIn :=
  CmpIn.onPort s.cfg <|
    match (frameOf s).cmp with
    | .queue => match s.cmpQ with
      | [] => CmpIn.idle
      | w :: _ => { w with valid := true }
    | .gap => CmpIn.idle
    | .signals w => w

/-- The inputs of this step (R231, `In`). -/
def inputsOf (s : State) : Inputs where
  rst := (frameOf s).rst
  req := reqSignals s
  cmp := cmpSignals s
  ready := (frameOf s).ready

/-! ## The protocol monitors and the fault state (R250 to R258) -/

/-- `OfferRetracted` (R252): a word was offered and not transferred, and now it is withdrawn or altered. -/
def retracted {ω π : Type} [DecidableEq ω] (m : Monitor ω π) (w : ω) (valid : Bool) : Bool :=
  match m.offered with
  | none => false
  | some o => !valid || w != o

/-- The violation a monitor finds in a step, if any: the lowest code, except that `MultiWordNoData` is recorded in
place of `LastMisplaced` when both hold (R258 b). `w` is the word on the port, `side` its side fields, `need` the
packet's word count, `zeroLen` whether `len = 0` is a violation here, `noData` whether the kind carries no data. -/
def monitorCheck {ω π : Type} [DecidableEq ω] [DecidableEq π] (m : Monitor ω π) (w : ω)
    (valid first last : Bool) (side : π) (need : Nat) (zeroLen noData : Bool) : Option Code :=
  let lastBad := last != (m.wordsSeen + 1 == need)
  let multi := noData && !(first && last)
  if retracted m w valid then some .offerRetracted
  else if !valid then none
  else if first != !m.inPacket then some .firstMisplaced
  else if lastBad && multi then some .multiWordNoData
  else if lastBad then some .lastMisplaced
  else if zeroLen then some .zeroLengthRequest
  else if m.inPacket && m.params != some side then some .paramsChanged
  else if multi then some .multiWordNoData
  else none

/-- The monitor of `req_in` in this step (R252 to R257). DESIGN CHOICE (log entry 19): where a side field changes inside
a packet, the word count `need` of R254 is that of the word on offer, not of the packet's first word. -/
def reqCheck (s : State) (r : ReqIn) : Option Code :=
  monitorCheck s.monReq r r.valid r.first r.last r.params (wordsNeeded s.cfg.D r.we r.len.toNat)
    (r.len == 0#10) (!r.we)

/-- The monitor of `cmp_in` in this step (R252 to R254, R256, R257); `len = 0` is legal (R255). DESIGN CHOICE (log
entry 19): `need` is that of the word on offer, as in `reqCheck`. -/
def cmpCheck (s : State) (c : CmpIn) : Option Code :=
  monitorCheck s.monCmp c c.valid c.first c.last c.params (wordsNeeded s.cfg.D (!c.err) c.len.toNat)
    false c.err

/-- The violation recorded in this step: `req_in` before `cmp_in` (R258 b). DESIGN CHOICE (log entry 21): where both
streams violate in one step the stream ranks before the code, so that `req_in`'s code is recorded even when `cmp_in`'s
is lower. -/
def violationOf (s : State) (inp : Inputs) : Option (Code × StreamId) :=
  match reqCheck s inp.req with
  | some c => some (c, .reqIn)
  | none => match cmpCheck s inp.cmp with
    | some c => some (c, .cmpIn)
    | none => none

/-- A monitor after a step (R252 to R254, R256): `ready` is the stream's `ready` in the step. -/
def monitorNext {ω π : Type} (m : Monitor ω π) (w : ω) (valid ready last : Bool) (side : π) :
    Monitor ω π where
  inPacket := if valid && ready then !last else m.inPacket
  offered := if valid && !ready then some w else none
  wordsSeen := if valid && ready then (if last then 0 else m.wordsSeen + 1) else m.wordsSeen
  params :=
    if valid && ready then
      (if last then none else if m.inPacket then m.params else some side)
    else m.params

/-- `raise` (R10, R250): the machine enters the sticky fault state, with the record of R251. Nothing else of the
hardware is said of the step, so its registers stay and it has no outputs. -/
def raise (c : Code) (i : StreamId) (s : State) : State :=
  { s with fault := some ⟨c, i, s.time⟩, time := s.time + 1, env := s.env.tail, out := none }

/-! ## The Arbiter (R170 to R175) -/

/-- `ARB_POLICY(policy state)`: the choice when idle and both sources offer (R171, R175). -/
def policyChoice (p : Policy) (q : PolicyState) : Source :=
  match p with
  | .prioReq => .req
  | .prioCmp => .cmp
  | .alternate => match q.lastg with
    | .req => .cmp
    | .cmp => .req
  | .unspecified => Config.arbPolicy q.grants

/-- The policy's state after a grant to `x` (R175). -/
def policyNext (p : Policy) (q : PolicyState) (x : Source) : PolicyState :=
  match p with
  | .prioReq => q
  | .prioCmp => q
  | .alternate => { q with lastg := x }
  | .unspecified => { q with grants := x :: q.grants }

/-- `sel` (R171). -/
def select (s : State) (reqValid cmpValid : Bool) : Option Source :=
  match s.grant with
  | .req => some .req
  | .cmp => some .cmp
  | .idle => match reqValid, cmpValid with
    | false, false => none
    | true, false => some .req
    | false, true => some .cmp
    | true, true => some (policyChoice s.cfg.policy s.policy)

/-- The grant that a selected source holds. -/
def grantOf : Source → Grant
  | .req => .req
  | .cmp => .cmp

/-- `sel` of this step's inputs. -/
def selOf (inp : Inputs) (s : State) : Option Source := select s inp.req.valid inp.cmp.valid

/-- `raw`: the word routed to the Header Inserter (R172). -/
def rawOf (inp : Inputs) (s : State) : RawWord :=
  match selOf inp s with
  | none => RawWord.idle
  | some .req => rawReq s.cfg inp.req
  | some .cmp => rawCmp s.cfg inp.cmp

/-- The grant after the step (R173); `done`: `xfer(raw) ∧ raw.last`. -/
def grantNext (sel : Option Source) (done : Bool) : Grant :=
  match sel with
  | none => .idle
  | some x => if done then .idle else grantOf x

/-- The policy's state after the step (R175): it changes in a step that leaves `Idle` or completes a one-word
packet, that is one that selects a source while the grant is `Idle`. -/
def policyStep (s : State) (sel : Option Source) : PolicyState :=
  match s.grant, sel with
  | .idle, some x => policyNext s.cfg.policy s.policy x
  | .idle, none => s.policy
  | .req, _ => s.policy
  | .cmp, _ => s.policy

/-! ## The Header Inserter (R185 to R198) -/

/-- `n` header dwords from dword `j0`, all enabled (R188). -/
def headerSlots (h : BitVec 128) (j0 n : Nat) : List Slot :=
  (List.range n).map fun j => ⟨hdr h (j0 + j), allEnabled⟩

/-- `HdrOnly(c)` (R188). -/
def hdrOnly (d c : Nat) (i : RawWord) : List Slot := headerSlots i.header (d * c) d

/-- `HdrLast(c, r)` (R188). -/
def hdrLast (d c r : Nat) (i : RawWord) : List Slot :=
  headerSlots i.header (d * c) r ++ i.slots.take (d - r)

/-- `Window(s)` (R188): the high slots of the carried word, then the low slots of the new one. -/
def window (d s : Nat) (carry : Carry) (i : RawWord) : List Slot :=
  (fitSlots d carry.slots).drop s ++ i.slots.take s

/-- `Flush(s)` (R188): the high slots of the carried word, then slots with no enable. -/
def flush (d s : Nat) (carry : Carry) : List Slot :=
  (fitSlots d carry.slots).drop s ++ List.replicate s ⟨0, noneEnabled⟩

/-- `any` (R188, R232, decision D9, U8, U11): the data of a slot whose enables are all zero is a free value,
drawn afresh for every step and slot. -/
def anyUnderZero (draw : Nat) (slots : List Slot) : List Slot :=
  slots.mapIdx fun j x => if x.be = noneEnabled then ⟨Config.anyDword draw j, noneEnabled⟩ else x

/-- The word an inserter offers, and its registers once the word is transferred. -/
structure Emit where
  slots : List Slot
  first : Bool
  last : Bool
  st : Phase
  cnt : BitVec 1
  sL : BitVec 4
  deriving DecidableEq, Repr

/-- What the inserter does in a step, whatever `o.ready` is: the word it offers (none: `o.valid = 0`), and
whether `i.ready` follows `o.ready` (else it is 0). -/
structure Plan where
  emit : Option Emit
  takes : Bool
  deriving DecidableEq, Repr

/-- State `HEADER` (R190 to R192); none where the inserter raises `FirstMisplaced`. -/
def planHeader (d : Nat) (cnt : BitVec 1) (sL : BitVec 4) (i : RawWord) : Option Plan :=
  if !i.valid then some ⟨none, false⟩
  else if !i.first then none
  else
    let h := headerSize i.fmt
    let c := cntOf d cnt
    if c + 1 < headerWords d h then
      some ⟨some ⟨hdrOnly d c i, c == 0, false, .header, cnt + 1, sL⟩, false⟩
    else
      let s := shiftOf d h
      if fits i.last i.slots s then
        some ⟨some ⟨hdrLast d c (headerRest d h) i, c == 0, true, .header, 0, sL⟩, true⟩
      else
        some ⟨some ⟨hdrLast d c (headerRest d h) i, c == 0, false, .data, 0, BitVec.ofNat 4 s⟩, decide (0 < s)⟩

/-- State `DATA`, `sL = 0` (R193): pass through. -/
def planPass (cnt : BitVec 1) (sL : BitVec 4) (i : RawWord) : Plan :=
  if i.valid then
    ⟨some ⟨i.slots, false, i.last, if i.last then .header else .data, cnt, sL⟩, true⟩
  else ⟨none, true⟩

/-- State `DATA`, `sL > 0`, `carry.last = 0` (R194): the sliding window; none where the inserter raises
`FirstMisplaced`. -/
def planWindow (d : Nat) (cnt : BitVec 1) (sL : BitVec 4) (carry : Carry) (i : RawWord) : Option Plan :=
  let s := sLOf d sL
  if !i.valid then some ⟨none, true⟩
  else if i.first then none
  else
    let f := fits i.last i.slots s
    some ⟨some ⟨window d s carry i, false, f, if f then .header else .data, cnt, sL⟩, true⟩

/-- State `DATA`, `sL > 0`, `carry.last = 1` (R195): the flush word. -/
def planFlush (d : Nat) (cnt : BitVec 1) (sL : BitVec 4) (carry : Carry) : Plan :=
  ⟨some ⟨flush d (sLOf d sL) carry, false, true, .header, cnt, sL⟩, false⟩

/-- The Header Inserter in a step (R190 to R195). -/
def planOf (s : State) (i : RawWord) : Option Plan :=
  match s.st with
  | .header => planHeader s.cfg.D s.cnt s.sL i
  | .data =>
    if sLOf s.cfg.D s.sL = 0 then some (planPass s.cnt s.sL i)
    else if s.carry.last then some (planFlush s.cfg.D s.cnt s.sL s.carry)
    else planWindow s.cfg.D s.cnt s.sL s.carry i

/-- The word on `phy_out` (R231): what the inserter offers, with the free bits in its empty slots. -/
def phyOf (draw : Nat) (e : Emit) : PhyWord := ⟨e.first, e.last, anyUnderZero draw e.slots⟩

/-- The carry register after the step (R22): the input word, if it was transferred. -/
def carryNext (carry : Carry) (i : RawWord) (xfer : Bool) : Carry :=
  if xfer then ⟨i.slots, i.last⟩ else carry

/-! ## The end of a step -/

/-- Is the producer's word taken from its queue in this step? -/
def fromQueue {ω : Type} : Drive ω → Bool
  | .queue => true
  | .gap => false
  | .signals _ => false

/-- Does the step transfer a word on `raw` (R172, R198)? -/
def rawXfer (inp : Inputs) (s : State) (pl : Plan) : Bool :=
  (rawOf inp s).valid && (pl.takes && inp.ready)

/-- `ready` to the producer of source `x` (R172, R230): the inserter's `i.ready`, for the selected source. -/
def readyTo (x : Source) (inp : Inputs) (s : State) (pl : Plan) : Bool :=
  selOf inp s == some x && (pl.takes && inp.ready)

/-- The outputs of the step (R231). -/
def outputsOf (inp : Inputs) (s : State) (pl : Plan) : Outputs where
  reqReady := readyTo .req inp s pl
  cmpReady := readyTo .cmp inp s pl
  phy := pl.emit.map (phyOf s.time)

/-- Every register's `<-` of the step, taken together (R11, R231 items 4 to 7). -/
def commit (inp : Inputs) (s : State) (pl : Plan) : State :=
  let raw := rawOf inp s
  let sel := selOf inp s
  let moved : Option Emit := if inp.ready then pl.emit else none
  { s with
    st := (moved.map (·.st)).getD s.st
    cnt := (moved.map (·.cnt)).getD s.cnt
    sL := (moved.map (·.sL)).getD s.sL
    carry := carryNext s.carry raw (rawXfer inp s pl)
    grant := grantNext sel (rawXfer inp s pl && raw.last)
    policy := policyStep s sel
    monReq := monitorNext s.monReq inp.req inp.req.valid (readyTo .req inp s pl) inp.req.last inp.req.params
    monCmp := monitorNext s.monCmp inp.cmp inp.cmp.valid (readyTo .cmp inp s pl) inp.cmp.last inp.cmp.params
    time := s.time + 1
    env := s.env.tail
    reqQ := if inp.req.valid && readyTo .req inp s pl && fromQueue (frameOf s).req then s.reqQ.tail else s.reqQ
    cmpQ := if inp.cmp.valid && readyTo .cmp inp s pl && fromQueue (frameOf s).cmp then s.cmpQ.tail else s.cmpQ
    out := some (outputsOf inp s pl)
    sent := s.sent ++ (moved.map (phyOf s.time)).toList }

/-- A step in which reset is held (R270): every register to its reset value, nothing offered, nothing accepted.
The words already emitted stay emitted; the instance and the environment are not the reset's to change. -/
def resetStep (s : State) : State :=
  { State.resetFor s.cfg with
    time := s.time + 1, env := s.env.tail, reqQ := s.reqQ, cmpQ := s.cmpQ,
    out := some ⟨false, false, none⟩, sent := s.sent }

/-- The whole-step function (R231) under given inputs. A state whose fault is set has no further step but reset
(R250, R261). -/
def cycle (inp : Inputs) (s : State) : Host.Outcome State Fault Refusal :=
  if inp.rst then .next (resetStep s)
  else match s.fault with
    | some v => .fault (.contractViolation v)
    | none => match violationOf s inp with
      | some (c, i) => .next (raise c i s)
      | none => match planOf s (rawOf inp s) with
        | none => .next (raise .firstMisplaced .raw s)
        | some pl => .next (commit inp s pl)

/-! ## Which operation a step runs -/

/-- The operation whose word the selected source offers in this step; none when it offers nothing, or under
reset. -/
def fetch (s : State) : Option Instr :=
  let inp := inputsOf s
  if inp.rst then none
  else match selOf inp s with
    | none => none
    | some .req => if inp.req.valid then some (instrOfReq inp.req) else none
    | some .cmp => if inp.cmp.valid then some (instrOfCmp inp.cmp) else none

/-- The machine at a packet boundary with an empty environment: where `withFetchWord` places a packet. -/
def atBoundary (s : State) : State :=
  { s with st := .header, cnt := 0, grant := .idle, fault := none, monReq := Monitor.fresh,
           monCmp := Monitor.fresh, env := [], reqQ := [], cmpQ := [] }

/-- A packet loaded into its producer's queue: the very next step offers its first word. -/
def loadPacket (k : Packet) (s : State) : State :=
  { atBoundary s with reqQ := packetReqWords s.cfg.D k, cmpQ := packetCmpWords s.cfg.D k }

end Sys2Proof.Machine
end

