-- ==== Sys2Proof/Machine/Completion.lean ====
section
/-! DEFINITION. The two completion kinds (spec/41_completion_formatter.md R146, R147): the step in which a word of
such a packet is on offer on `cmp_in`. -/

namespace Sys2Proof.Machine

/-- `cpl` (R147): `err = 1`. -/
def execCpl (cmpId reqId : BitVec 16) (tag ladr : BitVec 8) (len : BitVec 10) (s : State) :
    Host.Outcome State Fault Refusal :=
  cycle (presentCmp true cmpId reqId tag ladr len (inputsOf s)) s

/-- `cpld` (R146): `err = 0`. -/
def execCpld (cmpId reqId : BitVec 16) (tag ladr : BitVec 8) (len : BitVec 10) (s : State) :
    Host.Outcome State Fault Refusal :=
  cycle (presentCmp false cmpId reqId tag ladr len (inputsOf s)) s

end Sys2Proof.Machine
end

