-- ==== Sys2Proof/Machine/Request.lean ====
section
/-! DEFINITION. The four memory request kinds (spec/40_request_formatter.md R127 to R130): the step in which a
word of such a packet is on offer on `req_in`. -/

namespace Sys2Proof.Machine

/-- `mem_rd32` (R127): `we = 0`, the address's upper half 0. -/
def execMrd32 (adr : BitVec 32) (len : BitVec 10) (reqId : BitVec 16) (tag : BitVec 8) (s : State) :
    Host.Outcome State Fault Refusal :=
  cycle (presentReq false (adr.setWidth 64) len reqId tag (inputsOf s)) s

/-- `mem_wr32` (R128): `we = 1`, the address's upper half 0. -/
def execMwr32 (adr : BitVec 32) (len : BitVec 10) (reqId : BitVec 16) (tag : BitVec 8) (s : State) :
    Host.Outcome State Fault Refusal :=
  cycle (presentReq true (adr.setWidth 64) len reqId tag (inputsOf s)) s

/-- `mem_rd64` (R129): `we = 0`, the address's upper half not 0 (needs `AW = 64`). -/
def execMrd64 (adr : BitVec 64) (len : BitVec 10) (reqId : BitVec 16) (tag : BitVec 8) (s : State) :
    Host.Outcome State Fault Refusal :=
  if carries64 s.cfg adr then cycle (presentReq false adr len reqId tag (inputsOf s)) s
  else .refused .namesNoInput

/-- `mem_wr64` (R130): `we = 1`, the address's upper half not 0 (needs `AW = 64`). -/
def execMwr64 (adr : BitVec 64) (len : BitVec 10) (reqId : BitVec 16) (tag : BitVec 8) (s : State) :
    Host.Outcome State Fault Refusal :=
  if carries64 s.cfg adr then cycle (presentReq true adr len reqId tag (inputsOf s)) s
  else .refused .namesNoInput

end Sys2Proof.Machine
end

