-- ==== Sys2Proof/Machine/Dispatch.lean ====
section
/-! DEFINITION. One arm per operation (spec/opcode_table.json). -/

namespace Sys2Proof.Machine

/-- The step in which the operation's word is on offer on its stream. -/
def exec (i : Instr) (s : State) : Host.Outcome State Fault Refusal :=
  match i with
  | .mrd32 adr len reqId tag => Sys2Proof.Machine.execMrd32 adr len reqId tag s
  | .mwr32 adr len reqId tag => Sys2Proof.Machine.execMwr32 adr len reqId tag s
  | .mrd64 adr len reqId tag => Sys2Proof.Machine.execMrd64 adr len reqId tag s
  | .mwr64 adr len reqId tag => Sys2Proof.Machine.execMwr64 adr len reqId tag s
  | .cpl cmpId reqId tag ladr len => Sys2Proof.Machine.execCpl cmpId reqId tag ladr len s
  | .cpld cmpId reqId tag ladr len => Sys2Proof.Machine.execCpld cmpId reqId tag ladr len s

end Sys2Proof.Machine
end

