-- ==== Sys2Proof/Machine/Step.lean ====
section
/-! DEFINITION. One step of the machine, and how a packet is placed for the next one. -/

namespace Sys2Proof.Machine

/-- One advance of the "single global step signal" (R11). Where the selected source offers a word, the step runs
the operation that word belongs to; else the step is the whole-step function with nothing offered to it
(a gap, an idle step, a flush word, reset). -/
def step (s : State) : Host.Outcome State Fault Refusal :=
  match fetch s with
  | some i => exec i s
  | none => cycle (inputsOf s) s

/-- `s` with the packet that the bit string decodes to loaded for the very next step (log entry 8). A string
that does not decode names no input of the hardware: nothing is loaded. -/
def State.withFetchWord (s : State) (nbits w : Nat) : State :=
  match decodeTablePacket nbits w with
  | some k => loadPacket k s
  | none => atBoundary s

end Sys2Proof.Machine
end

