-- ==== Sys2Proof/Machine/Packet.lean ====
section
/-! DEFINITION. The packet-level function (spec/45_packetizer_top.md R232): what words a whole packet becomes, and
how a consumer reads a list of words back (spec/20_memory.md R56, spec/30_encoding.md R98). -/

namespace Sys2Proof.Machine

/-- The word on `req_in` a request operation is presented with, but for framing and payload. -/
def reqOfInstr : Instr → ReqIn
  | .mrd32 adr len reqId tag => ⟨true, true, true, false, adr.setWidth 64, len, reqId, tag, []⟩
  | .mwr32 adr len reqId tag => ⟨true, true, true, true, adr.setWidth 64, len, reqId, tag, []⟩
  | .mrd64 adr len reqId tag => ⟨true, true, true, false, adr, len, reqId, tag, []⟩
  | .mwr64 adr len reqId tag => ⟨true, true, true, true, adr, len, reqId, tag, []⟩
  | .cpl .. => ReqIn.idle
  | .cpld .. => ReqIn.idle

/-- The word on `cmp_in` a completion operation is presented with, but for framing and payload. -/
def cmpOfInstr : Instr → CmpIn
  | .cpl cmpId reqId tag ladr len => ⟨true, true, true, cmpId, reqId, tag, ladr, len, true, []⟩
  | .cpld cmpId reqId tag ladr len => ⟨true, true, true, cmpId, reqId, tag, ladr, len, false, []⟩
  | .mrd32 .. => CmpIn.idle
  | .mwr32 .. => CmpIn.idle
  | .mrd64 .. => CmpIn.idle
  | .mwr64 .. => CmpIn.idle

/-- The 128-bit raw header the formatter and the encoder make of an operation (R156, R157). -/
def rawHeaderOf (i : Instr) : BitVec 128 :=
  if i.isRequest then encodeReq (formatReq (reqOfInstr i)) else encodeCmp (formatCmp (cmpOfInstr i))

/-- `Header(op)` (R232): dwords 0 to H-1 of the raw header. -/
def headerOf (i : Instr) : List Dword := (List.range i.headerDwords).map (hdr (rawHeaderOf i))

/-- `Payload(op)` (R232). -/
def payloadOf (k : Packet) : List Dword := if k.op.hasData then k.data else []

/-- `Flat(op)` (R232): header then payload, each dword converted once. -/
def flat (e : Endian) (k : Packet) : List Dword := (headerOf k.op ++ payloadOf k).map (conv e)

/-- One slot of `Phys`: dword `n` of the flat sequence, or an empty slot. -/
def physSlot (l : List Dword) (n : Nat) : Slot :=
  match l[n]? with
  | some v => ⟨v, allEnabled⟩
  | none => ⟨0, noneEnabled⟩

/-- `Phys` (R232) of a flat dword sequence: `ceil(T/D)` words. An empty slot's data is shown as 0; what the
hardware puts there is `any`, and `seen` shows it as 0 too. -/
def physWords (d : Nat) (l : List Dword) : List PhyWord :=
  let n := ceilDiv l.length d
  (List.range n).map fun w => ⟨w == 0, w + 1 == n, (List.range d).map fun j => physSlot l (w * d + j)⟩

/-- `Phys(op, D)` (R232) for an instance. -/
def phys (p : Params) (k : Packet) : List PhyWord := physWords p.D (flat p.endian k)

/-- `T`, the dwords of a packet (R232). -/
def totalDwords (k : Packet) : Nat := k.op.headerDwords + k.op.payloadDwords

/-- What a consumer may read of a word: `first`, `last`, the enables, and the data of every slot whose enables are
not all zero (R233, R280). -/
def seen (w : PhyWord) : PhyWord :=
  { w with slots := w.slots.map fun x => if x.be = noneEnabled then ⟨0, noneEnabled⟩ else x }

/-- The flattened dword sequence of a list of words: the dwords of enabled slots, in slot order (R56). -/
def flatten (ws : List PhyWord) : List Dword :=
  ws.flatMap fun w => (w.slots.filter fun x => x.be != noneEnabled).map (·.dat)

/-- The dword sequence R98 decodes, from the words of one packet: flattened, the converter undone (R238). -/
def unswapped (p : Params) (ws : List PhyWord) : List Dword := (flatten ws).map (conv p.endian)

/-- What a consumer decodes from the words of one packet (R98, R238). -/
def decodeWords (p : Params) (ws : List PhyWord) : Except DecodeError (Packet × List Dword) :=
  decodePacket (unswapped p ws)

/-- Can the instance be given this operation? The 64-bit kinds need `AW = 64` and a non-zero upper half (R100,
R129, R130). -/
def admits (p : Params) : Instr → Bool
  | .mrd32 .. => true
  | .mwr32 .. => true
  | .mrd64 adr _ _ _ => carries64 p adr
  | .mwr64 adr _ _ _ => carries64 p adr
  | .cpl .. => true
  | .cpld .. => true

/-- The machine at a packet boundary with lists of packets queued at the two producers and a script for the
environment. -/
def loadPackets (reqs cmps : List Packet) (env : List Frame) (s : State) : State :=
  { atBoundary s with
    reqQ := reqs.flatMap (packetReqWords s.cfg.D), cmpQ := cmps.flatMap (packetCmpWords s.cfg.D), env := env }

end Sys2Proof.Machine
end

