-- ==== Sys2Proof/Safety.lean ====
section
/-! DEFINITION. What counts as a safe run, in the terms the statements use: a quiescent state
(spec/45 R239), a lawful script of the environment (spec/70 R280), and the invariant every step keeps
(spec/10 R22 to R26, spec/44 R195, spec/60 R253, R254). -/

namespace Sys2Proof.Machine

/-- Quiescent (R239). R239's "neither input offers" is read both ways (DESIGN CHOICE, log entry 20): no offer stands
from the step before (the monitors' `offered`, R252), and the step that comes offers nothing. -/
def State.quiescent (s : State) : Prop :=
  s.st = .header ∧ s.cnt = 0 ∧ s.grant = .idle ∧ s.monReq.offered = none ∧ s.monCmp.offered = none ∧
    (inputsOf s).req.valid = false ∧ (inputsOf s).cmp.valid = false ∧ s.fault = none

/-- A producer that takes its words from its queue, with gaps (R52, R280): it drives no signals of its own. -/
def Drive.lawful {ω : Type} : Drive ω → Bool
  | .queue => true
  | .gap => true
  | .signals _ => false

/-- A move of the environment without reset in which both producers work from their queues; the consumer's
`ready` is anything (R280). -/
def Frame.lawful (f : Frame) : Bool := !f.rst && f.req.lawful && f.cmp.lawful

/-- The enables of this hardware are "only ever `0x0` or `0xF` per dword" (R61). -/
def wholeEnables (l : List Slot) : Prop := ∀ x ∈ l, x.be = noneEnabled ∨ x.be = allEnabled

/-- A monitor is in a packet exactly when it has counted a word and holds the packet's side fields (R33, R253,
R254, R256; that it holds none outside a packet is log entry 11's reading). -/
def monitorInv {ω π : Type} (m : Monitor ω π) : Prop :=
  (m.inPacket = false → m.wordsSeen = 0 ∧ m.params = none) ∧
    (m.inPacket = true → 0 < m.wordsSeen ∧ m.params ≠ none)

/-- The grant and the monitors agree (R26, R173): a packet in progress holds the grant, and the grant is held
for a packet in progress or an offer that stands. -/
def grantInv (s : State) : Prop :=
  (s.monReq.inPacket = true → s.grant = .req) ∧
    (s.monCmp.inPacket = true → s.grant = .cmp) ∧
    (s.grant = .req → s.monReq.inPacket = true ∨ s.monReq.offered ≠ none) ∧
    (s.grant = .cmp → s.monCmp.inPacket = true ∨ s.monCmp.offered ≠ none)

/-- What the inserter's phase says of the packet in progress (R190 to R195). -/
def phaseInv (s : State) : Prop :=
  match s.st with
  | .header =>
    s.monReq.inPacket = false ∧ s.monCmp.inPacket = false ∧ (cntOf s.cfg.D s.cnt ≠ 0 → s.grant ≠ .idle)
  | .data =>
    s.cnt = 0 ∧
      if sLOf s.cfg.D s.sL = 0 then s.grant ≠ .idle
      else if s.carry.last then
        s.monReq.inPacket = false ∧ s.monCmp.inPacket = false ∧
          ∃ x ∈ s.carry.slots.drop (sLOf s.cfg.D s.sL), x.be ≠ noneEnabled
      else s.monReq.inPacket = true ∨ s.monCmp.inPacket = true

/-- The registers hold values of their ranges (R20, R22, R24, R25, R61): the carry register has `D` slots and `cnt`
counts only where a header spans two words. In `DATA`, `sL` is the shift of a header size, and where it is not 0 the
carry register holds whole enables. Of `sL` and the enables in `HEADER`, where nothing reads them, nothing is said, as
the spec gives them no value at reset (R34). -/
def rangeInv (s : State) : Prop :=
  s.carry.slots.length = s.cfg.D ∧ (s.cfg.D ≠ 2 → s.cnt = 0) ∧
    (s.st = .data →
      (s.sL.toNat = shiftOf s.cfg.D 3 ∨ s.sL.toNat = shiftOf s.cfg.D 4) ∧
        (sLOf s.cfg.D s.sL ≠ 0 → wholeEnables s.carry.slots))

/-- Every word emitted has `D` slots with whole enables (R54, R61). -/
def sentInv (s : State) : Prop := ∀ w ∈ s.sent, w.slots.length = s.cfg.D ∧ wholeEnables w.slots

/-- The invariant that every step keeps in which no contract violation is recorded. -/
def State.Inv (s : State) : Prop :=
  monitorInv s.monReq ∧ monitorInv s.monCmp ∧ grantInv s ∧ phaseInv s ∧ rangeInv s ∧ sentInv s

end Sys2Proof.Machine
end

