-- ==== Sys2Proof/Certificates/Slice0/Obligations.lean ====
section
/-! DEFINITION. The statements for the provers. Each docstring names the rule of spec/ it formalises. The helpers of
the namespace `Sys2Proof.Claims` say a rule's own words once, over the syntax-level encoder of Decode.lean. -/

namespace Sys2Proof.Claims

open Sys2Proof.Machine

/-- The inputs of the step with the operation's side fields on its stream. -/
def presented (i : Instr) (s : State) : Inputs :=
  match i with
  | .mrd32 adr len reqId tag => presentReq false (adr.setWidth 64) len reqId tag (inputsOf s)
  | .mwr32 adr len reqId tag => presentReq true (adr.setWidth 64) len reqId tag (inputsOf s)
  | .mrd64 adr len reqId tag => presentReq false adr len reqId tag (inputsOf s)
  | .mwr64 adr len reqId tag => presentReq true adr len reqId tag (inputsOf s)
  | .cpl cmpId reqId tag ladr len => presentCmp true cmpId reqId tag ladr len (inputsOf s)
  | .cpld cmpId reqId tag ladr len => presentCmp false cmpId reqId tag ladr len (inputsOf s)

/-- The stream of an operation (R99). -/
def sourceOf (i : Instr) : Source := if i.isRequest then .req else .cmp

/-- `first` of the word on offer on the operation's stream. -/
def isFirst (i : Instr) (s : State) : Bool :=
  if i.isRequest then (inputsOf s).req.first else (inputsOf s).cmp.first

/-- `last` of that word. -/
def isLast (i : Instr) (s : State) : Bool :=
  if i.isRequest then (inputsOf s).req.last else (inputsOf s).cmp.last

/-- `dat` of that word. -/
def datOf (i : Instr) (s : State) : List Dword :=
  if i.isRequest then (inputsOf s).req.dat else (inputsOf s).cmp.dat

/-- The payload slots of that word: R125 and R144 in the words of the operation. -/
def payload (i : Instr) (s : State) : List Slot :=
  let d := s.cfg.D
  let nv := if !i.hasData then 0 else if !isLast i s then d else if i.len.toNat = 0 then 0
    else (i.len.toNat - 1) % d + 1
  (payloadSlots d nv (datOf i s)).map fun x => ⟨conv s.cfg.endian x.dat, convBe s.cfg.endian x.be⟩

/-- The header dwords of physical word `c`, converted and enabled (R188). -/
def headerPart (i : Instr) (s : State) (c : Nat) : List Slot :=
  (((encode i).drop (s.cfg.D * c)).take s.cfg.D).map fun v => ⟨conv s.cfg.endian v, allEnabled⟩

/-- The `ready` a source saw in the step that led to `t`. -/
def readySeen (x : Source) (t : State) : Bool :=
  match t.out with
  | none => false
  | some o => match x with
    | .req => o.reqReady
    | .cmp => o.cmpReady

/-- The conditions under which an operation runs in a step: no fault, no reset, an operand the instance can be
given, no contract violation, and the Arbiter selects the operation's stream. -/
def Running (i : Instr) (s : State) : Prop :=
  s.fault = none ∧ (inputsOf s).rst = false ∧ admits s.cfg i = true ∧
    violationOf s (presented i s) = none ∧ selOf (presented i s) s = some (sourceOf i)

/-- The step in `HEADER` for a kind without data: the next word of the TLP, which is the whole TLP unless `D = 2`;
with its last word the input word is taken and the grant released. -/
def EmitsHeaderOnlyTlp (i : Instr) : Prop :=
  ∀ s : State, Running i s → isFirst i s = true → s.st = .header → (inputsOf s).ready = true →
    ∃ t, exec i s = .next t ∧ t.fault = none ∧
      t.sent.map seen =
        s.sent.map seen ++ ((phys s.cfg ⟨i, []⟩).drop (cntOf s.cfg.D s.cnt)).take 1 ∧
      t.st = .header ∧ t.sL = s.sL ∧
      if cntOf s.cfg.D s.cnt + 1 < ceilDiv i.headerDwords s.cfg.D then
        t.cnt = s.cnt + 1 ∧ t.grant = grantOf (sourceOf i) ∧ readySeen (sourceOf i) t = false ∧
          t.carry = s.carry
      else t.cnt = 0 ∧ t.grant = .idle ∧ readySeen (sourceOf i) t = true ∧
          t.carry = ⟨payload i s, isLast i s⟩

/-- The step in `HEADER` for any kind (R191, R192): header word `c` leaves, filled up with the head of the payload
word when it is the last header word; the registers take the values of those rules. -/
def EmitsHeaderWord (i : Instr) : Prop :=
  ∀ s : State, Running i s → isFirst i s = true → s.st = .header → (inputsOf s).ready = true →
    ∃ t, exec i s = .next t ∧ t.fault = none ∧
      (let d := s.cfg.D
       let c := cntOf d s.cnt
       let hw := ceilDiv i.headerDwords d
       let r := i.headerDwords - d * (hw - 1)
       let sh := d - r
       let fit := isLast i s && ((payload i s).drop sh).all fun x => x.be == noneEnabled
       if c + 1 < hw then
         t.sent.map seen = s.sent.map seen ++ [seen ⟨c == 0, false, headerPart i s c⟩] ∧
         t.st = .header ∧ t.cnt = s.cnt + 1 ∧ t.sL = s.sL ∧ t.carry = s.carry ∧
         t.grant = grantOf (sourceOf i) ∧ readySeen (sourceOf i) t = false
       else
         t.sent.map seen =
           s.sent.map seen ++ [seen ⟨c == 0, fit, headerPart i s c ++ (payload i s).take sh⟩] ∧
         t.cnt = 0 ∧ t.st = (if fit then .header else .data) ∧
         t.sL = (if fit then s.sL else BitVec.ofNat 4 sh) ∧
         readySeen (sourceOf i) t = (decide (0 < sh) || fit) ∧
         t.carry = (if 0 < sh ∨ fit then ⟨payload i s, isLast i s⟩ else s.carry) ∧
         t.grant = (if (0 < sh ∨ fit) ∧ isLast i s then .idle else grantOf (sourceOf i)))

/-- Which violations hold for a word on a stream: R252 to R257, one by one. -/
def holds {ω π : Type} (m : Monitor ω π) (w : ω) (valid first last : Bool) (side : π) (need : Nat)
    (zeroLen noData : Bool) : Code → Prop
  | .offerRetracted => ∃ o, m.offered = some o ∧ (valid = false ∨ w ≠ o)
  | .firstMisplaced => valid = true ∧ first ≠ !m.inPacket
  | .lastMisplaced => valid = true ∧ last ≠ decide (m.wordsSeen + 1 = need)
  | .zeroLengthRequest => valid = true ∧ zeroLen = true
  | .paramsChanged => valid = true ∧ m.inPacket = true ∧ m.params ≠ some side
  | .multiWordNoData => valid = true ∧ noData = true ∧ ¬ (first = true ∧ last = true)

/-- R258 b: what a check finds is right. It finds nothing exactly when no violation holds; what it finds holds, is the
lowest code that holds, except that `MultiWordNoData` stands for `LastMisplaced` when both hold. -/
def RightCode (found : Option Code) (h : Code → Prop) : Prop :=
  (found = none ↔ ∀ c, ¬ h c) ∧
  ∀ c, found = some c →
    h c ∧
    (c ≠ .multiWordNoData → (∀ c', h c' → c.number ≤ c'.number) ∧ (c = .lastMisplaced → ¬ h .multiWordNoData)) ∧
    (c = .multiWordNoData → ¬ h .offerRetracted ∧ ¬ h .firstMisplaced ∧
      (h .lastMisplaced ∨ ¬ h .zeroLengthRequest ∧ ¬ h .paramsChanged))

/-- A step records a violation (R250, R251): its code, the stream and the step, in a next state that shows no outputs
(log entry 9). -/
def Records (c : Code) (x : StreamId) (s : State) : Prop :=
  ∃ t, step s = .next t ∧ t.fault = some ⟨c, x, s.time⟩ ∧ t.out = none

/-- Two next states that show the consumer and the producers the same and have the same sequencing state. -/
def SameRun (t t' : State) : Prop :=
  t'.fault = none ∧ t'.sent.map seen = t.sent.map seen ∧
    (t'.out.bind (·.phy)).map seen = (t.out.bind (·.phy)).map seen ∧
    readySeen .req t' = readySeen .req t ∧ readySeen .cmp t' = readySeen .cmp t ∧
    t'.st = t.st ∧ t'.cnt = t.cnt ∧ t'.sL = t.sL ∧ t'.grant = t.grant ∧ t'.policy = t.policy

/-- Every header field R98 decodes, as the rules give them for an operation: R122 for the enables, R142 and R143 for
`status` and `byte_count`, R148 for `lower_address`. -/
def emittedFields : Instr → HeaderFields
  | .mrd32 adr len reqId tag => .mrd32 ⟨len, reqId, tag, if 1 < len.toNat then 0xF#4 else 0x0#4, 0xF#4, 0#32 ++ adr⟩
  | .mwr32 adr len reqId tag => .mwr32 ⟨len, reqId, tag, if 1 < len.toNat then 0xF#4 else 0x0#4, 0xF#4, 0#32 ++ adr⟩
  | .mrd64 adr len reqId tag => .mrd64 ⟨len, reqId, tag, if 1 < len.toNat then 0xF#4 else 0x0#4, 0xF#4, adr⟩
  | .mwr64 adr len reqId tag => .mwr64 ⟨len, reqId, tag, if 1 < len.toNat then 0xF#4 else 0x0#4, 0xF#4, adr⟩
  | .cpl cmpId reqId tag ladr len =>
    .cpl ⟨len, cmpId, 0b001#3, BitVec.ofNat 12 (4 * len.toNat), reqId, tag, ladr.extractLsb' 0 7⟩
  | .cpld cmpId reqId tag ladr len =>
    .cpld ⟨len, cmpId, 0b000#3, BitVec.ofNat 12 (4 * len.toNat), reqId, tag, ladr.extractLsb' 0 7⟩

/-- R98: how many payload dwords follow a decoded header. -/
def payloadAfter : HeaderFields → Nat
  | .mrd32 _ => 0
  | .mwr32 f => f.length.toNat
  | .mrd64 _ => 0
  | .mwr64 f => f.length.toNat
  | .cpl _ => 0
  | .cpld f => f.length.toNat

/-- Every packet of the list is well formed, can be given to the instance, and goes to the named stream. -/
def Loadable (p : Params) (isReq : Bool) (ks : List Packet) : Prop :=
  ∀ k ∈ ks, k.wellFormed = true ∧ admits p k.op = true ∧ k.op.isRequest = isReq

/-- The output words of a list of packets. -/
def physAll (p : Params) (ks : List Packet) : List PhyWord := ks.flatMap (phys p)

end Sys2Proof.Claims

open Sys2Proof Sys2Proof.Machine Sys2Proof.Claims

/-! ## Encoding -/

/-- R98, R86 to R92: header words written out in spec/95 (V-RF 1, 3, 5, 6; V-CF 1, 3) decode to their operations;
the payload comes after. -/
def Obligations.WrittenOutHeadersDecode : Prop :=
  decode [0x00000001#32, 0x0100050F#32, 0x00001000#32] = .ok (.mrd32 0x1000#32 1#10 0x0100#16 5#8, []) ∧
  decode [0x40000001#32, 0x0100010F#32, 0x00002000#32, 0xDDDD0000#32] =
    .ok (.mwr32 0x2000#32 1#10 0x0100#16 1#8, [0xDDDD0000#32]) ∧
  decode [0x20000001#32, 0x0100090F#32, 0x00000001#32, 0x00000000#32] =
    .ok (.mrd64 0x100000000#64 1#10 0x0100#16 9#8, []) ∧
  decode [0x60000002#32, 0x010005FF#32, 0x00001000#32, 0x00001000#32, 0xAAAAAAAA#32, 0xBBBBBBBB#32] =
    .ok (.mwr64 0x100000001000#64 2#10 0x0100#16 5#8, [0xAAAAAAAA#32, 0xBBBBBBBB#32]) ∧
  decode [0x0A000000#32, 0x02002000#32, 0x01000900#32] =
    .ok (.cpl 0x0200#16 0x0100#16 9#8 0x00#8 0#10, []) ∧
  decode [0x4A000001#32, 0x02000004#32, 0x01000744#32] =
    .ok (.cpld 0x0200#16 0x0100#16 7#8 0x44#8 1#10, [])

/-- R98, R238: decoding an encoded operation gives it back, whatever follows, but for bit 7 of `lower_address`; and
every other header field R98 decodes (`last_be`, `first_be`, `status`, `byte_count`) is what the rules give it. -/
def Obligations.DecodeOfEncodeIsTheOperation : Prop :=
  ∀ (i : Instr) (rest : List Dword), decode (encode i ++ rest) = .ok (onWire i, rest) ∧
    decodeHeader (encode i ++ rest) = .ok (emittedFields i, rest)

/-- R86 to R93, R97, R122, R143: a header whose constant and derived fields are as the rules say is the encoding of
what it decodes to, so each such header has one meaning. -/
def Obligations.EncodeOfDecodeIsTheHeader : Prop :=
  ∀ (ds rest : List Dword) (i : Instr), canonicalHeader ds = true → decode ds = .ok (i, rest) →
    encode i ++ rest = ds

/-- R97: every `DW0[30:24]` but the six of R92 is refused by name, with the `fmt` and `type` found there, and those
six are not. -/
def Obligations.OtherKindCodesAreRefused : Prop :=
  ∀ (d0 d1 d2 d3 : Dword) (rest : List Dword),
    (decode (d0 :: d1 :: d2 :: d3 :: rest) = .error (.unknownKind (d0.extractLsb' 29 2) (d0.extractLsb' 24 5)) ↔
      d0.extractLsb' 24 7 ∉ [0x00#7, 0x40#7, 0x20#7, 0x60#7, 0x0A#7, 0x4A#7])

/-- R98: every field the decoder reads, from the bits of the dwords the rule names, for each of the six kind codes;
then the payload, `length` dwords for the kinds with data. -/
def Obligations.DecodedFieldsAreAsWritten : Prop :=
  ∀ (d0 d1 d2 d3 : Dword) (rest : List Dword),
    let code := d0.extractLsb' 24 7
    let req (address : BitVec 64) : ReqFields :=
      ⟨d0.extractLsb' 0 10, d1.extractLsb' 16 16, d1.extractLsb' 8 8, d1.extractLsb' 4 4, d1.extractLsb' 0 4, address⟩
    let cmp : CmpFields :=
      ⟨d0.extractLsb' 0 10, d1.extractLsb' 16 16, d1.extractLsb' 13 3, d1.extractLsb' 0 12, d2.extractLsb' 16 16,
        d2.extractLsb' 8 8, d2.extractLsb' 0 7⟩
    (code = 0x00#7 → decodeHeader (d0 :: d1 :: d2 :: rest) = .ok (.mrd32 (req (0#32 ++ d2)), rest)) ∧
    (code = 0x40#7 → decodeHeader (d0 :: d1 :: d2 :: rest) = .ok (.mwr32 (req (0#32 ++ d2)), rest)) ∧
    (code = 0x20#7 → decodeHeader (d0 :: d1 :: d2 :: d3 :: rest) = .ok (.mrd64 (req (d2 ++ d3)), rest)) ∧
    (code = 0x60#7 → decodeHeader (d0 :: d1 :: d2 :: d3 :: rest) = .ok (.mwr64 (req (d2 ++ d3)), rest)) ∧
    (code = 0x0A#7 → decodeHeader (d0 :: d1 :: d2 :: rest) = .ok (.cpl cmp, rest)) ∧
    (code = 0x4A#7 → decodeHeader (d0 :: d1 :: d2 :: rest) = .ok (.cpld cmp, rest)) ∧
    ∀ (ds after : List Dword) (h : HeaderFields), decodeHeader ds = .ok (h, after) →
      payloadAfter h ≤ after.length →
        decodeTlp ds = .ok (⟨h, after.take (payloadAfter h)⟩, after.drop (payloadAfter h))

/-- R127 to R130 with R122: the raw header the Request Formatter and the Header Encoder make of each request kind,
bit for bit as the rules write it. -/
def Obligations.RequestHeadersAreAsWritten : Prop :=
  ∀ (a : BitVec 32) (a64 : BitVec 64) (len : BitVec 10) (reqId : BitVec 16) (tag : BitVec 8),
    let lastBe : BitVec 4 := if 1 < len.toNat then 0xF#4 else 0x0#4
    let dw1 : BitVec 32 := reqId ++ tag ++ lastBe ++ 0xF#4
    rawHeaderOf (.mrd32 a len reqId tag) =
      0#32 ++ a ++ dw1 ++ (0#1 ++ 0b00#2 ++ 0b00000#5 ++ 0#14 ++ len : BitVec 32) ∧
    rawHeaderOf (.mwr32 a len reqId tag) =
      0#32 ++ a ++ dw1 ++ (0#1 ++ 0b10#2 ++ 0b00000#5 ++ 0#14 ++ len : BitVec 32) ∧
    (a64.extractLsb' 32 32 ≠ 0#32 →
      rawHeaderOf (.mrd64 a64 len reqId tag) =
        a64.extractLsb' 0 32 ++ a64.extractLsb' 32 32 ++ dw1 ++
          (0#1 ++ 0b01#2 ++ 0b00000#5 ++ 0#14 ++ len : BitVec 32) ∧
      rawHeaderOf (.mwr64 a64 len reqId tag) =
        a64.extractLsb' 0 32 ++ a64.extractLsb' 32 32 ++ dw1 ++
          (0#1 ++ 0b11#2 ++ 0b00000#5 ++ 0#14 ++ len : BitVec 32))

/-- R146, R147 with R143, R148: the raw header of each completion kind, bit for bit as the rules write it. -/
def Obligations.CompletionHeadersAreAsWritten : Prop :=
  ∀ (cmpId reqId : BitVec 16) (tag ladr : BitVec 8) (len : BitVec 10),
    rawHeaderOf (.cpld cmpId reqId tag ladr len) =
      0#32 ++ (reqId ++ tag ++ 0#1 ++ ladr.extractLsb' 0 7 : BitVec 32) ++
        (cmpId ++ 0b000#3 ++ 0#1 ++ BitVec.ofNat 12 (4 * len.toNat) : BitVec 32) ++
        (0#1 ++ 0b10#2 ++ 0b01010#5 ++ 0#14 ++ len : BitVec 32) ∧
    rawHeaderOf (.cpl cmpId reqId tag ladr len) =
      0#32 ++ (reqId ++ tag ++ 0#1 ++ ladr.extractLsb' 0 7 : BitVec 32) ++
        (cmpId ++ 0b001#3 ++ 0#1 ++ BitVec.ofNat 12 (4 * len.toNat) : BitVec 32) ++
        (0#1 ++ 0b00#2 ++ 0b01010#5 ++ 0#14 ++ len : BitVec 32)

/-- R232, R95, R96: the header dwords the hardware makes of a well-formed operation are those the encoder of the
opcode table gives. -/
def Obligations.HardwareHeaderIsTheEncoding : Prop :=
  ∀ i : Instr, i.wellFormed = true → headerOf i = encode i

/-! ## Formatters and converter -/

/-- R143: `byte_count` is `4 * len`, for every `len`; the 12-bit field drops no bit. -/
def Obligations.ByteCountIsFourTimesLength : Prop :=
  ∀ c : CmpIn, (formatCmp c).byteCount.toNat = 4 * c.len.toNat

/-- R123: the kind of a request word, from `we` and the upper half of the address the port carries; with `AW = 32`
only the two 32-bit kinds occur. -/
def Obligations.KindSelection : Prop :=
  ∀ (p : Params) (r : ReqIn),
    let q := r.onPort p
    let hi : BitVec 32 := if p.aw = .a64 then r.adr.extractLsb' 32 32 else 0#32
    let lo : BitVec 32 := r.adr.extractLsb' 0 32
    (formatReq q).fmt = BitVec.ofBool r.we ++ BitVec.ofBool (decide (hi ≠ 0#32)) ∧
    instrOfReq q =
      if hi ≠ 0#32 then
        (if r.we then .mwr64 r.adr r.len r.reqId r.tag else .mrd64 r.adr r.len r.reqId r.tag)
      else (if r.we then .mwr32 lo r.len r.reqId r.tag else .mrd32 lo r.len r.reqId r.tag)

/-- R122: the two byte-enable fields of a request's header, for reads and writes alike. -/
def Obligations.RequestEnableFields : Prop :=
  ∀ r : ReqIn, (formatReq r).firstBe = 0xF#4 ∧
    (formatReq r).lastBe = if 1 < r.len.toNat then 0xF#4 else 0x0#4

/-- R124: the two halves of the address in `tlp_req.address`, swapped when the address is a 64-bit one. -/
def Obligations.AddressHalvesAreSwapped : Prop :=
  ∀ r : ReqIn,
    let a := (formatReq r).address
    (r.adr.extractLsb' 32 32 ≠ 0#32 →
      a.extractLsb' 0 32 = r.adr.extractLsb' 32 32 ∧ a.extractLsb' 32 32 = r.adr.extractLsb' 0 32) ∧
    (r.adr.extractLsb' 32 32 = 0#32 →
      a.extractLsb' 0 32 = r.adr.extractLsb' 0 32 ∧ a.extractLsb' 32 32 = 0#32)

/-- R125, R144, R69, R236: over the words of a well-formed packet, the enabled slots hold exactly its payload
dwords, in order, converted once; a kind without data enables none. -/
def Obligations.EnabledSlotsAreThePayload : Prop :=
  ∀ (p : Params) (k : Packet), k.wellFormed = true →
    (((packetReqWords p.D k).flatMap fun w => (rawReq p w).slots) ++
        ((packetCmpWords p.D k).flatMap fun w => (rawCmp p w).slots)).filter (fun x => x.be != noneEnabled) =
      (payloadOf k).map fun v => ⟨conv p.endian v, allEnabled⟩

/-- R158, R163: the converter is its own inverse, on dwords and on enables. -/
def Obligations.ConverterIsAnInvolution : Prop :=
  ∀ (e : Endian) (v : Dword) (n : Nibble), conv e (conv e v) = v ∧ convBe e (convBe e n) = n

/-- R161, R51: an enable moves with its byte: with `Swap`, byte `b` of a converted slot is byte `3-b` of the slot
and is enabled exactly when that one was. -/
def Obligations.EnablesMoveWithTheirBytes : Prop :=
  ∀ (x : Slot) (b : Nat), b < 4 →
    (convSlot .swap x).dat.extractLsb' (8 * b) 8 = x.dat.extractLsb' (8 * (3 - b)) 8 ∧
    (convSlot .swap x).be.getLsbD b = x.be.getLsbD (3 - b)

/-- R9, R55: the accessors of R9 on the bits of a word read its slots and their bytes. -/
def Obligations.AccessorsReadTheSlots : Prop :=
  ∀ (slots : List Slot) (j b : Nat) (h : j < slots.length), slots.length ≤ 16 → b < 4 →
    dw (datBits slots) j = slots[j].dat ∧ nib (beBits slots) j = slots[j].be ∧
    byteLane (datBits slots) (4 * j + b) = slots[j].dat.extractLsb' (8 * b) 8

/-! ## The Arbiter -/

/-- R171: the selection of a step, in a state without a recorded violation (R250). -/
def Obligations.ArbiterSelection : Prop :=
  ∀ (s : State) (rv cv : Bool), s.fault = none →
    (s.grant = .req → select s rv cv = some .req) ∧
    (s.grant = .cmp → select s rv cv = some .cmp) ∧
    (s.grant = .idle →
      (rv = false → cv = false → select s rv cv = none) ∧
      (rv = true → cv = false → select s rv cv = some .req) ∧
      (rv = false → cv = true → select s rv cv = some .cmp) ∧
      (rv = true → cv = true → select s rv cv = some (policyChoice s.cfg.policy s.policy)))

/-- R175: the three named policies, and what changes their state. -/
def Obligations.NamedPolicies : Prop :=
  ∀ (q : PolicyState) (x : Source),
    policyChoice .prioReq q = .req ∧ policyChoice .prioCmp q = .cmp ∧
    policyChoice .alternate q ≠ q.lastg ∧
    (policyNext .alternate q x).lastg = x ∧ policyNext .prioReq q x = q ∧ policyNext .prioCmp q x = q

/-- R173, R175: the grant after a step, from the selection, the transfer on `raw` and `raw.last`; and the policy's
state, which a selection from `Idle` updates and nothing else. -/
def Obligations.GrantUpdate : Prop :=
  ∀ s t : State, step s = .next t → (inputsOf s).rst = false → t.fault = none →
    let inp := inputsOf s
    let sel := selOf inp s
    let moved := (rawOf inp s).valid && ((readySeen .req t && sel == some .req) || (readySeen .cmp t && sel == some .cmp))
    t.grant =
      (match sel with
        | none => .idle
        | some x => if moved && (rawOf inp s).last then .idle else grantOf x) ∧
    t.policy =
      (match sel with
        | none => s.policy
        | some x => if s.grant = .idle then policyNext s.cfg.policy s.policy x else s.policy)

/-- R174, R172: while a source holds the grant, only it is selected, the other sees `ready = 0` and keeps its queue
and its place in its packet, and the grant is given up only with the transfer of the source's `last` word. -/
def Obligations.GrantIsPacketAtomic : Prop :=
  ∀ s t : State, step s = .next t → (inputsOf s).rst = false → t.fault = none →
    (s.grant = .req →
      selOf (inputsOf s) s = some .req ∧ readySeen .cmp t = false ∧ t.cmpQ = s.cmpQ ∧
      t.monCmp.inPacket = s.monCmp.inPacket ∧ t.monCmp.wordsSeen = s.monCmp.wordsSeen ∧
      (t.grant = .req ∨ t.grant = .idle ∧ (inputsOf s).req.valid = true ∧ readySeen .req t = true ∧
        (inputsOf s).req.last = true)) ∧
    (s.grant = .cmp →
      selOf (inputsOf s) s = some .cmp ∧ readySeen .req t = false ∧ t.reqQ = s.reqQ ∧
      t.monReq.inPacket = s.monReq.inPacket ∧ t.monReq.wordsSeen = s.monReq.wordsSeen ∧
      (t.grant = .cmp ∨ t.grant = .idle ∧ (inputsOf s).cmp.valid = true ∧ readySeen .cmp t = true ∧
        (inputsOf s).cmp.last = true))

/-! ## The Header Inserter and the operations -/

/-- R186: the derived constants of the eight variants, as its table lists them. -/
def Obligations.DerivedConstantsTable : Prop :=
  (List.map (fun v => (headerWords v.1 v.2, headerRest v.1 v.2, shiftOf v.1 v.2))
      [(2, 3), (2, 4), (4, 3), (4, 4), (8, 3), (8, 4), (16, 3), (16, 4)]) =
    [(2, 1, 1), (2, 2, 0), (1, 3, 1), (1, 4, 0), (1, 3, 5), (1, 4, 4), (1, 3, 13), (1, 4, 12)]

/-- R127, R129 with R192: the read requests `MRD32` and `MRD64` emit their TLP. -/
def Obligations.ReadRequestsEmitTheirTlp : Prop :=
  (∀ adr len reqId tag, EmitsHeaderOnlyTlp (.mrd32 adr len reqId tag)) ∧
  (∀ adr len reqId tag, EmitsHeaderOnlyTlp (.mrd64 adr len reqId tag))

/-- R147, R246: the error completion `CPL` emits its TLP, without payload and without a fault. -/
def Obligations.ErrorCompletionEmitsItsTlp : Prop :=
  ∀ cmpId reqId tag ladr len, EmitsHeaderOnlyTlp (.cpl cmpId reqId tag ladr len)

/-- R128, R130 with R191, R192: the write requests `MWR32` and `MWR64` emit their header words, the last one filled
up with the head of the payload. -/
def Obligations.WriteRequestsEmitTheirHeaderWords : Prop :=
  (∀ adr len reqId tag, EmitsHeaderWord (.mwr32 adr len reqId tag)) ∧
  (∀ adr len reqId tag, EmitsHeaderWord (.mwr64 adr len reqId tag))

/-- R146 with R191, R192: the completion with data `CPLD` emits its header words. -/
def Obligations.DataCompletionEmitsItsHeaderWords : Prop :=
  ∀ cmpId reqId tag ladr len, EmitsHeaderWord (.cpld cmpId reqId tag ladr len)

/-- R100, decision D16: a 64-bit request whose upper address half is 0, or on an instance with `AW = 32`, names no
input the hardware can be given, and is refused by that name. -/
def Obligations.IllFormed64BitRequestsAreRefused : Prop :=
  ∀ (s : State) (adr : BitVec 64) (len : BitVec 10) (reqId : BitVec 16) (tag : BitVec 8),
    (s.cfg.aw = .a32 ∨ adr.extractLsb' 32 32 = 0#32) →
      exec (.mrd64 adr len reqId tag) s = .refused .namesNoInput ∧
      exec (.mwr64 adr len reqId tag) s = .refused .namesNoInput

/-- R193: in `DATA` with `sL = 0` a word of any operation passes through. -/
def Obligations.PassThroughWord : Prop :=
  ∀ (i : Instr) (s : State), Running i s → s.st = .data → sLOf s.cfg.D s.sL = 0 → (inputsOf s).ready = true →
    ∃ t, exec i s = .next t ∧ t.fault = none ∧
      t.sent.map seen = s.sent.map seen ++ [seen ⟨false, isLast i s, payload i s⟩] ∧
      t.st = (if isLast i s then .header else .data) ∧ t.cnt = s.cnt ∧ t.sL = s.sL ∧
      t.carry = ⟨payload i s, isLast i s⟩ ∧ readySeen (sourceOf i) t = true ∧
      t.grant = (if isLast i s then .idle else grantOf (sourceOf i))

/-- R194: in `DATA` with `sL > 0` and a carried word that is not the packet's last, a word of any operation leaves
behind the carried dwords; where nothing is left over, the packet ends with it. -/
def Obligations.SlidingWindowWord : Prop :=
  ∀ (i : Instr) (s : State), Running i s → isFirst i s = false → s.st = .data → sLOf s.cfg.D s.sL ≠ 0 →
    s.carry.last = false → s.carry.slots.length = s.cfg.D → (inputsOf s).ready = true →
    ∃ t, exec i s = .next t ∧ t.fault = none ∧
      (let sh := sLOf s.cfg.D s.sL
       let fit := isLast i s && ((payload i s).drop sh).all fun x => x.be == noneEnabled
       t.sent.map seen =
         s.sent.map seen ++ [seen ⟨false, fit, s.carry.slots.drop sh ++ (payload i s).take sh⟩] ∧
       t.st = (if fit then .header else .data)) ∧
      t.cnt = s.cnt ∧ t.sL = s.sL ∧ t.carry = ⟨payload i s, isLast i s⟩ ∧
      readySeen (sourceOf i) t = true ∧
      t.grant = (if isLast i s then .idle else grantOf (sourceOf i))

/-- R195: in `DATA` with `sL > 0` and the packet's last word carried, the flush word leaves whatever the inputs
offer; nothing is accepted, and the inserter is ready for the next packet. -/
def Obligations.FlushWord : Prop :=
  ∀ s : State, s.fault = none → (inputsOf s).rst = false → violationOf s (inputsOf s) = none →
    s.st = .data → sLOf s.cfg.D s.sL ≠ 0 → s.carry.last = true → s.carry.slots.length = s.cfg.D →
    ∃ t, step s = .next t ∧ t.fault = none ∧ readySeen .req t = false ∧ readySeen .cmp t = false ∧
      t.carry = s.carry ∧ t.reqQ = s.reqQ ∧ t.cmpQ = s.cmpQ ∧
      (let w : PhyWord := ⟨false, true, s.carry.slots.drop (sLOf s.cfg.D s.sL) ++
          List.replicate (sLOf s.cfg.D s.sL) ⟨0, noneEnabled⟩⟩
       (t.out.bind (·.phy)).map seen = some (seen w) ∧
       ((inputsOf s).ready = true → t.st = .header ∧ t.sent.map seen = s.sent.map seen ++ [seen w]) ∧
       ((inputsOf s).ready = false → t.st = .data ∧ t.sent = s.sent))

/-- R195: under the invariant, and without a recorded violation (R250), a flush word holds at least one dword. -/
def Obligations.FlushWordIsNotEmpty : Prop :=
  ∀ s : State, s.Inv → s.fault = none → s.st = .data → sLOf s.cfg.D s.sL ≠ 0 → s.carry.last = true →
    ∃ x ∈ flush s.cfg.D (sLOf s.cfg.D s.sL) s.carry, x.be = allEnabled

/-- R198, R23, R24, R25: a step without a transfer on `phy_out`, in which no contract violation is recorded (R250),
changes no register of the inserter and emits nothing. -/
def Obligations.NoTransferNoChange : Prop :=
  ∀ s t : State, step s = .next t → (inputsOf s).rst = false → t.fault = none →
    ((inputsOf s).ready = false ∨ (t.out.bind (·.phy)) = none) →
    t.st = s.st ∧ t.cnt = s.cnt ∧ t.sL = s.sL ∧ t.carry = s.carry ∧ t.sent = s.sent

/-- R198, R52: an offered output word does not change while it waits, as far as a consumer may read it. -/
def Obligations.OfferedWordWaitsUnchanged : Prop :=
  ∀ (s t u : State) (w : PhyWord), step s = .next t → step t = .next u → (inputsOf s).rst = false →
    (inputsOf t).rst = false → u.fault = none → (inputsOf s).ready = false →
    t.out.bind (·.phy) = some w → (u.out.bind (·.phy)).map seen = some (seen w)

/-- R196: `o.first` is 1 exactly on header word 0. -/
def Obligations.FirstMarksHeaderWordZero : Prop :=
  ∀ (s t : State) (w : PhyWord), step s = .next t → t.fault = none → t.out.bind (·.phy) = some w →
    (w.first = true ↔ s.st = .header ∧ cntOf s.cfg.D s.cnt = 0)

/-- R23: the initial state and the transitions of `st`. Each is taken with the transfer of an output word: `DATA`
and `HEADER` go to `HEADER` with `o.last = 1`, in `HEADER` only on the last header word; with `o.last = 0`, `DATA`
stays, and `HEADER` stays on a header word that is not the last one and goes to `DATA` on the last one. Without a
transfer `st` does not change. The premise `t.fault = none` is R250's: nothing is claimed of a step in which a
contract violation is recorded. -/
def Obligations.PhaseTransitions : Prop :=
  (∀ p : Params, (State.resetFor p).st = .header) ∧
  ∀ s t : State, step s = .next t → (inputsOf s).rst = false → t.fault = none →
    (((inputsOf s).ready = false ∨ t.out.bind (·.phy) = none) → t.st = s.st) ∧
    ∀ w : PhyWord, t.out.bind (·.phy) = some w → (inputsOf s).ready = true →
      (w.last = true → t.st = .header ∧
        (s.st = .header →
          headerWords s.cfg.D (headerSize (rawOf (inputsOf s) s).fmt) ≤ cntOf s.cfg.D s.cnt + 1)) ∧
      (w.last = false → s.st = .data → t.st = .data) ∧
      (w.last = false → s.st = .header →
        if cntOf s.cfg.D s.cnt + 1 < headerWords s.cfg.D (headerSize (rawOf (inputsOf s) s).fmt) then
          t.st = .header ∧ t.cnt = s.cnt + 1
        else t.st = .data ∧ t.cnt = 0)

/-- R22: the carry register takes the slots and `last` of every input word transferred, and nothing else, in every
step in which no contract violation is recorded (R250). -/
def Obligations.CarryTakesEveryAcceptedWord : Prop :=
  ∀ s t : State, step s = .next t → (inputsOf s).rst = false → t.fault = none →
    t.carry =
      if (inputsOf s).req.valid = true ∧ readySeen .req t = true then
        ⟨(rawReq s.cfg (inputsOf s).req).slots, (inputsOf s).req.last⟩
      else if (inputsOf s).cmp.valid = true ∧ readySeen .cmp t = true then
        ⟨(rawCmp s.cfg (inputsOf s).cmp).slots, (inputsOf s).cmp.last⟩
      else s.carry

/-- R281: a step that offers no output word is one in which the selected source offers no input word. -/
def Obligations.OnlyAMissingInputWordStalls : Prop :=
  ∀ s t : State, step s = .next t → (inputsOf s).rst = false → t.fault = none →
    t.out.bind (·.phy) = none → (rawOf (inputsOf s) s).valid = false

/-- The frame of every operation: what a step that runs it leaves unchanged. The instance never changes. The words
emitted stay. The inserter's registers change only with a transfer on `phy_out`, the carry register and the queues
only with a transfer on an input, the policy's state only when the grant was idle, and a stream that is not
selected keeps its place in its packet. -/
def Obligations.OperationFrame : Prop :=
  ∀ (i : Instr) (s t : State), exec i s = .next t → (inputsOf s).rst = false → t.fault = none →
    t.cfg = s.cfg ∧ t.env = s.env.tail ∧ t.time = s.time + 1 ∧ s.sent <+: t.sent ∧
    t.sent.length ≤ s.sent.length + 1 ∧
    (((inputsOf s).ready = false ∨ t.out.bind (·.phy) = none) →
      t.st = s.st ∧ t.cnt = s.cnt ∧ t.sL = s.sL ∧ t.sent = s.sent) ∧
    (readySeen .req t = false → t.reqQ = s.reqQ ∧ t.monReq.inPacket = s.monReq.inPacket ∧
      t.monReq.wordsSeen = s.monReq.wordsSeen ∧ t.monReq.params = s.monReq.params) ∧
    (readySeen .cmp t = false → t.cmpQ = s.cmpQ ∧ t.monCmp.inPacket = s.monCmp.inPacket ∧
      t.monCmp.wordsSeen = s.monCmp.wordsSeen ∧ t.monCmp.params = s.monCmp.params) ∧
    (readySeen .req t = false → readySeen .cmp t = false → t.carry = s.carry) ∧
    (s.grant ≠ .idle → t.policy = s.policy)

/-- R69, U11: the `dat` of a read request's word is ignored: two steps that differ only in it show the consumer and
the producers the same, and leave the same sequencing state, whether the word is taken in the step or waits. -/
def Obligations.ReadPayloadIsIgnored : Prop :=
  ∀ (inp : Inputs) (s t : State) (dat : List Dword),
    let inp' : Inputs := { inp with req := { inp.req with dat := dat } }
    inp.req.we = false → inp.rst = false → violationOf s inp = none → violationOf s inp' = none →
    cycle inp s = .next t → t.fault = none → ∃ t', cycle inp' s = .next t' ∧ SameRun t t'

/-- R69, R147, U11: the same of an error completion's word. -/
def Obligations.ErrorCompletionPayloadIsIgnored : Prop :=
  ∀ (inp : Inputs) (s t : State) (dat : List Dword),
    let inp' : Inputs := { inp with cmp := { inp.cmp with dat := dat } }
    inp.cmp.err = true → inp.rst = false → violationOf s inp = none → violationOf s inp' = none →
    cycle inp s = .next t → t.fault = none → ∃ t', cycle inp' s = .next t' ∧ SameRun t t'

/-! ## Steps -/

/-- A step runs the decoded operation: where the bit string of the opcode table decodes to a packet that is well
formed and that the instance can be given, the next step of the machine with that packet loaded is the operation's
meaning there. -/
def Obligations.StepRunsTheDecodedOperation : Prop :=
  ∀ (s : State) (nbits w : Nat) (k : Packet), decodeTablePacket nbits w = some k →
    k.op.wellFormed = true → admits s.cfg k.op = true →
      step (s.withFetchWord nbits w) = exec k.op (s.withFetchWord nbits w)

/-- R231: in every state a step is the whole-step function under the step's inputs, whichever operation it runs. -/
def Obligations.StepIsTheWholeStepFunction : Prop :=
  ∀ s : State, step s = cycle (inputsOf s) s

/-- R6, R31: no step changes the instance's parameters. They are fixed at elaboration and no behaviour of a run, so
the statement has no premise on `fault`. -/
def Obligations.ParametersNeverChange : Prop :=
  ∀ s t : State, step s = .next t → t.cfg = s.cfg

/-- R239: a quiescent state (read as log entry 20 says) emits nothing, accepts nothing and keeps every register. -/
def Obligations.QuiescentStepIsIdle : Prop :=
  ∀ s : State, s.quiescent → (inputsOf s).rst = false →
    ∃ t, step s = .next t ∧ t.out = some ⟨false, false, none⟩ ∧ t.st = s.st ∧ t.cnt = s.cnt ∧ t.sL = s.sL ∧
      t.carry = s.carry ∧ t.grant = s.grant ∧ t.policy = s.policy ∧ t.fault = none ∧ t.sent = s.sent ∧
      t.reqQ = s.reqQ ∧ t.cmpQ = s.cmpQ

/-! ## Contract violations -/

/-- R258 over R252 to R257: a monitor finds nothing exactly when no violation holds; what it records holds, is the
lowest code that holds, except that `MultiWordNoData` stands for `LastMisplaced` when both hold. First for a monitor
of any stream under any parameters; then for the monitors of `req_in` and `cmp_in`, with R254's word count
(`max(1, ceil(len/D))` for a write or a `cpld`, 1 for a read or a `cpl`), R255's zero length (`req_in` only) and R257's
kinds without data. The word count is that of the word on offer: log entry 19, the model's choice. -/
def Obligations.MonitorRecordsTheRightCode : Prop :=
  (∀ (ω π : Type) [DecidableEq ω] [DecidableEq π] (m : Monitor ω π) (w : ω) (valid first last : Bool) (side : π)
      (need : Nat) (zeroLen noData : Bool),
    RightCode (monitorCheck m w valid first last side need zeroLen noData)
      (holds m w valid first last side need zeroLen noData)) ∧
  (∀ (s : State) (r : ReqIn),
    RightCode (reqCheck s r)
      (holds s.monReq r r.valid r.first r.last r.params
        (if r.we = true then max 1 ((r.len.toNat + s.cfg.D - 1) / s.cfg.D) else 1)
        (decide (r.len = 0#10)) (decide (r.we = false)))) ∧
  ∀ (s : State) (c : CmpIn),
    RightCode (cmpCheck s c)
      (holds s.monCmp c c.valid c.first c.last c.params
        (if c.err = false then max 1 ((c.len.toNat + s.cfg.D - 1) / s.cfg.D) else 1)
        false c.err)

/-- R250, R251, R258: a step in which a violation holds records it, with the stream and the step, `req_in` before
`cmp_in`, and shows no outputs; the codes are numbered as in R251. Nothing is claimed of the registers after it. That
the record is made in a next state is the model's reading (log entry 9), and that the stream ranks before the code its
choice (log entry 21). -/
def Obligations.ViolationIsRecorded : Prop :=
  (∀ s : State, s.fault = none → (inputsOf s).rst = false →
    (∀ c, reqCheck s (inputsOf s).req = some c → Records c .reqIn s) ∧
    (∀ c, reqCheck s (inputsOf s).req = none → cmpCheck s (inputsOf s).cmp = some c → Records c .cmpIn s)) ∧
  Code.number .offerRetracted = 1 ∧ Code.number .firstMisplaced = 2 ∧ Code.number .lastMisplaced = 3 ∧
  Code.number .zeroLengthRequest = 4 ∧ Code.number .paramsChanged = 5 ∧ Code.number .multiWordNoData = 6

/-- R255 with R258: a request word with `len = 0` on offer is recorded, as `ZeroLengthRequest` when it breaks no
other rule of higher rank; a completion with `len = 0` is not a violation of it. That the record is made in a next
state which shows no outputs is the model's reading of R250 (log entry 9, DEDUCED). -/
def Obligations.ZeroLengthRequestIsRecorded : Prop :=
  ∀ s : State, s.fault = none → (inputsOf s).rst = false →
    ((inputsOf s).req.valid = true → (inputsOf s).req.len = 0#10 →
      ∃ c, Records c .reqIn s ∧
        (retracted s.monReq (inputsOf s).req true = false →
          (inputsOf s).req.first = !s.monReq.inPacket →
          (inputsOf s).req.last = (s.monReq.wordsSeen + 1 == 1) → c = .zeroLengthRequest)) ∧
    cmpCheck s (inputsOf s).cmp ≠ some .zeroLengthRequest

/-- R250, R261: a recorded fault is never cleared by a step without reset: there is no further step; and a state that
holds one is not quiescent. -/
def Obligations.FaultEndsTheRun : Prop :=
  ∀ (s : State) (v : Violation), s.fault = some v →
    ((inputsOf s).rst = false → step s = .fault (.contractViolation v)) ∧ ¬ s.quiescent

/-- R190, R194, R253: under the invariant, inputs that keep the contract never make the machine fault: the step is
taken, and the inserter's own checks never fire. -/
def Obligations.LawfulInputsNeverFault : Prop :=
  ∀ s : State, s.Inv → s.fault = none → violationOf s (inputsOf s) = none →
    ∃ t, step s = .next t ∧ t.fault = none

/-! ## Reset and the invariant -/

/-- R34, R271: the values the spec gives for reset, on every instance. -/
def Obligations.ResetValues : Prop :=
  ∀ p : Params,
    let s := State.resetFor p
    s.st = .header ∧ s.cnt = 0 ∧ s.grant = .idle ∧ s.fault = none ∧
    s.monReq = ⟨false, none, 0, none⟩ ∧ s.monCmp = ⟨false, none, 0, none⟩ ∧ s.policy.lastg = .cmp ∧ s.cfg = p

/-- R270: a step under reset, in any state, offers nothing, accepts nothing, puts the registers to the values of
R271, and takes back no word already emitted. -/
def Obligations.ResetStep : Prop :=
  ∀ s : State, (inputsOf s).rst = true →
    ∃ t, step s = .next t ∧ t.st = .header ∧ t.cnt = 0 ∧ t.grant = .idle ∧ t.fault = none ∧
      t.monReq = Monitor.fresh ∧ t.monCmp = Monitor.fresh ∧ t.policy = PolicyState.initial ∧
      t.cfg = s.cfg ∧ t.sent = s.sent ∧ t.out = some ⟨false, false, none⟩

/-- The invariant holds at reset, on every instance. No clause rests on the values log entry 4 chooses for `sL` and the
carry register: what the invariant says of them, but for the number of slots (log entry 7), it says of `DATA` only. -/
def Obligations.InvariantAtReset : Prop := ∀ p : Params, (State.resetFor p).Inv

/-- Every step in which no contract violation is recorded (R250) keeps the invariant (R22 to R26, R173, R190 to R195);
and a reset step gives it back in any state, one with a recorded violation too, whose emitted words are well formed.
That a reset step resets every register and monitor and clears the record is the model's reading (log entry 12,
DEDUCED), and so is that a monitor holds no side fields outside a packet (log entry 11, DEDUCED). No clause rests on
log entry 4's values. -/
def Obligations.InvariantIsKept : Prop :=
  (∀ s t : State, s.Inv → step s = .next t → t.fault = none → t.Inv) ∧
  ∀ s t : State, sentInv s → (inputsOf s).rst = true → step s = .next t → t.Inv

/-! ## Packets -/

/-- R234, R85: a well-formed packet's words hold `H` plus its payload dwords, no more, and exactly the last word
carries `last`, exactly the first `first`. -/
def Obligations.LengthConservation : Prop :=
  ∀ (p : Params) (k : Packet), k.wellFormed = true →
    (flatten (phys p k)).length = totalDwords k ∧
    (phys p k).length = ceilDiv (totalDwords k) p.D ∧
    ((phys p k).filter (·.last)).length = 1 ∧ ((phys p k).filter (·.first)).length = 1 ∧
    ((phys p k).getLast?.map (·.last)) = some true ∧ ((phys p k).head?.map (·.first)) = some true

/-- R236: in the words of a write, dword `n` is enabled with `0xF` for every `n` below `H + len`, payload dwords
included, and every slot beyond has no enable. -/
def Obligations.ByteEnableCorrectness : Prop :=
  ∀ (p : Params) (k : Packet) (n : Nat), k.wellFormed = true → n < (phys p k).length * p.D →
    ((phys p k)[n / p.D]?.bind fun w => w.slots[n % p.D]?).map (·.be) =
      some (if n < totalDwords k then 0xF#4 else 0x0#4)

/-- R237: the flattened output is the same for every width. -/
def Obligations.WidthIndependence : Prop :=
  ∀ (p q : Params) (k : Packet), p.endian = q.endian →
    flatten (phys p k) = flatten (phys q k) ∧ flatten (phys p k) = flat p.endian k

/-- R238, R98: decoding the words of a well-formed packet gives back the operation, its operands and its payload, on
every instance, but for bit 7 of `lower_address`; and the fields R98 reads beside them are as the rules give them. -/
def Obligations.PhysicalRoundTrip : Prop :=
  ∀ (p : Params) (k : Packet), k.wellFormed = true →
    decodeWords p (phys p k) = .ok (⟨onWire k.op, k.data⟩, []) ∧
    decodeTlp (unswapped p (phys p k)) = .ok (⟨emittedFields k.op, k.data⟩, [])

/-- R232, R285: from any packet boundary, with the consumer always ready, a well-formed packet is emitted whole, as
`Phys(op, D)`, in exactly `ceil(T / D)` steps, and the machine is quiescent. The count of steps rests on decision D4,
as R285 does, and on the model's steps having no latency (log entry 18, DESIGN CHOICE); how the packet is loaded, on
log entries 3 and 8; what quiescent is read from, on log entry 20. -/
def Obligations.PacketIsEmittedWhole : Prop :=
  ∀ (s : State) (k : Packet), k.wellFormed = true → admits s.cfg k.op = true →
    ∃ t, Host.Core.run Sys2Proof.core (ceilDiv (totalDwords k) s.cfg.D) (loadPacket k s) = .next t ∧
      t.sent.map seen = s.sent.map seen ++ phys s.cfg k ∧ t.quiescent

/-- R233, R285 for one source: a queue of packets on either stream, the consumer always ready, is emitted packet
after packet with no idle step between, flush words and the next packet's offer overlapping. That there is no idle
step, so that there are exactly as many steps as words, rests on decision D4, as R285 does, and on the model's steps
having no latency (log entry 18, DESIGN CHOICE); loading rests on log entries 3 and 8, quiescent on log entry 20. -/
def Obligations.PacketsFollowWithoutGap : Prop :=
  ∀ (s : State) (ks : List Packet) (isReq : Bool), Loadable s.cfg isReq ks →
    ∃ t, Host.Core.run Sys2Proof.core (physAll s.cfg ks).length
        (loadPackets (if isReq then ks else []) (if isReq then [] else ks) [] s) = .next t ∧
      t.sent.map seen = s.sent.map seen ++ physAll s.cfg ks ∧ t.quiescent

/-- R233, R235: for any queues of packets on the two streams, any stalls of the consumer and any gaps of the
producers that break no contract, and any policy, the words emitted so far are a prefix of the packets' words in
some order that keeps each stream's own order: no word mixes two packets. -/
def Obligations.EmittedWordsArePackets : Prop :=
  ∀ (s t : State) (reqs cmps : List Packet) (env : List Frame) (n : Nat),
    Loadable s.cfg true reqs → Loadable s.cfg false cmps → (∀ f ∈ env, f.lawful = true) →
    Host.Core.run Sys2Proof.core n (loadPackets reqs cmps env s) = .next t → t.fault = none →
    ∃ order : List Packet, (order.filter fun k => k.op.isRequest) <+: reqs ∧
      (order.filter fun k => !k.op.isRequest) <+: cmps ∧
      t.sent.map seen <+: s.sent.map seen ++ physAll s.cfg order

/-- R239, R233: in any run from a packet boundary, with any queues of packets on the two streams, any stalls of the
consumer and any gaps of the producers, at a quiescent state (read as log entry 20 says) every packet ever offered has
been emitted whole: the words emitted are those of whole packets, each stream's in its order, and what is left in the
queues is whole packets too. Loading rests on log entries 3 and 8. -/
def Obligations.QuiescentMeansEmittedWhole : Prop :=
  ∀ (s t : State) (reqs cmps : List Packet) (env : List Frame) (n : Nat),
    Loadable s.cfg true reqs → Loadable s.cfg false cmps → (∀ f ∈ env, f.lawful = true) →
    Host.Core.run Sys2Proof.core n (loadPackets reqs cmps env s) = .next t → t.quiescent →
    ∃ order reqsLeft cmpsLeft : List Packet,
      reqs = (order.filter fun k => k.op.isRequest) ++ reqsLeft ∧
      cmps = (order.filter fun k => !k.op.isRequest) ++ cmpsLeft ∧
      t.sent.map seen = s.sent.map seen ++ physAll s.cfg order ∧
      t.reqQ = reqsLeft.flatMap (packetReqWords s.cfg.D) ∧ t.cmpQ = cmpsLeft.flatMap (packetCmpWords s.cfg.D)
end

