-- ==== Sys2Proof/Laws/Decode.lean ====
section
/-! SUPPORT. What the field helpers, the opcode map and the decoder give: the bits of a placed field, the codes of a
request's kind, the match values of the six kinds, and the decoders in terms of the one header decoder. -/

namespace Sys2Proof

/-- The bits of a placed field. -/
theorem getLsbD_putField {n : Nat} (lo : Nat) (v : BitVec n) (k : Nat) :
    (putField lo v).getLsbD k = (decide (k < 32) && (decide (lo ≤ k) && v.getLsbD (k - lo))) := by
  simp only [putField, BitVec.getLsbD_shiftLeft, BitVec.getLsbD_setWidth]
  by_cases h : k < 32
  · have h3 : k - lo < 32 := by omega
    by_cases h2 : k < lo
    · simp [h2]
    · simp [h, h3, h2, Nat.le_of_not_lt h2]
  · simp [h]

/-- The bits of a field that is read. -/
theorem getLsbD_getField (lo n : Nat) (d : Dword) (k : Nat) :
    (getField lo n d).getLsbD k = (decide (k < n) && d.getLsbD (lo + k)) := by
  simp [getField, BitVec.getLsbD_extractLsb']

/-- The match values and the mask of the six kinds, as R96 lists them. -/
theorem opcodeMap_eq :
    opcodeMap =
      [⟨.mrd32, 0x00000000#32, 0x7F000000#32⟩, ⟨.mwr32, 0x40000000#32, 0x7F000000#32⟩,
       ⟨.mrd64, 0x20000000#32, 0x7F000000#32⟩, ⟨.mwr64, 0x60000000#32, 0x7F000000#32⟩,
       ⟨.cpl, 0x0A000000#32, 0x7F000000#32⟩, ⟨.cpld, 0x4A000000#32, 0x7F000000#32⟩] := by decide

/-- `length` does not reach the kind's bits. -/
theorem encodeDw0_and_kindMask (k : Kind) (len : BitVec 10) : encodeDw0 k len &&& kindMask = kindPattern k := by
  have hl : putField headerLayout.lengthLo len &&& kindMask = 0#32 := by
    apply BitVec.eq_of_getLsbD_eq
    intro j hj
    rw [BitVec.getLsbD_and, getLsbD_putField]
    by_cases h : j < 10
    · have hm : kindMask.getLsbD j = false := by interval_cases j <;> decide
      simp [hm]
    · rw [BitVec.getLsbD_of_ge len (j - headerLayout.lengthLo) (by simpa [headerLayout] using h)]
      simp
  have hk : kindPattern k &&& kindMask = kindPattern k := by cases k <;> decide
  rw [encodeDw0, show ∀ a b c : Dword, (a ||| b) &&& c = (a &&& c) ||| (b &&& c) from
    fun a b c => by ext j; simp [Bool.and_or_distrib_right], hk, hl]
  simp

/-- A header dword 0 the encoder makes is of its kind. -/
@[simp] theorem kindOf_encodeDw0 (k : Kind) (len : BitVec 10) : kindOf (encodeDw0 k len) = some k := by
  have h : ∀ row ∈ opcodeMap, rowMatches (encodeDw0 k len) row = (kindPattern k == row.pattern) := by
    intro row hr
    obtain ⟨k', -, rfl⟩ := List.mem_map.mp hr
    simp only [rowMatches, encodeDw0_and_kindMask]
  have hf : opcodeMap.find? (rowMatches (encodeDw0 k len)) =
      opcodeMap.find? fun row => kindPattern k == row.pattern := List.find?_congr h
  rw [kindOf, hf]
  cases k <;> decide

/-- `decode` in terms of the header decoder. -/
theorem decode_of_header {ds rest : List Dword} {h : HeaderFields} (hd : decodeHeader ds = .ok (h, rest)) :
    decode ds = .ok (operation h, rest) := by simp [decode, hd]

/-- `decodePacket` in terms of the TLP decoder. -/
theorem decodePacket_of_tlp {ds rest : List Dword} {t : DecodedTlp} (hd : decodeTlp ds = .ok (t, rest)) :
    decodePacket ds = .ok (⟨operation t.header, t.payload⟩, rest) := by simp [decodePacket, hd]

/-- `decodeTlp` splits the payload off what follows the header. -/
theorem decodeTlp_of_header {ds data rest : List Dword} {h : HeaderFields}
    (hd : decodeHeader ds = .ok (h, data ++ rest)) (hn : data.length = (operation h).payloadDwords) :
    decodeTlp ds = .ok (⟨h, data⟩, rest) := by simp [decodeTlp, hd, ← hn]

namespace Machine

/-- R123's `fmt = {we, is64}`. -/
theorem formatReq_fmt (r : ReqIn) : (formatReq r).fmt = BitVec.ofBool r.we ++ BitVec.ofBool (is64 r.adr) := by
  simp only [formatReq, kindOfReq]
  cases r.we <;> cases is64 r.adr <;> rfl

/-- `type` is the one of memory requests (R121). -/
theorem formatReq_type (r : ReqIn) : (formatReq r).type = 0#5 := by
  simp only [formatReq, kindOfReq]
  cases r.we <;> cases is64 r.adr <;> rfl

/-- A request has four header dwords exactly when its address is a 64-bit one (R187). -/
theorem headerSize_formatReq (r : ReqIn) : headerSize (formatReq r).fmt = if is64 r.adr then 4 else 3 := by
  simp only [formatReq, kindOfReq]
  cases r.we <;> cases is64 r.adr <;> rfl

/-- A completion has three (R187). -/
theorem headerSize_formatCmp (c : CmpIn) : headerSize (formatCmp c).fmt = 3 := by
  simp only [formatCmp, kindOfCmp]
  cases c.err <;> rfl

end Machine

end Sys2Proof
end

