-- ==== Sys2Proof/Laws/Operands.lean ====
section
/-! SUPPORT. What the operand forms, the header record and the word forms give: lengths, the dwords of a packed
header, the enables of payload words. -/

namespace Sys2Proof.Machine

@[simp] theorem fitDwords_length (d : Nat) (l : List Dword) : (fitDwords d l).length = d := by
  simp [fitDwords]

@[simp] theorem fitSlots_length (d : Nat) (l : List Slot) : (fitSlots d l).length = d := by
  simp [fitSlots]

/-- A register of the right size is read as it is. -/
theorem fitSlots_of_length {d : Nat} {l : List Slot} (h : l.length = d) : fitSlots d l = l := by
  subst h
  apply List.ext_getElem (by simp)
  intro j h1 h2
  simp [fitSlots, List.getElem?_eq_getElem h2]

/-- A port value of the right size is read as it is. -/
theorem fitDwords_of_length {d : Nat} {l : List Dword} (h : l.length = d) : fitDwords d l = l := by
  subst h
  apply List.ext_getElem (by simp)
  intro j h1 h2
  simp [fitDwords, List.getElem?_eq_getElem h2]

/-- Cutting to the port's size twice is cutting once. -/
@[simp] theorem fitDwords_idem (d : Nat) (l : List Dword) : fitDwords d (fitDwords d l) = fitDwords d l :=
  fitDwords_of_length (fitDwords_length d l)

@[simp] theorem payloadSlots_length (d nv : Nat) (dat : List Dword) : (payloadSlots d nv dat).length = d := by
  simp [payloadSlots]

@[simp] theorem convSlots_length (e : Endian) (l : List Slot) : (convSlots e l).length = l.length := by
  simp [convSlots]

@[simp] theorem rawReq_slots_length (p : Params) (r : ReqIn) : (rawReq p r).slots.length = p.D := by
  simp [rawReq]

@[simp] theorem rawCmp_slots_length (p : Params) (c : CmpIn) : (rawCmp p c).slots.length = p.D := by
  simp [rawCmp]

/-- The converter leaves the two whole enables as they are (R161). -/
@[simp] theorem convBe_allEnabled (e : Endian) : convBe e allEnabled = allEnabled := by
  cases e <;> decide

@[simp] theorem convBe_noneEnabled (e : Endian) : convBe e noneEnabled = noneEnabled := by
  cases e <;> decide

/-- Every slot a formatter makes is wholly enabled or not at all (R61, R125, R144). -/
theorem convSlots_payloadSlots_be {e : Endian} {d nv : Nat} {dat : List Dword} {x : Slot}
    (h : x ∈ convSlots e (payloadSlots d nv dat)) : x.be = noneEnabled ∨ x.be = allEnabled := by
  simp only [convSlots, payloadSlots, List.map_map, List.mem_map, Function.comp_apply] at h
  obtain ⟨j, -, rfl⟩ := h
  by_cases hj : j < nv <;> simp [convSlot, hj]

/-- Which slots of a payload word are enabled: the low `nv` (R125, R144). -/
theorem payloadSlots_getElem (d nv : Nat) (dat : List Dword) (j : Nat) (h : j < (payloadSlots d nv dat).length) :
    (payloadSlots d nv dat)[j] = ⟨dat.getD j 0, if j < nv then allEnabled else noneEnabled⟩ := by
  simp [payloadSlots]

theorem hdr_packHdr_zero (d0 d1 d2 d3 : Dword) : hdr (packHdr d0 d1 d2 d3) 0 = d0 := by
  ext i hi
  simp only [hdr, packHdr, BitVec.getElem_extractLsb', BitVec.getLsbD_append]
  simp [hi]

theorem hdr_packHdr_one (d0 d1 d2 d3 : Dword) : hdr (packHdr d0 d1 d2 d3) 1 = d1 := by
  ext i hi
  simp only [hdr, packHdr, BitVec.getElem_extractLsb', BitVec.getLsbD_append]
  have h1 : ¬ 32 + i < 32 := by omega
  simp [hi, h1]

theorem hdr_packHdr_two (d0 d1 d2 d3 : Dword) : hdr (packHdr d0 d1 d2 d3) 2 = d2 := by
  ext i hi
  simp only [hdr, packHdr, BitVec.getElem_extractLsb', BitVec.getLsbD_append]
  have h1 : ¬ 64 + i < 32 := by omega
  have h2 : ¬ 64 + i - 32 < 32 := by omega
  have h3 : 64 + i - 32 - 32 = i := by omega
  simp [h1, h2, h3, hi]

theorem hdr_packHdr_three (d0 d1 d2 d3 : Dword) : hdr (packHdr d0 d1 d2 d3) 3 = d3 := by
  ext i hi
  simp only [hdr, packHdr, BitVec.getElem_extractLsb', BitVec.getLsbD_append]
  have h1 : ¬ 96 + i < 32 := by omega
  have h2 : ¬ 96 + i - 32 < 32 := by omega
  have h3 : ¬ 96 + i - 32 - 32 < 32 := by omega
  have h4 : 96 + i - 32 - 32 - 32 = i := by omega
  simp [h1, h2, h3, h4, hi]

/-- The converter acts on each header dword by itself (R159, R163 a). -/
theorem hdr_convHeader (e : Endian) (h : BitVec 128) {j : Nat} (hj : j < 4) :
    hdr (convHeader e h) j = conv e (hdr h j) := by
  have : j = 0 ∨ j = 1 ∨ j = 2 ∨ j = 3 := by omega
  rcases this with rfl | rfl | rfl | rfl
  · exact hdr_packHdr_zero ..
  · exact hdr_packHdr_one ..
  · exact hdr_packHdr_two ..
  · exact hdr_packHdr_three ..

end Sys2Proof.Machine
end

