-- ==== Sys2Proof/Laws/State.lean ====
section
/-! SUPPORT. One lemma per field for each whole-state update of Machine/Ops.lean, so that no later proof unfolds a
record update. -/

namespace Sys2Proof.Machine

/-! ## `raise` -/

@[simp] theorem raise_cfg (c : Code) (i : StreamId) (s : State) : (raise c i s).cfg = s.cfg := rfl
@[simp] theorem raise_st (c : Code) (i : StreamId) (s : State) : (raise c i s).st = s.st := rfl
@[simp] theorem raise_cnt (c : Code) (i : StreamId) (s : State) : (raise c i s).cnt = s.cnt := rfl
@[simp] theorem raise_sL (c : Code) (i : StreamId) (s : State) : (raise c i s).sL = s.sL := rfl
@[simp] theorem raise_carry (c : Code) (i : StreamId) (s : State) : (raise c i s).carry = s.carry := rfl
@[simp] theorem raise_grant (c : Code) (i : StreamId) (s : State) : (raise c i s).grant = s.grant := rfl
@[simp] theorem raise_policy (c : Code) (i : StreamId) (s : State) : (raise c i s).policy = s.policy := rfl
@[simp] theorem raise_fault (c : Code) (i : StreamId) (s : State) :
    (raise c i s).fault = some ⟨c, i, s.time⟩ := rfl
@[simp] theorem raise_monReq (c : Code) (i : StreamId) (s : State) : (raise c i s).monReq = s.monReq := rfl
@[simp] theorem raise_monCmp (c : Code) (i : StreamId) (s : State) : (raise c i s).monCmp = s.monCmp := rfl
@[simp] theorem raise_time (c : Code) (i : StreamId) (s : State) : (raise c i s).time = s.time + 1 := rfl
@[simp] theorem raise_env (c : Code) (i : StreamId) (s : State) : (raise c i s).env = s.env.tail := rfl
@[simp] theorem raise_reqQ (c : Code) (i : StreamId) (s : State) : (raise c i s).reqQ = s.reqQ := rfl
@[simp] theorem raise_cmpQ (c : Code) (i : StreamId) (s : State) : (raise c i s).cmpQ = s.cmpQ := rfl
@[simp] theorem raise_out (c : Code) (i : StreamId) (s : State) : (raise c i s).out = none := rfl
@[simp] theorem raise_sent (c : Code) (i : StreamId) (s : State) : (raise c i s).sent = s.sent := rfl

/-! ## `resetStep` -/

@[simp] theorem resetStep_cfg (s : State) : (resetStep s).cfg = s.cfg := rfl
@[simp] theorem resetStep_st (s : State) : (resetStep s).st = .header := rfl
@[simp] theorem resetStep_cnt (s : State) : (resetStep s).cnt = 0 := rfl
@[simp] theorem resetStep_sL (s : State) : (resetStep s).sL = 0 := rfl
@[simp] theorem resetStep_carry (s : State) : (resetStep s).carry = Carry.zero s.cfg := rfl
@[simp] theorem resetStep_grant (s : State) : (resetStep s).grant = .idle := rfl
@[simp] theorem resetStep_policy (s : State) : (resetStep s).policy = PolicyState.initial := rfl
@[simp] theorem resetStep_fault (s : State) : (resetStep s).fault = none := rfl
@[simp] theorem resetStep_monReq (s : State) : (resetStep s).monReq = Monitor.fresh := rfl
@[simp] theorem resetStep_monCmp (s : State) : (resetStep s).monCmp = Monitor.fresh := rfl
@[simp] theorem resetStep_time (s : State) : (resetStep s).time = s.time + 1 := rfl
@[simp] theorem resetStep_env (s : State) : (resetStep s).env = s.env.tail := rfl
@[simp] theorem resetStep_reqQ (s : State) : (resetStep s).reqQ = s.reqQ := rfl
@[simp] theorem resetStep_cmpQ (s : State) : (resetStep s).cmpQ = s.cmpQ := rfl
@[simp] theorem resetStep_out (s : State) : (resetStep s).out = some ⟨false, false, none⟩ := rfl
@[simp] theorem resetStep_sent (s : State) : (resetStep s).sent = s.sent := rfl

/-! ## `commit` -/

@[simp] theorem commit_cfg (inp : Inputs) (s : State) (pl : Plan) : (commit inp s pl).cfg = s.cfg := rfl
@[simp] theorem commit_st (inp : Inputs) (s : State) (pl : Plan) :
    (commit inp s pl).st = ((if inp.ready then pl.emit else none : Option Emit).map (·.st)).getD s.st := rfl
@[simp] theorem commit_cnt (inp : Inputs) (s : State) (pl : Plan) :
    (commit inp s pl).cnt = ((if inp.ready then pl.emit else none : Option Emit).map (·.cnt)).getD s.cnt := rfl
@[simp] theorem commit_sL (inp : Inputs) (s : State) (pl : Plan) :
    (commit inp s pl).sL = ((if inp.ready then pl.emit else none : Option Emit).map (·.sL)).getD s.sL := rfl
@[simp] theorem commit_carry (inp : Inputs) (s : State) (pl : Plan) :
    (commit inp s pl).carry = carryNext s.carry (rawOf inp s) (rawXfer inp s pl) := rfl
@[simp] theorem commit_grant (inp : Inputs) (s : State) (pl : Plan) :
    (commit inp s pl).grant = grantNext (selOf inp s) (rawXfer inp s pl && (rawOf inp s).last) := rfl
@[simp] theorem commit_policy (inp : Inputs) (s : State) (pl : Plan) :
    (commit inp s pl).policy = policyStep s (selOf inp s) := rfl
@[simp] theorem commit_fault (inp : Inputs) (s : State) (pl : Plan) : (commit inp s pl).fault = s.fault := rfl
@[simp] theorem commit_monReq (inp : Inputs) (s : State) (pl : Plan) :
    (commit inp s pl).monReq = monitorNext s.monReq inp.req inp.req.valid (readyTo .req inp s pl) inp.req.last inp.req.params := rfl
@[simp] theorem commit_monCmp (inp : Inputs) (s : State) (pl : Plan) :
    (commit inp s pl).monCmp = monitorNext s.monCmp inp.cmp inp.cmp.valid (readyTo .cmp inp s pl) inp.cmp.last inp.cmp.params := rfl
@[simp] theorem commit_time (inp : Inputs) (s : State) (pl : Plan) : (commit inp s pl).time = s.time + 1 := rfl
@[simp] theorem commit_env (inp : Inputs) (s : State) (pl : Plan) : (commit inp s pl).env = s.env.tail := rfl
@[simp] theorem commit_reqQ (inp : Inputs) (s : State) (pl : Plan) :
    (commit inp s pl).reqQ = (if inp.req.valid && readyTo .req inp s pl && fromQueue (frameOf s).req then s.reqQ.tail else s.reqQ) := rfl
@[simp] theorem commit_cmpQ (inp : Inputs) (s : State) (pl : Plan) :
    (commit inp s pl).cmpQ = (if inp.cmp.valid && readyTo .cmp inp s pl && fromQueue (frameOf s).cmp then s.cmpQ.tail else s.cmpQ) := rfl
@[simp] theorem commit_out (inp : Inputs) (s : State) (pl : Plan) :
    (commit inp s pl).out = some (outputsOf inp s pl) := rfl
@[simp] theorem commit_sent (inp : Inputs) (s : State) (pl : Plan) :
    (commit inp s pl).sent = s.sent ++ ((if inp.ready then pl.emit else none : Option Emit).map (phyOf s.time)).toList := rfl

/-! ## `atBoundary` and `loadPacket` -/

@[simp] theorem atBoundary_cfg (s : State) : (atBoundary s).cfg = s.cfg := rfl
@[simp] theorem atBoundary_st (s : State) : (atBoundary s).st = .header := rfl
@[simp] theorem atBoundary_cnt (s : State) : (atBoundary s).cnt = 0 := rfl
@[simp] theorem atBoundary_sL (s : State) : (atBoundary s).sL = s.sL := rfl
@[simp] theorem atBoundary_carry (s : State) : (atBoundary s).carry = s.carry := rfl
@[simp] theorem atBoundary_grant (s : State) : (atBoundary s).grant = .idle := rfl
@[simp] theorem atBoundary_policy (s : State) : (atBoundary s).policy = s.policy := rfl
@[simp] theorem atBoundary_fault (s : State) : (atBoundary s).fault = none := rfl
@[simp] theorem atBoundary_monReq (s : State) : (atBoundary s).monReq = Monitor.fresh := rfl
@[simp] theorem atBoundary_monCmp (s : State) : (atBoundary s).monCmp = Monitor.fresh := rfl
@[simp] theorem atBoundary_time (s : State) : (atBoundary s).time = s.time := rfl
@[simp] theorem atBoundary_env (s : State) : (atBoundary s).env = [] := rfl
@[simp] theorem atBoundary_reqQ (s : State) : (atBoundary s).reqQ = [] := rfl
@[simp] theorem atBoundary_cmpQ (s : State) : (atBoundary s).cmpQ = [] := rfl
@[simp] theorem atBoundary_out (s : State) : (atBoundary s).out = s.out := rfl
@[simp] theorem atBoundary_sent (s : State) : (atBoundary s).sent = s.sent := rfl

@[simp] theorem loadPacket_cfg (k : Packet) (s : State) : (loadPacket k s).cfg = s.cfg := rfl
@[simp] theorem loadPacket_st (k : Packet) (s : State) : (loadPacket k s).st = .header := rfl
@[simp] theorem loadPacket_cnt (k : Packet) (s : State) : (loadPacket k s).cnt = 0 := rfl
@[simp] theorem loadPacket_sL (k : Packet) (s : State) : (loadPacket k s).sL = s.sL := rfl
@[simp] theorem loadPacket_carry (k : Packet) (s : State) : (loadPacket k s).carry = s.carry := rfl
@[simp] theorem loadPacket_grant (k : Packet) (s : State) : (loadPacket k s).grant = .idle := rfl
@[simp] theorem loadPacket_policy (k : Packet) (s : State) : (loadPacket k s).policy = s.policy := rfl
@[simp] theorem loadPacket_fault (k : Packet) (s : State) : (loadPacket k s).fault = none := rfl
@[simp] theorem loadPacket_monReq (k : Packet) (s : State) : (loadPacket k s).monReq = Monitor.fresh := rfl
@[simp] theorem loadPacket_monCmp (k : Packet) (s : State) : (loadPacket k s).monCmp = Monitor.fresh := rfl
@[simp] theorem loadPacket_time (k : Packet) (s : State) : (loadPacket k s).time = s.time := rfl
@[simp] theorem loadPacket_env (k : Packet) (s : State) : (loadPacket k s).env = [] := rfl
@[simp] theorem loadPacket_reqQ (k : Packet) (s : State) : (loadPacket k s).reqQ = packetReqWords s.cfg.D k := rfl
@[simp] theorem loadPacket_cmpQ (k : Packet) (s : State) : (loadPacket k s).cmpQ = packetCmpWords s.cfg.D k := rfl
@[simp] theorem loadPacket_out (k : Packet) (s : State) : (loadPacket k s).out = s.out := rfl
@[simp] theorem loadPacket_sent (k : Packet) (s : State) : (loadPacket k s).sent = s.sent := rfl

/-! ## `State.resetFor` -/

@[simp] theorem resetFor_cfg (p : Params) : (State.resetFor p).cfg = p := rfl
@[simp] theorem resetFor_st (p : Params) : (State.resetFor p).st = .header := rfl
@[simp] theorem resetFor_cnt (p : Params) : (State.resetFor p).cnt = 0 := rfl
@[simp] theorem resetFor_sL (p : Params) : (State.resetFor p).sL = 0 := rfl
@[simp] theorem resetFor_carry (p : Params) : (State.resetFor p).carry = Carry.zero p := rfl
@[simp] theorem resetFor_grant (p : Params) : (State.resetFor p).grant = .idle := rfl
@[simp] theorem resetFor_policy (p : Params) : (State.resetFor p).policy = PolicyState.initial := rfl
@[simp] theorem resetFor_fault (p : Params) : (State.resetFor p).fault = none := rfl
@[simp] theorem resetFor_monReq (p : Params) : (State.resetFor p).monReq = Monitor.fresh := rfl
@[simp] theorem resetFor_monCmp (p : Params) : (State.resetFor p).monCmp = Monitor.fresh := rfl
@[simp] theorem resetFor_time (p : Params) : (State.resetFor p).time = 0 := rfl
@[simp] theorem resetFor_env (p : Params) : (State.resetFor p).env = [] := rfl
@[simp] theorem resetFor_reqQ (p : Params) : (State.resetFor p).reqQ = [] := rfl
@[simp] theorem resetFor_cmpQ (p : Params) : (State.resetFor p).cmpQ = [] := rfl
@[simp] theorem resetFor_out (p : Params) : (State.resetFor p).out = none := rfl
@[simp] theorem resetFor_sent (p : Params) : (State.resetFor p).sent = [] := rfl

end Sys2Proof.Machine
end

