-- ==== Sys2Proof/Laws/Ops.lean ====
section
/-! SUPPORT. What each shared operation of a step can do, said once: the Arbiter, the Header Inserter, the
monitors, the whole-step function, and `exec` and `step` over it. -/

namespace Sys2Proof.Machine

/-! ## The Arbiter -/

/-- A granted source is the selected one (R171). -/
theorem selOf_of_grant_req {inp : Inputs} {s : State} (h : s.grant = .req) : selOf inp s = some .req := by
  simp [selOf, select, h]

theorem selOf_of_grant_cmp {inp : Inputs} {s : State} (h : s.grant = .cmp) : selOf inp s = some .cmp := by
  simp [selOf, select, h]

/-- What is selected while the grant is idle is offering a word (R171: "never selects a source that does not
offer"). -/
theorem selOf_req_idle_valid {inp : Inputs} {s : State} (hg : s.grant = .idle) (h : selOf inp s = some .req) :
    inp.req.valid = true := by
  unfold selOf select at h
  rw [hg] at h
  cases hr : inp.req.valid
  · cases hc : inp.cmp.valid <;> simp [hr, hc] at h
  · rfl

theorem selOf_cmp_idle_valid {inp : Inputs} {s : State} (hg : s.grant = .idle) (h : selOf inp s = some .cmp) :
    inp.cmp.valid = true := by
  unfold selOf select at h
  rw [hg] at h
  cases hc : inp.cmp.valid
  · cases hr : inp.req.valid <;> simp [hr, hc] at h
  · rfl

/-- Nothing is selected only when the grant is idle and nothing is offered (R171: work-conserving). -/
theorem selOf_none {inp : Inputs} {s : State} (h : selOf inp s = none) :
    s.grant = .idle ∧ inp.req.valid = false ∧ inp.cmp.valid = false := by
  unfold selOf select at h
  cases hg : s.grant <;> rw [hg] at h
  · cases hr : inp.req.valid <;> cases hc : inp.cmp.valid <;> simp [hr, hc] at h ⊢
  · simp at h
  · simp at h

theorem rawOf_none {inp : Inputs} {s : State} (h : selOf inp s = none) : rawOf inp s = RawWord.idle := by
  simp [rawOf, h]

theorem rawOf_req {inp : Inputs} {s : State} (h : selOf inp s = some .req) :
    rawOf inp s = rawReq s.cfg inp.req := by
  simp [rawOf, h]

theorem rawOf_cmp {inp : Inputs} {s : State} (h : selOf inp s = some .cmp) :
    rawOf inp s = rawCmp s.cfg inp.cmp := by
  simp [rawOf, h]

/-! ## The Header Inserter -/

@[simp] theorem headerSlots_length (h : BitVec 128) (j0 n : Nat) : (headerSlots h j0 n).length = n := by
  simp [headerSlots]

@[simp] theorem anyUnderZero_length (t : Nat) (l : List Slot) : (anyUnderZero t l).length = l.length := by
  simp [anyUnderZero]

/-- The free bits stand under a zero enable only: no enable changes. -/
theorem anyUnderZero_be (t : Nat) (l : List Slot) :
    (anyUnderZero t l).map (·.be) = l.map (·.be) := by
  apply List.ext_getElem (by simp)
  intro j h1 h2
  simp only [anyUnderZero, List.getElem_map, List.getElem_mapIdx]
  split <;> simp_all

/-- What a consumer may read does not depend on the free bits. -/
theorem seen_phyOf (t : Nat) (e : Emit) : seen (phyOf t e) = seen ⟨e.first, e.last, e.slots⟩ := by
  simp only [seen, phyOf, PhyWord.mk.injEq, true_and]
  apply List.ext_getElem (by simp)
  intro j h1 h2
  simp only [anyUnderZero, List.getElem_map, List.getElem_mapIdx]
  split <;> simp_all

/-- In state `HEADER` (R190 to R192). -/
theorem planHeader_cases {d : Nat} {cnt : BitVec 1} {sL : BitVec 4} {i : RawWord} {pl : Plan}
    (h : planHeader d cnt sL i = some pl) :
    (i.valid = false ∧ pl = ⟨none, false⟩) ∨
    (i.valid = true ∧ i.first = true ∧
      ((cntOf d cnt + 1 < headerWords d (headerSize i.fmt) ∧
        pl = ⟨some ⟨hdrOnly d (cntOf d cnt) i, cntOf d cnt == 0, false, .header, cnt + 1, sL⟩, false⟩) ∨
      (¬ cntOf d cnt + 1 < headerWords d (headerSize i.fmt) ∧
        fits i.last i.slots (shiftOf d (headerSize i.fmt)) = true ∧
        pl = ⟨some ⟨hdrLast d (cntOf d cnt) (headerRest d (headerSize i.fmt)) i, cntOf d cnt == 0, true, .header,
          0, sL⟩, true⟩) ∨
      (¬ cntOf d cnt + 1 < headerWords d (headerSize i.fmt) ∧
        fits i.last i.slots (shiftOf d (headerSize i.fmt)) = false ∧
        pl = ⟨some ⟨hdrLast d (cntOf d cnt) (headerRest d (headerSize i.fmt)) i, cntOf d cnt == 0, false, .data,
          0, BitVec.ofNat 4 (shiftOf d (headerSize i.fmt))⟩, decide (0 < shiftOf d (headerSize i.fmt))⟩))) := by
  unfold planHeader at h
  cases hv : i.valid
  · left; simp [hv] at h; exact ⟨rfl, h.symm⟩
  · cases hf : i.first
    · simp [hv, hf] at h
    · right
      simp only [hv, hf] at h
      refine ⟨rfl, rfl, ?_⟩
      by_cases hc : cntOf d cnt + 1 < headerWords d (headerSize i.fmt)
      · left; simp [hc] at h; exact ⟨hc, h.symm⟩
      · right
        cases ht : fits i.last i.slots (shiftOf d (headerSize i.fmt))
        · right; simp [hc, ht] at h; exact ⟨hc, rfl, h.symm⟩
        · left; simp [hc, ht] at h; exact ⟨hc, rfl, h.symm⟩

/-- In state `DATA` with the sliding window (R194). -/
theorem planWindow_cases {d : Nat} {cnt : BitVec 1} {sL : BitVec 4} {c : Carry} {i : RawWord} {pl : Plan}
    (h : planWindow d cnt sL c i = some pl) :
    (i.valid = false ∧ pl = ⟨none, true⟩) ∨
    (i.valid = true ∧ i.first = false ∧
      pl = ⟨some ⟨window d (sLOf d sL) c i, false, fits i.last i.slots (sLOf d sL),
        if fits i.last i.slots (sLOf d sL) then .header else .data, cnt, sL⟩, true⟩) := by
  unfold planWindow at h
  cases hv : i.valid
  · left; simp [hv] at h; exact ⟨rfl, h.symm⟩
  · cases hf : i.first
    · right; simp [hv, hf] at h; exact ⟨rfl, rfl, h.symm⟩
    · simp [hv, hf] at h

/-- What the inserter does in a step, by its state (R190 to R195). -/
theorem planOf_cases {s : State} {i : RawWord} {pl : Plan} (h : planOf s i = some pl) :
    (s.st = .header ∧ planHeader s.cfg.D s.cnt s.sL i = some pl) ∨
    (s.st = .data ∧ sLOf s.cfg.D s.sL = 0 ∧ pl = planPass s.cnt s.sL i) ∨
    (s.st = .data ∧ sLOf s.cfg.D s.sL ≠ 0 ∧ s.carry.last = true ∧ pl = planFlush s.cfg.D s.cnt s.sL s.carry) ∨
    (s.st = .data ∧ sLOf s.cfg.D s.sL ≠ 0 ∧ s.carry.last = false ∧
      planWindow s.cfg.D s.cnt s.sL s.carry i = some pl) := by
  unfold planOf at h
  cases hst : s.st <;> rw [hst] at h
  · exact .inl ⟨rfl, h⟩
  · right
    by_cases hs : sLOf s.cfg.D s.sL = 0
    · left; simp [hs] at h; exact ⟨rfl, hs, h.symm⟩
    · right
      cases hl : s.carry.last
      · right; simp [hs, hl] at h; exact ⟨rfl, hs, rfl, h⟩
      · left; simp [hs, hl] at h; exact ⟨rfl, hs, rfl, h.symm⟩

/-- An input word is taken only together with an output word (R198). -/
theorem planOf_takes_emits {s : State} {i : RawWord} {pl : Plan} (h : planOf s i = some pl)
    (hv : i.valid = true) (ht : pl.takes = true) : pl.emit.isSome = true := by
  rcases planOf_cases h with ⟨-, h⟩ | ⟨-, -, rfl⟩ | ⟨-, -, -, rfl⟩ | ⟨-, -, -, h⟩
  · rcases planHeader_cases h with ⟨h', rfl⟩ | ⟨-, -, ⟨-, rfl⟩ | ⟨-, -, rfl⟩ | ⟨-, -, rfl⟩⟩
    · simp [hv] at h'
    · simp at ht
    · rfl
    · rfl
  · simp [planPass, hv]
  · rfl
  · rcases planWindow_cases h with ⟨h', rfl⟩ | ⟨-, -, rfl⟩
    · simp [hv] at h'
    · rfl

/-! ## The whole step -/

/-- Everything the whole-step function can answer: under reset the reset state; else, on a state without a fault,
the recorded violation, the inserter's own violation, or the registers of an ordinary step. -/
theorem cycle_cases {inp : Inputs} {s t : State} (h : cycle inp s = .next t) :
    (inp.rst = true ∧ t = resetStep s) ∨
    (inp.rst = false ∧ s.fault = none ∧
      ((∃ c i, violationOf s inp = some (c, i) ∧ t = raise c i s) ∨
       (violationOf s inp = none ∧ planOf s (rawOf inp s) = none ∧ t = raise .firstMisplaced .raw s) ∨
       (∃ pl, violationOf s inp = none ∧ planOf s (rawOf inp s) = some pl ∧ t = commit inp s pl))) := by
  unfold cycle at h
  cases hr : inp.rst
  · right
    simp only [hr] at h
    cases hf : s.fault
    · refine ⟨rfl, rfl, ?_⟩
      rcases hv : violationOf s inp with - | ⟨c, i⟩
      · right
        rcases hp : planOf s (rawOf inp s) with - | pl
        · left; simp [hf, hv, hp] at h; exact ⟨rfl, rfl, h.symm⟩
        · right; simp [hf, hv, hp] at h; exact ⟨pl, rfl, rfl, h.symm⟩
      · left; simp [hf, hv] at h; exact ⟨c, i, rfl, h.symm⟩
    · simp [hf] at h
  · left; simp [hr] at h; exact ⟨rfl, h.symm⟩

/-- The whole-step function on a lawful input is an ordinary step. -/
theorem cycle_commit {inp : Inputs} {s : State} {pl : Plan} (hr : inp.rst = false) (hf : s.fault = none)
    (hv : violationOf s inp = none) (hp : planOf s (rawOf inp s) = some pl) :
    cycle inp s = .next (commit inp s pl) := by
  simp [cycle, hr, hf, hv, hp]

/-- An ordinary step leaves no fault. -/
theorem cycle_faultFree {inp : Inputs} {s t : State} (h : cycle inp s = .next t) (hr : inp.rst = false)
    (hf : t.fault = none) :
    ∃ pl, s.fault = none ∧ violationOf s inp = none ∧ planOf s (rawOf inp s) = some pl ∧
      t = commit inp s pl := by
  rcases cycle_cases h with ⟨h', -⟩ | ⟨-, h0, ⟨c, i, -, rfl⟩ | ⟨-, -, rfl⟩ | ⟨pl, hv, hp, rfl⟩⟩
  · simp [hr] at h'
  · simp at hf
  · simp at hf
  · exact ⟨pl, h0, hv, hp, rfl⟩

/-- The meaning of an operation is the whole-step function with the operation on its stream, or the refusal of an
operand that names no input. -/
theorem exec_cases (i : Instr) (s : State) :
    exec i s = .refused .namesNoInput ∨
    ∃ inp, exec i s = cycle inp s ∧ inp.rst = (inputsOf s).rst ∧ inp.ready = (inputsOf s).ready ∧
      ((i.isRequest = true ∧ inp.cmp = (inputsOf s).cmp ∧ inp.req.valid = true) ∨
       (i.isRequest = false ∧ inp.req = (inputsOf s).req ∧ inp.cmp.valid = true)) := by
  cases i with
  | mrd32 adr len reqId tag => exact .inr ⟨_, rfl, rfl, rfl, .inl ⟨rfl, rfl, rfl⟩⟩
  | mwr32 adr len reqId tag => exact .inr ⟨_, rfl, rfl, rfl, .inl ⟨rfl, rfl, rfl⟩⟩
  | mrd64 adr len reqId tag =>
    simp only [exec, execMrd64]
    split
    · exact .inr ⟨_, rfl, rfl, rfl, .inl ⟨rfl, rfl, rfl⟩⟩
    · exact .inl rfl
  | mwr64 adr len reqId tag =>
    simp only [exec, execMwr64]
    split
    · exact .inr ⟨_, rfl, rfl, rfl, .inl ⟨rfl, rfl, rfl⟩⟩
    · exact .inl rfl
  | cpl cmpId reqId tag ladr len => exact .inr ⟨_, rfl, rfl, rfl, .inr ⟨rfl, rfl, rfl⟩⟩
  | cpld cmpId reqId tag ladr len => exact .inr ⟨_, rfl, rfl, rfl, .inr ⟨rfl, rfl, rfl⟩⟩

/-- What a step is: the operation fetched, or the whole-step function where none is. -/
theorem step_of_fetch {s : State} {i : Instr} (h : fetch s = some i) : step s = exec i s := by
  simp [step, h]

theorem step_of_no_fetch {s : State} (h : fetch s = none) : step s = cycle (inputsOf s) s := by
  simp [step, h]

end Sys2Proof.Machine
end

