-- ==== Sys2Proof/Laws/PerInstr.lean ====
section
/-! SUPPORT. Statements made of every operation as syntax, one lemma per constructor. -/

/-- Of every operation: its header has the dwords its kind has (R92, R94), and dword 0 matches exactly its own row of
the opcode map (R96). -/
def Sys2Proof.Laws.HeaderCode.Statement (i : Sys2Proof.Instr) : Prop :=
  (Sys2Proof.encode i).length = i.headerDwords ∧
    ∃ row ∈ Sys2Proof.opcodeMap,
      (∀ d ∈ (Sys2Proof.encode i).head?, d &&& row.mask = row.pattern) ∧
      ∀ row' ∈ Sys2Proof.opcodeMap, row'.pattern = row.pattern → row' = row

namespace Sys2Proof.Laws.HeaderCode

/-- The row of a kind, for an operation whose header starts with the kind's dword 0. -/
theorem row_of_kind (k : Kind) (len : BitVec 10) (rest : List Dword) :
    ∃ row ∈ opcodeMap, (∀ d ∈ (encodeDw0 k len :: rest).head?, d &&& row.mask = row.pattern) ∧
      ∀ row' ∈ opcodeMap, row'.pattern = row.pattern → row' = row := by
  refine ⟨⟨k, kindPattern k, kindMask⟩, ?_, ?_, ?_⟩
  · cases k <;> decide
  · simpa using encodeDw0_and_kindMask k len
  · cases k <;> decide

theorem mrd32 (adr : BitVec 32) (len : BitVec 10) (reqId : BitVec 16) (tag : BitVec 8) :
    Statement (.mrd32 adr len reqId tag) := ⟨rfl, row_of_kind .mrd32 len _⟩

theorem mwr32 (adr : BitVec 32) (len : BitVec 10) (reqId : BitVec 16) (tag : BitVec 8) :
    Statement (.mwr32 adr len reqId tag) := ⟨rfl, row_of_kind .mwr32 len _⟩

theorem mrd64 (adr : BitVec 64) (len : BitVec 10) (reqId : BitVec 16) (tag : BitVec 8) :
    Statement (.mrd64 adr len reqId tag) := ⟨rfl, row_of_kind .mrd64 len _⟩

theorem mwr64 (adr : BitVec 64) (len : BitVec 10) (reqId : BitVec 16) (tag : BitVec 8) :
    Statement (.mwr64 adr len reqId tag) := ⟨rfl, row_of_kind .mwr64 len _⟩

theorem cpl (cmpId reqId : BitVec 16) (tag ladr : BitVec 8) (len : BitVec 10) :
    Statement (.cpl cmpId reqId tag ladr len) := ⟨rfl, row_of_kind .cpl len _⟩

theorem cpld (cmpId reqId : BitVec 16) (tag ladr : BitVec 8) (len : BitVec 10) :
    Statement (.cpld cmpId reqId tag ladr len) := ⟨rfl, row_of_kind .cpld len _⟩

end Sys2Proof.Laws.HeaderCode
end

