-- ==== Sys2Proof/Tests/Slice0.lean ====
section
/-! SUPPORT. Tests of single steps and words against the vectors of spec/95_test_vectors.md, the well-formedness
smoke, and a witness for the hypotheses of every statement that has some. -/

namespace Sys2Proof.Tests

open Sys2Proof.Machine Sys2Proof.Claims

/-! ## Helpers -/

/-- An instance of a width, `NoSwap`, `AW = 64`. -/
def inst (w : Width) : Params := ⟨w, .a64, .noSwap, .prioCmp⟩

/-- The machine at reset on an instance of a width, with one packet loaded. -/
def loaded (w : Width) (i : Instr) (data : List Dword) : State :=
  loadPacket ⟨i, data⟩ (State.resetFor (inst w))

/-- The state a step answers, if it answers one. -/
def nextOf (o : Host.Outcome State Fault Refusal) : Option State :=
  match o with
  | .next t => some t
  | .fault _ => none
  | .refused _ => none

/-- The last word emitted, as a consumer sees it: `first`, `last`, and each slot's dword, none for an empty one. -/
def shown (o : Host.Outcome State Fault Refusal) : Option (Bool × Bool × List (Option Dword)) :=
  ((nextOf o).bind fun t => t.sent.getLast?).map fun w =>
    (w.first, w.last, w.slots.map fun x => if x.be = noneEnabled then none else some x.dat)

/-- The registers of the traces of spec/95, part 3: `st`, `cnt`, `sL`, `grant`, `carry.last`. -/
def regs (o : Host.Outcome State Fault Refusal) : Option (Phase × BitVec 1 × BitVec 4 × Grant × Bool) :=
  (nextOf o).map fun t => (t.st, t.cnt, t.sL, t.grant, t.carry.last)

/-- The fault a step records. -/
def recorded (o : Host.Outcome State Fault Refusal) : Option (Code × StreamId) :=
  ((nextOf o).bind (·.fault)).map fun v => (v.code, v.stream)

/-! ## The operations of the vectors -/

/-- V-RF 1. -/
def aRead : Instr := .mrd32 0x1000#32 1#10 0x0100#16 5#8
/-- V-RF 3. -/
def aWrite : Instr := .mwr32 0x2000#32 1#10 0x0100#16 1#8
/-- V-RF 5. -/
def aRead64 : Instr := .mrd64 0x100000000#64 1#10 0x0100#16 9#8
/-- V-RF 6, the source's first example. -/
def aWrite64 : Instr := .mwr64 0x100000001000#64 2#10 0x0100#16 5#8
/-- V-CF 3, the source's second example. -/
def anError : Instr := .cpl 0x0200#16 0x0100#16 9#8 0x00#8 0#10
/-- V-CF 1. -/
def aCompletion : Instr := .cpld 0x0200#16 0x0100#16 7#8 0x44#8 1#10
/-- The write of R209. -/
def longWrite : Instr := .mwr32 0x4000#32 6#10 0x0100#16 4#8
/-- Its payload. -/
def longData : List Dword := [0xD0#32, 0xD1#32, 0xD2#32, 0xD3#32, 0xD4#32, 0xD5#32]

/-! ## Well-formedness: an ill-formed term for each check -/

theorem test_wf_accepts :
    (aRead.wellFormed && aWrite.wellFormed && aRead64.wellFormed && aWrite64.wellFormed && anError.wellFormed &&
      aCompletion.wellFormed && (Packet.mk longWrite longData).wellFormed) = true := by decide
theorem test_wf_mrd32_len : (Instr.mrd32 0x1000#32 0#10 0#16 0#8).wellFormed = false := by decide
theorem test_wf_mwr32_len : (Instr.mwr32 0x1000#32 0#10 0#16 0#8).wellFormed = false := by decide
theorem test_wf_mrd64_len : (Instr.mrd64 0x100000000#64 0#10 0#16 0#8).wellFormed = false := by decide
theorem test_wf_mrd64_hi : (Instr.mrd64 0xFFFFFFFF#64 1#10 0#16 0#8).wellFormed = false := by decide
theorem test_wf_mwr64_len : (Instr.mwr64 0x100000000#64 0#10 0#16 0#8).wellFormed = false := by decide
theorem test_wf_mwr64_hi : (Instr.mwr64 0xFFFFFFFF#64 1#10 0#16 0#8).wellFormed = false := by decide
theorem test_wf_payload_short : (Packet.mk longWrite [0xD0#32]).wellFormed = false := by decide
theorem test_wf_payload_of_read : (Packet.mk aRead [0xD0#32]).wellFormed = false := by decide

/-! ## Decoding: the words of spec/95 V-RF, V-CF, V-RT written out -/

theorem test_decode_mrd32 :
    (decode [0x00000004#32, 0x010006FF#32, 0xFFFFFFFC#32]).toOption =
      some (.mrd32 0xFFFFFFFC#32 4#10 0x0100#16 6#8, []) := by decide
theorem test_decode_mwr32 :
    (decodePacket [0x40000001#32, 0x0100010F#32, 0x00002000#32, 0xDDDD0000#32]).toOption =
      some (⟨aWrite, [0xDDDD0000#32]⟩, []) := by decide
theorem test_decode_mrd64 :
    (decode [0x200003FF#32, 0xFFFFAAFF#32, 0x12345678#32, 0x9ABCDEF0#32]).toOption =
      some (.mrd64 0x123456789ABCDEF0#64 1023#10 0xFFFF#16 0xAA#8, []) := by decide
theorem test_decode_mwr64 :
    (decodePacket [0x60000002#32, 0x010005FF#32, 0x00001000#32, 0x00001000#32, 0xAAAAAAAA#32,
      0xBBBBBBBB#32]).toOption = some (⟨aWrite64, [0xAAAAAAAA#32, 0xBBBBBBBB#32]⟩, []) := by decide
theorem test_decode_cpl :
    (decode [0x0A000001#32, 0x02002004#32, 0x01000A7C#32]).toOption =
      some (.cpl 0x0200#16 0x0100#16 10#8 0x7C#8 1#10, []) := by decide
theorem test_decode_cpld :
    (decodePacket [0x4A000003#32, 0x0200000C#32, 0x01000C00#32, 0xC1#32, 0xC2#32, 0xC3#32]).toOption =
      some (⟨.cpld 0x0200#16 0x0100#16 12#8 0#8 3#10, [0xC1#32, 0xC2#32, 0xC3#32]⟩, []) := by decide
/-- R97 a: `DW0[30:24] = 0x01` is no kind of this hardware. -/
theorem test_decode_refuses :
    (match decode [0x01000000#32, 0#32, 0#32] with
      | .error e => decide (e = .unknownKind 0b00#2 0b00001#5)
      | .ok _ => false) = true := by decide
/-- R98: every field of V-RF 3 and V-CF 3, the enables, `status` and `byte_count` among them. -/
theorem test_decode_fields :
    (decodeTlp [0x40000001#32, 0x0100010F#32, 0x00002000#32, 0xDDDD0000#32]).toOption =
      some (⟨.mwr32 ⟨1#10, 0x0100#16, 1#8, 0x0#4, 0xF#4, 0x2000#64⟩, [0xDDDD0000#32]⟩, []) ∧
    (decodeTlp [0x0A000000#32, 0x02002000#32, 0x01000900#32]).toOption =
      some (⟨.cpl ⟨0#10, 0x0200#16, 0b001#3, 0x000#12, 0x0100#16, 9#8, 0x00#7⟩, []⟩, []) := by decide
theorem test_table_word :
    decodeTableWord 32 0x4A000000 = some (.cpld 0#16 0#16 0#8 0#8 0#10) ∧
    decodeTableWord 128 0x00001000000010000100050F20000001 =
      some (.mrd64 0x0000100000001000#64 1#10 0x0100#16 5#8) := by decide

/-! ## Encoder and converter -/

/-- V-HE. -/
theorem test_raw_headers :
    rawHeaderOf aRead = 0x00000000000010000100050F00000001#128 ∧
    rawHeaderOf aWrite64 = 0x0000100000001000010005FF60000002#128 ∧
    rawHeaderOf aCompletion = 0x0000000001000744020000044A000001#128 ∧
    rawHeaderOf anError = 0x0000000001000900020020000A000000#128 := by decide
/-- V-CF 5: bit 7 of `lower_address` is dropped; `byte_count = 0xFFC`. -/
theorem test_lower_address :
    headerOf (.cpld 0x0200#16 0x0100#16 11#8 0xFF#8 1023#10) =
      [0x4A0003FF#32, 0x02000FFC#32, 0x01000B7F#32] := by decide
/-- V-EC. -/
theorem test_swap :
    conv .swap 0x60000002#32 = 0x02000060#32 ∧ conv .swap 0xAABBCCDD#32 = 0xDDCCBBAA#32 ∧
      convBe .swap 0x1#4 = 0x8#4 ∧ convBe .swap 0xF#4 = 0xF#4 := by decide
/-- V-RF, payload enables: `D = 4`, `len = 6`: `FFFF`, then `00FF`. -/
theorem test_enables :
    ((packetReqWords 4 ⟨longWrite, longData⟩).map fun w => beBits (rawReq (inst .w128) w).slots) =
      [0xFFFF#64, 0x00FF#64] := by decide

/-! ## One step of each operation -/

/-- `MRD32` on `D = 4` (V-HI `N = 0`): one word, three dwords. -/
theorem test_mrd32 :
    shown (exec aRead (loaded .w128 aRead [])) =
      some (true, true, [some 0x00000001#32, some 0x0100050F#32, some 0x00001000#32, none]) := by decide
/-- `MRD32` on `D = 2`: header word 0 leaves and the input word is not taken. -/
theorem test_mrd32_narrow :
    regs (exec aRead (loaded .w64 aRead [])) = some (.header, 1#1, 0#4, .req, false) := by decide
/-- `MWR32` on `D = 4` (V-RF 3): the payload dword fills the header word. -/
theorem test_mwr32 :
    shown (exec aWrite (loaded .w128 aWrite [0xDDDD0000#32])) =
      some (true, true, [some 0x40000001#32, some 0x0100010F#32, some 0x00002000#32, some 0xDDDD0000#32]) := by
  decide
/-- `MWR32` of six dwords on `D = 4`, step 0 of the trace of R209. -/
theorem test_mwr32_window :
    regs (exec longWrite (loaded .w128 longWrite longData)) = some (.data, 0#1, 1#4, .req, false) := by decide
/-- `MRD64` on `D = 8`: four dwords in one word. -/
theorem test_mrd64 :
    shown (exec aRead64 (loaded .w256 aRead64 [])) =
      some (true, true, [some 0x20000001#32, some 0x0100090F#32, some 0x00000001#32, some 0x00000000#32, none,
        none, none, none]) := by decide
/-- `MRD64` on an instance with a 32-bit address port names no input (R100, decision D16). -/
theorem test_mrd64_refused :
    (match exec aRead64 (State.resetFor ⟨.w128, .a32, .noSwap, .prioReq⟩) with
      | .refused r => decide (r = .namesNoInput)
      | .next _ => false
      | .fault _ => false) = true := by decide
/-- `MWR64` on `D = 8` (S1). -/
theorem test_mwr64 :
    shown (exec aWrite64 (loaded .w256 aWrite64 [0xAAAAAAAA#32, 0xBBBBBBBB#32])) =
      some (true, true, [some 0x60000002#32, some 0x010005FF#32, some 0x00001000#32, some 0x00001000#32,
        some 0xAAAAAAAA#32, some 0xBBBBBBBB#32, none, none]) := by decide
/-- `MWR64` on `D = 2`, step 0 of P1. -/
theorem test_mwr64_narrow :
    regs (exec aWrite64 (loaded .w64 aWrite64 [0xAAAAAAAA#32, 0xBBBBBBBB#32])) =
      some (.header, 1#1, 0#4, .req, false) := by decide
/-- `CPL` on `D = 4` (S2): no payload, and no fault. -/
theorem test_cpl :
    shown (exec anError (loaded .w128 anError [])) =
      some (true, true, [some 0x0A000000#32, some 0x02002000#32, some 0x01000900#32, none]) ∧
    recorded (exec anError (loaded .w128 anError [])) = none := by decide
/-- `CPLD` on `D = 4` (V-CF 1). -/
theorem test_cpld :
    shown (exec aCompletion (loaded .w128 aCompletion [0xC0000000#32])) =
      some (true, true, [some 0x4A000001#32, some 0x02000004#32, some 0x01000744#32, some 0xC0000000#32]) := by
  decide
/-- `CPLD` with `Swap` (V-EC). -/
theorem test_cpld_swap :
    shown (exec aCompletion (loadPacket ⟨aCompletion, [0xC0000000#32]⟩
        (State.resetFor ⟨.w128, .a64, .swap, .prioReq⟩))) =
      some (true, true, [some 0x0100004A#32, some 0x04000002#32, some 0x44070001#32, some 0x000000C0#32]) := by
  decide

/-! ## Steps in `DATA`, faults, reset -/

/-- A state in `DATA` with the first word of the long write carried: step 1 of R209. -/
def midWindow : State :=
  { loaded .w128 longWrite longData with
    st := .data, sL := 1, grant := .req
    carry := ⟨[⟨0xD0#32, 0xF#4⟩, ⟨0xD1#32, 0xF#4⟩, ⟨0xD2#32, 0xF#4⟩, ⟨0xD3#32, 0xF#4⟩], false⟩
    monReq := ⟨true, none, 1, some ⟨true, 0x4000#64, 6#10, 0x0100#16, 4#8⟩⟩
    reqQ := (packetReqWords 4 ⟨longWrite, longData⟩).drop 1 }

/-- A state in `DATA` with the last word of the long write carried and a read on offer: step 2 of R209. -/
def midFlush : State :=
  { loaded .w128 aRead [] with
    st := .data, sL := 1
    carry := ⟨[⟨0xD4#32, 0xF#4⟩, ⟨0xD5#32, 0xF#4⟩, ⟨0#32, 0x0#4⟩, ⟨0#32, 0x0#4⟩], true⟩ }

/-- A state in `DATA` with `sL = 0`: step 2 of P1. -/
def midPass : State :=
  { loaded .w64 aWrite64 [0xAAAAAAAA#32, 0xBBBBBBBB#32] with st := .data, grant := .req }

theorem test_window :
    shown (step midWindow) =
      some (false, false, [some 0xD1#32, some 0xD2#32, some 0xD3#32, some 0xD4#32]) ∧
    regs (step midWindow) = some (.data, 0#1, 1#4, .idle, true) := by decide
theorem test_flush :
    shown (step midFlush) = some (false, true, [some 0xD5#32, none, none, none]) ∧
    regs (step midFlush) = some (.header, 0#1, 1#4, .req, true) := by decide
theorem test_pass :
    shown (step midPass) = some (false, true, [some 0xAAAAAAAA#32, some 0xBBBBBBBB#32]) ∧
    regs (step midPass) = some (.header, 0#1, 0#4, .idle, true) := by decide

/-- The machine on `D = 4` with one word driven on `req_in`. -/
def driven (w : ReqIn) : State :=
  { State.resetFor (inst .w128) with env := [⟨false, true, .signals w, .queue⟩] }

/-- V-F 3. -/
theorem test_fault_first :
    recorded (step (driven ⟨true, false, true, true, 0x2000#64, 1#10, 0#16, 0#8, []⟩)) =
      some (.firstMisplaced, .reqIn) := by decide
/-- V-F 5. -/
theorem test_fault_last :
    recorded (step (driven ⟨true, true, true, true, 0x2000#64, 5#10, 0#16, 0#8, []⟩)) =
      some (.lastMisplaced, .reqIn) := by decide
/-- V-F 7. -/
theorem test_fault_zero :
    recorded (step (driven ⟨true, true, true, true, 0x2000#64, 0#10, 0#16, 0#8, []⟩)) =
      some (.zeroLengthRequest, .reqIn) := by decide
/-- V-F 9: the more specific code is recorded. -/
theorem test_fault_multi :
    recorded (step (driven ⟨true, true, false, false, 0x2000#64, 1#10, 0#16, 0#8, []⟩)) =
      some (.multiWordNoData, .reqIn) := by decide
/-- V-F 1: the offer is withdrawn before its transfer. -/
theorem test_fault_retracted :
    recorded (step { driven ReqIn.idle with
        monReq := ⟨false, some (ReqIn.onPort (inst .w128) (reqOfInstr aRead)), 0, none⟩ }) =
      some (.offerRetracted, .reqIn) := by decide
/-- V-F 8: a side field changes inside a packet. -/
theorem test_fault_params :
    recorded (step { midWindow with monReq := ⟨true, none, 1, some ⟨true, 0x4000#64, 6#10, 0x0100#16, 3#8⟩⟩ }) =
      some (.paramsChanged, .reqIn) := by decide
theorem test_reset_step :
    regs (step { midWindow with env := [⟨true, true, .queue, .queue⟩] }) =
      some (.header, 0#1, 0#4, .idle, false) := by decide
/-- V-AR: `ALTERNATE` after reset, both offering. -/
theorem test_alternate :
    select (State.resetFor ⟨.w128, .a64, .noSwap, .alternate⟩) true true = some .req := by decide

/-! ## Witnesses: the hypotheses of the statements can be met -/

theorem witness_EncodeOfDecodeIsTheHeader :
    canonicalHeader [0x00000001#32, 0x0100050F#32, 0x00001000#32] = true ∧
    canonicalHeader [0x20000001#32, 0x0100090F#32, 0x00000001#32, 0#32] = true ∧
    canonicalHeader [0x0A000000#32, 0x02002000#32, 0x01000900#32] = true ∧
    (decode [0x00000001#32, 0x0100050F#32, 0x00001000#32]).toOption = some (aRead, []) := by decide
theorem witness_RequestHeadersAreAsWritten :
    (0x100000000#64 : BitVec 64).extractLsb' 32 32 ≠ 0#32 := by decide
theorem witness_HardwareHeaderIsTheEncoding : aWrite64.wellFormed = true ∧ anError.wellFormed = true := by decide
theorem witness_AddressHalvesAreSwapped :
    (reqOfInstr aRead64).adr.extractLsb' 32 32 ≠ 0#32 ∧ (reqOfInstr aRead).adr.extractLsb' 32 32 = 0#32 := by
  decide
theorem witness_EnabledSlotsAreThePayload : (Packet.mk longWrite longData).wellFormed = true := by decide
theorem witness_EnablesMoveWithTheirBytes : (0 : Nat) < 4 ∧ (3 : Nat) < 4 := by decide
theorem witness_AccessorsReadTheSlots :
    15 < (List.replicate 16 (⟨1#32, 0xF#4⟩ : Slot)).length ∧
      (List.replicate 16 (⟨1#32, 0xF#4⟩ : Slot)).length ≤ 16 ∧ (3 : Nat) < 4 := by decide

/-- A machine whose grant is the completion stream's, a completion on offer. -/
def cmpGranted : State :=
  { loaded .w128 aCompletion [0xC0000000#32] with grant := .cmp }

theorem witness_ArbiterSelection :
    (midWindow.fault = none ∧ midWindow.grant = .req) ∧ (cmpGranted.fault = none ∧ cmpGranted.grant = .cmp) ∧
      (midFlush.fault = none ∧ midFlush.grant = .idle) := ⟨⟨rfl, rfl⟩, ⟨rfl, rfl⟩, ⟨rfl, rfl⟩⟩
theorem witness_GrantUpdate :
    ∃ t, step midWindow = .next t ∧ (inputsOf midWindow).rst = false ∧ t.fault = none :=
  ⟨_, rfl, rfl, rfl⟩
theorem witness_GrantIsPacketAtomic :
    (∃ t, step midWindow = .next t ∧ t.fault = none ∧ midWindow.grant = .req) ∧
    (∃ t, step cmpGranted = .next t ∧ t.fault = none ∧ cmpGranted.grant = .cmp) :=
  ⟨⟨_, rfl, rfl, rfl⟩, ⟨_, rfl, rfl, rfl⟩⟩

/-- Every hypothesis of `EmitsHeaderOnlyTlp` and `EmitsHeaderWord` at once, for an operation loaded at reset. -/
def HeaderHypotheses (i : Instr) (s : State) : Prop :=
  Running i s ∧ isFirst i s = true ∧ s.st = .header ∧ (inputsOf s).ready = true

theorem witness_ReadRequestsEmitTheirTlp :
    HeaderHypotheses aRead (loaded .w128 aRead []) ∧ HeaderHypotheses aRead64 (loaded .w256 aRead64 []) ∧
    HeaderHypotheses aRead (loaded .w64 aRead []) :=
  ⟨⟨⟨rfl, rfl, rfl, rfl, rfl⟩, rfl, rfl, rfl⟩, ⟨⟨rfl, rfl, rfl, rfl, rfl⟩, rfl, rfl, rfl⟩,
    ⟨⟨rfl, rfl, rfl, rfl, rfl⟩, rfl, rfl, rfl⟩⟩
theorem witness_ErrorCompletionEmitsItsTlp : HeaderHypotheses anError (loaded .w128 anError []) :=
  ⟨⟨rfl, rfl, rfl, rfl, rfl⟩, rfl, rfl, rfl⟩
theorem witness_WriteRequestsEmitTheirHeaderWords :
    HeaderHypotheses longWrite (loaded .w128 longWrite longData) ∧
    HeaderHypotheses aWrite64 (loaded .w64 aWrite64 [0xAAAAAAAA#32, 0xBBBBBBBB#32]) :=
  ⟨⟨⟨rfl, rfl, rfl, rfl, rfl⟩, rfl, rfl, rfl⟩, ⟨⟨rfl, rfl, rfl, rfl, rfl⟩, rfl, rfl, rfl⟩⟩
theorem witness_DataCompletionEmitsItsHeaderWords :
    HeaderHypotheses aCompletion (loaded .w128 aCompletion [0xC0000000#32]) :=
  ⟨⟨rfl, rfl, rfl, rfl, rfl⟩, rfl, rfl, rfl⟩
theorem witness_IllFormed64BitRequestsAreRefused :
    (State.resetFor ⟨.w128, .a32, .noSwap, .prioReq⟩).cfg.aw = .a32 ∧
      (0xFFFFFFFF#64 : BitVec 64).extractLsb' 32 32 = 0#32 := by decide
theorem witness_PassThroughWord :
    Running aWrite64 midPass ∧ midPass.st = .data ∧ sLOf midPass.cfg.D midPass.sL = 0 ∧
      (inputsOf midPass).ready = true := ⟨⟨rfl, rfl, rfl, rfl, rfl⟩, rfl, rfl, rfl⟩
theorem witness_SlidingWindowWord :
    Running longWrite midWindow ∧ isFirst longWrite midWindow = false ∧ midWindow.st = .data ∧
      sLOf midWindow.cfg.D midWindow.sL ≠ 0 ∧ midWindow.carry.last = false ∧
      midWindow.carry.slots.length = midWindow.cfg.D ∧ (inputsOf midWindow).ready = true :=
  ⟨⟨rfl, rfl, rfl, rfl, rfl⟩, rfl, rfl, by decide, rfl, rfl, rfl⟩
theorem witness_FlushWord :
    midFlush.fault = none ∧ (inputsOf midFlush).rst = false ∧ violationOf midFlush (inputsOf midFlush) = none ∧
      midFlush.st = .data ∧ sLOf midFlush.cfg.D midFlush.sL ≠ 0 ∧ midFlush.carry.last = true ∧
      midFlush.carry.slots.length = midFlush.cfg.D := ⟨rfl, rfl, rfl, rfl, by decide, rfl, rfl⟩
/-- The flush word's two clauses: the consumer ready, and not. -/
theorem witness_FlushWord_ready :
    (inputsOf midFlush).ready = true ∧
      (inputsOf { midFlush with env := [⟨false, false, .queue, .queue⟩] }).ready = false := ⟨rfl, rfl⟩

/-- The invariant holds of the flush state. -/
theorem midFlush_inv : midFlush.Inv := by
  refine ⟨?_, ?_, ?_, ?_, ?_, ?_⟩
  · unfold monitorInv; decide
  · unfold monitorInv; decide
  · unfold grantInv; decide
  · exact ⟨rfl, rfl, rfl, ⟨0xD5#32, 0xF#4⟩, by decide, by decide⟩
  · refine ⟨rfl, fun _ => rfl, fun _ => ⟨.inl rfl, fun _ => ?_⟩⟩
    unfold wholeEnables
    decide
  · intro w hw
    cases hw

theorem witness_FlushWordIsNotEmpty :
    midFlush.Inv ∧ midFlush.fault = none ∧ midFlush.st = .data ∧ sLOf midFlush.cfg.D midFlush.sL ≠ 0 ∧
      midFlush.carry.last = true :=
  ⟨midFlush_inv, rfl, rfl, by decide, rfl⟩
/-- A state whose consumer is not ready. -/
def waiting : State :=
  { loaded .w128 aRead [] with env := [⟨false, false, .queue, .queue⟩, ⟨false, false, .queue, .queue⟩] }
theorem witness_NoTransferNoChange :
    (∃ t, step waiting = .next t ∧ (inputsOf waiting).rst = false ∧ t.fault = none ∧
      (inputsOf waiting).ready = false) ∧
    (∃ t, step State.reset = .next t ∧ (inputsOf State.reset).rst = false ∧ t.fault = none ∧
      t.out.bind (·.phy) = none) :=
  ⟨⟨_, rfl, rfl, rfl, rfl⟩, ⟨_, rfl, rfl, rfl, rfl⟩⟩
theorem witness_OfferedWordWaitsUnchanged :
    ∃ t u w, step waiting = .next t ∧ step t = .next u ∧ (inputsOf waiting).rst = false ∧
      (inputsOf t).rst = false ∧ u.fault = none ∧ (inputsOf waiting).ready = false ∧
      t.out.bind (·.phy) = some w := ⟨_, _, _, rfl, rfl, rfl, rfl, rfl, rfl, rfl⟩
theorem witness_FirstMarksHeaderWordZero :
    ∃ t w, step midFlush = .next t ∧ t.fault = none ∧ t.out.bind (·.phy) = some w := ⟨_, _, rfl, rfl, rfl⟩
theorem witness_PhaseTransitions :
    (∃ t w, step midFlush = .next t ∧ (inputsOf midFlush).rst = false ∧ t.fault = none ∧
      t.out.bind (·.phy) = some w ∧ (inputsOf midFlush).ready = true ∧ w.last = true) ∧
    (∃ t w, step (loaded .w128 aRead []) = .next t ∧ t.fault = none ∧ t.out.bind (·.phy) = some w ∧ w.last = true ∧
      (loaded .w128 aRead []).st = .header) ∧
    (∃ t w, step midWindow = .next t ∧ t.fault = none ∧ t.out.bind (·.phy) = some w ∧ w.last = false ∧ midWindow.st = .data) ∧
    (∃ t w, step (loaded .w64 aRead []) = .next t ∧ t.fault = none ∧ t.out.bind (·.phy) = some w ∧ w.last = false ∧
      (loaded .w64 aRead []).st = .header) ∧
    (∃ t w, step (loaded .w128 longWrite longData) = .next t ∧ t.fault = none ∧ t.out.bind (·.phy) = some w ∧
      w.last = false ∧ t.st = .data) ∧
    (∃ t, step waiting = .next t ∧ t.fault = none ∧ (inputsOf waiting).ready = false) :=
  ⟨⟨_, _, rfl, rfl, rfl, rfl, rfl, rfl⟩, ⟨_, _, rfl, rfl, rfl, rfl, rfl⟩, ⟨_, _, rfl, rfl, rfl, rfl, rfl⟩,
    ⟨_, _, rfl, rfl, rfl, rfl, rfl⟩, ⟨_, _, rfl, rfl, rfl, rfl, rfl⟩, ⟨_, rfl, rfl, rfl⟩⟩
theorem witness_CarryTakesEveryAcceptedWord :
    ∃ t, step midWindow = .next t ∧ (inputsOf midWindow).rst = false ∧ t.fault = none := ⟨_, rfl, rfl, rfl⟩
theorem witness_OnlyAMissingInputWordStalls :
    ∃ t, step State.reset = .next t ∧ (inputsOf State.reset).rst = false ∧ t.fault = none ∧
      t.out.bind (·.phy) = none := ⟨_, rfl, rfl, rfl, rfl⟩
/-- The frame's hypotheses, for each operation. -/
theorem witness_OperationFrame :
    (∃ t, exec aRead (loaded .w128 aRead []) = .next t ∧ t.fault = none) ∧
    (∃ t, exec longWrite midWindow = .next t ∧ t.fault = none) ∧
    (∃ t, exec aRead64 (loaded .w64 aRead64 []) = .next t ∧ t.fault = none) ∧
    (∃ t, exec aWrite64 midPass = .next t ∧ t.fault = none) ∧
    (∃ t, exec anError (loaded .w128 anError []) = .next t ∧ t.fault = none) ∧
    (∃ t, exec aCompletion cmpGranted = .next t ∧ t.fault = none) :=
  ⟨⟨_, rfl, rfl⟩, ⟨_, rfl, rfl⟩, ⟨_, rfl, rfl⟩, ⟨_, rfl, rfl⟩, ⟨_, rfl, rfl⟩, ⟨_, rfl, rfl⟩⟩
/-- The frame's clauses: a step that transfers nothing, one in which each source sees `ready = 0`, a held grant. -/
theorem witness_OperationFrame_clauses :
    (∃ t, exec aRead waiting = .next t ∧ (inputsOf waiting).ready = false ∧ readySeen .req t = false ∧
      readySeen .cmp t = false) ∧ midWindow.grant ≠ .idle := ⟨⟨_, rfl, rfl, rfl, rfl⟩, by decide⟩
theorem witness_ReadPayloadIsIgnored :
    ∃ t, (inputsOf (loaded .w128 aRead [])).req.we = false ∧ (inputsOf (loaded .w128 aRead [])).rst = false ∧
      violationOf (loaded .w128 aRead []) (inputsOf (loaded .w128 aRead [])) = none ∧
      violationOf (loaded .w128 aRead [])
        { inputsOf (loaded .w128 aRead []) with
          req := { (inputsOf (loaded .w128 aRead [])).req with dat := [1#32, 2#32, 3#32, 4#32] } } = none ∧
      cycle (inputsOf (loaded .w128 aRead [])) (loaded .w128 aRead []) = .next t ∧ t.fault = none :=
  ⟨_, rfl, rfl, rfl, rfl, rfl, rfl⟩
/-- An error completion on offer to a consumer that is not ready. -/
def errorWaiting : State := { loaded .w128 anError [] with env := [⟨false, false, .queue, .queue⟩] }
/-- The error completion's word taken in the step, and waiting. -/
theorem witness_ErrorCompletionPayloadIsIgnored :
    ∀ s ∈ [loaded .w128 anError [], errorWaiting],
      (inputsOf s).cmp.err = true ∧ (inputsOf s).rst = false ∧ violationOf s (inputsOf s) = none ∧
      violationOf s { inputsOf s with cmp := { (inputsOf s).cmp with dat := [1#32, 2#32, 3#32, 4#32] } } = none ∧
      ∃ t, cycle (inputsOf s) s = .next t ∧ t.fault = none := by
  intro s hs
  rcases List.mem_pair.mp hs with rfl | rfl <;> exact ⟨rfl, rfl, rfl, rfl, _, rfl, rfl⟩
/-- A dword 0 for each of the six kind codes, and a header whose payload follows. -/
theorem witness_DecodedFieldsAreAsWritten :
    ([0x00000001#32, 0x40000001#32, 0x20000001#32, 0x60000001#32, 0x0A000001#32, 0x4A000001#32].map fun d : Dword =>
        d.extractLsb' 24 7) = [0x00#7, 0x40#7, 0x20#7, 0x60#7, 0x0A#7, 0x4A#7] ∧
    (decodeHeader [0x40000001#32, 0x0100010F#32, 0x00002000#32, 0xDDDD0000#32]).toOption =
      some (.mwr32 ⟨1#10, 0x0100#16, 1#8, 0x0#4, 0xF#4, 0x2000#64⟩, [0xDDDD0000#32]) ∧
    payloadAfter (.mwr32 ⟨1#10, 0x0100#16, 1#8, 0x0#4, 0xF#4, 0x2000#64⟩) ≤ [0xDDDD0000#32].length := by decide
theorem witness_StepRunsTheDecodedOperation :
    decodeTablePacket 128 0x00001000000010000100050F20000001 =
        some ⟨.mrd64 0x0000100000001000#64 1#10 0x0100#16 5#8, []⟩ ∧
      (Instr.mrd64 0x0000100000001000#64 1#10 0x0100#16 5#8).wellFormed = true ∧
      admits State.reset.cfg (.mrd64 0x0000100000001000#64 1#10 0x0100#16 5#8) = true := by decide
theorem witness_ParametersNeverChange : ∃ t, step midWindow = .next t := ⟨_, rfl⟩
theorem witness_QuiescentStepIsIdle :
    State.reset.quiescent ∧ (inputsOf State.reset).rst = false := ⟨⟨rfl, rfl, rfl, rfl, rfl, rfl, rfl, rfl⟩, rfl⟩
/-- A state that meets the hypotheses of the recorded violations on `req_in`, with a zero length. -/
def zeroLength : State := driven ⟨true, true, true, true, 0x2000#64, 0#10, 0#16, 0#8, []⟩
/-- One with a violation on `cmp_in` only. -/
def cmpMisplaced : State :=
  { State.resetFor (inst .w128) with
    env := [⟨false, true, .queue, .signals ⟨true, false, true, 0#16, 0#16, 0#8, 0#8, 1#10, false, []⟩⟩] }
theorem witness_ViolationIsRecorded :
    (zeroLength.fault = none ∧ (inputsOf zeroLength).rst = false ∧
      reqCheck zeroLength (inputsOf zeroLength).req = some .zeroLengthRequest) ∧
    (cmpMisplaced.fault = none ∧ (inputsOf cmpMisplaced).rst = false ∧
      reqCheck cmpMisplaced (inputsOf cmpMisplaced).req = none ∧
      cmpCheck cmpMisplaced (inputsOf cmpMisplaced).cmp = some .firstMisplaced) := by decide
theorem witness_ZeroLengthRequestIsRecorded :
    zeroLength.fault = none ∧ (inputsOf zeroLength).rst = false ∧ (inputsOf zeroLength).req.valid = true ∧
      (inputsOf zeroLength).req.len = 0#10 ∧
      retracted zeroLength.monReq (inputsOf zeroLength).req true = false ∧
      (inputsOf zeroLength).req.first = !zeroLength.monReq.inPacket ∧
      (inputsOf zeroLength).req.last = (zeroLength.monReq.wordsSeen + 1 == 1) := by decide
/-- A monitor finds each of the six codes somewhere, and nothing somewhere. -/
theorem witness_MonitorRecordsTheRightCode :
    (monitorCheck ⟨false, some (reqOfInstr aRead), 0, none⟩ ReqIn.idle false false false ReqIn.idle.params 1 false
        false : Option Code) = some .offerRetracted ∧
    monitorCheck (Monitor.fresh : Monitor ReqIn ReqParams) ReqIn.idle true false true ReqIn.idle.params 1 true
        false = some .firstMisplaced ∧
    monitorCheck (Monitor.fresh : Monitor ReqIn ReqParams) ReqIn.idle true true true ReqIn.idle.params 2 true
        false = some .lastMisplaced ∧
    monitorCheck (Monitor.fresh : Monitor ReqIn ReqParams) ReqIn.idle true true true ReqIn.idle.params 1 true
        false = some .zeroLengthRequest ∧
    monitorCheck (⟨true, none, 1, none⟩ : Monitor ReqIn ReqParams) ReqIn.idle true false true ReqIn.idle.params 2
        false false = some .paramsChanged ∧
    monitorCheck (Monitor.fresh : Monitor ReqIn ReqParams) ReqIn.idle true true false ReqIn.idle.params 1 true
        true = some .multiWordNoData ∧
    monitorCheck (Monitor.fresh : Monitor ReqIn ReqParams) ReqIn.idle true true true ReqIn.idle.params 1 false
        false = none := by decide
/-- The checks of the two streams find each code R251 gives the stream on some word, at the word count of R254. -/
theorem witness_MonitorRecordsTheRightCode_streams :
    cmpCheck State.reset ⟨true, true, false, 0, 0, 0, 0, 5#10, false, []⟩ = none ∧
    cmpCheck State.reset ⟨true, true, true, 0, 0, 0, 0, 5#10, false, []⟩ = some .lastMisplaced ∧
    cmpCheck State.reset ⟨true, true, false, 0, 0, 0, 0, 5#10, true, []⟩ = some .multiWordNoData ∧
    cmpCheck { State.reset with monCmp := ⟨true, none, 1, some ⟨0, 0, 1#8, 0, 5#10, false⟩⟩ }
      ⟨true, false, true, 0, 0, 0, 0, 5#10, false, []⟩ = some .paramsChanged ∧
    reqCheck State.reset ⟨true, true, false, true, 0, 5#10, 0, 0, []⟩ = none ∧
    reqCheck State.reset ⟨true, true, true, true, 0, 0#10, 0, 0, []⟩ = some .zeroLengthRequest := by decide
theorem witness_FaultEndsTheRun :
    (raise .firstMisplaced .raw State.reset).fault = some ⟨.firstMisplaced, .raw, 0⟩ ∧
      (inputsOf (raise .firstMisplaced .raw State.reset)).rst = false := ⟨rfl, rfl⟩
theorem witness_LawfulInputsNeverFault :
    midFlush.Inv ∧ midFlush.fault = none ∧ violationOf midFlush (inputsOf midFlush) = none :=
  ⟨midFlush_inv, rfl, rfl⟩
theorem witness_ResetStep :
    (inputsOf { midWindow with env := [⟨true, true, .queue, .queue⟩] }).rst = true := rfl
/-- A state with a recorded violation, under reset. -/
def faultedReset : State :=
  { raise .firstMisplaced .raw midWindow with env := [⟨true, true, .queue, .queue⟩] }
theorem witness_InvariantIsKept :
    (midFlush.Inv ∧ ∃ t, step midFlush = .next t ∧ t.fault = none) ∧
    (sentInv faultedReset ∧ (inputsOf faultedReset).rst = true ∧ ∃ t, step faultedReset = .next t) :=
  ⟨⟨midFlush_inv, _, rfl, rfl⟩, ⟨(fun _ hw => nomatch hw), rfl, _, rfl⟩⟩
theorem witness_LengthConservation : (Packet.mk longWrite longData).wellFormed = true := by decide
theorem witness_ByteEnableCorrectness :
    (Packet.mk longWrite longData).wellFormed = true ∧
      11 < (phys (inst .w128) ⟨longWrite, longData⟩).length * (inst .w128).D := by decide
theorem witness_WidthIndependence : (inst .w64).endian = (inst .w512).endian := rfl
theorem witness_PhysicalRoundTrip : (Packet.mk aWrite64 [1#32, 2#32]).wellFormed = true := by decide
theorem witness_PacketIsEmittedWhole :
    (Packet.mk longWrite longData).wellFormed = true ∧ admits midWindow.cfg longWrite = true := by decide
theorem witness_PacketsFollowWithoutGap :
    Loadable (inst .w128) true [⟨longWrite, longData⟩, ⟨aRead64, []⟩] ∧
      Loadable (inst .w128) false [⟨anError, []⟩, ⟨aCompletion, [1#32]⟩] := by
  unfold Loadable
  decide
theorem witness_EmittedWordsArePackets :
    Loadable (inst .w128) true [⟨aRead, []⟩] ∧ Loadable (inst .w128) false [⟨anError, []⟩] ∧
      (∀ f ∈ [Frame.mk false false .queue .gap], f.lawful = true) ∧
      ∃ t, Host.Core.run Sys2Proof.core 1
          (loadPackets [⟨aRead, []⟩] [⟨anError, []⟩] [Frame.mk false false .queue .gap]
            (State.resetFor (inst .w128))) = .next t ∧ t.fault = none := by
  refine ⟨?_, ?_, by decide, _, rfl, rfl⟩ <;> unfold Loadable <;> decide

/-- Two reads queued, the first taken, then a gap: quiescent with a packet left. -/
theorem witness_QuiescentMeansEmittedWhole :
    Loadable (inst .w128) true [⟨aRead, []⟩, ⟨aRead, []⟩] ∧ Loadable (inst .w128) false [] ∧
      (∀ f ∈ [Frame.default, Frame.mk false true .gap .gap], f.lawful = true) ∧
      ∃ t, Host.Core.run Sys2Proof.core 1
          (loadPackets [⟨aRead, []⟩, ⟨aRead, []⟩] [] [Frame.default, Frame.mk false true .gap .gap]
            (State.resetFor (inst .w128))) = .next t ∧ t.quiescent := by
  refine ⟨?_, ?_, by decide, _, rfl, rfl, rfl, rfl, rfl, rfl, rfl, rfl, rfl⟩ <;> unfold Loadable <;> decide

end Sys2Proof.Tests
end

section
/-! The frame of the machine (R6, R31, R11, R22 to R25, R172, R175): what a committed step leaves unchanged, clause by
clause, and from it what every operation and every step leaves unchanged. -/

namespace Sys2Proof.Machine

open Sys2Proof.Claims

/-! ## Every step is the whole-step function under some inputs -/

/-- Where an operation answers a next state, the whole-step function does, under inputs with the reset and the
consumer's `ready` of the step. -/
theorem exec_next_cycle {i : Instr} {s t : State} (h : exec i s = .next t) :
    ∃ inp, cycle inp s = .next t ∧ inp.rst = (inputsOf s).rst ∧ inp.ready = (inputsOf s).ready := by
  rcases exec_cases i s with hx | ⟨inp, hx, hrst, hready, -⟩
  · simp [hx] at h
  · exact ⟨inp, hx ▸ h, hrst, hready⟩

/-- The same of a step, whether it runs an operation or not. -/
theorem step_next_cycle {s t : State} (h : step s = .next t) :
    ∃ inp, cycle inp s = .next t ∧ inp.rst = (inputsOf s).rst ∧ inp.ready = (inputsOf s).ready := by
  cases hf : fetch s with
  | none => exact ⟨inputsOf s, step_of_no_fetch hf ▸ h, rfl, rfl⟩
  | some i => exact exec_next_cycle (step_of_fetch hf ▸ h)

/-! ## The parameters -/

/-- R6, R31: reset, a recorded violation and an ordinary step all keep the parameters. -/
theorem cycle_cfg {inp : Inputs} {s t : State} (h : cycle inp s = .next t) : t.cfg = s.cfg := by
  rcases cycle_cases h with ⟨-, rfl⟩ | ⟨-, -, ⟨c, i, -, rfl⟩ | ⟨-, -, rfl⟩ | ⟨pl, -, -, rfl⟩⟩
  · exact resetStep_cfg s
  · exact raise_cfg c i s
  · exact raise_cfg .firstMisplaced .raw s
  · exact commit_cfg inp s pl

/-- Settles O40: a step is the whole-step function under some inputs, and that keeps the parameters. -/
theorem parametersNeverChange : Obligations.ParametersNeverChange := by
  intro s t h
  obtain ⟨inp, hc, -, -⟩ := step_next_cycle h
  exact cycle_cfg hc

/-! ## What a committed step shows -/

/-- The `ready` a source sees in a committed step. -/
@[simp] theorem readySeen_commit (x : Source) (inp : Inputs) (s : State) (pl : Plan) :
    readySeen x (commit inp s pl) = readyTo x inp s pl := by
  cases x <;> rfl

/-- The word on `phy_out` in a committed step. -/
@[simp] theorem commit_phy (inp : Inputs) (s : State) (pl : Plan) :
    (commit inp s pl).out.bind (·.phy) = pl.emit.map (phyOf s.time) := rfl

/-! ## What a committed step leaves unchanged -/

/-- R11, R23 to R25: without a transfer on `phy_out` the inserter's registers and the words emitted stay. -/
theorem commit_no_output_transfer {inp : Inputs} {s : State} {pl : Plan}
    (h : inp.ready = false ∨ (commit inp s pl).out.bind (·.phy) = none) :
    (commit inp s pl).st = s.st ∧ (commit inp s pl).cnt = s.cnt ∧ (commit inp s pl).sL = s.sL ∧
      (commit inp s pl).sent = s.sent := by
  have hmoved : (if inp.ready then pl.emit else none : Option Emit) = none := by
    rcases h with h | h
    · simp [h]
    · simp only [commit_phy, Option.map_eq_none_iff] at h
      simp [h]
  simp [hmoved]

/-- A step emits at most one word. -/
theorem commit_sent_length_le (inp : Inputs) (s : State) (pl : Plan) :
    (commit inp s pl).sent.length ≤ s.sent.length + 1 := by
  rw [commit_sent, List.length_append]
  exact Nat.add_le_add_left Option.length_toList_le _

/-- A monitor whose stream sees `ready = 0` keeps its place in the packet. -/
theorem monitorNext_not_ready {ω π : Type} (m : Monitor ω π) (w : ω) (valid last : Bool) (side : π) :
    (monitorNext m w valid false last side).inPacket = m.inPacket ∧
      (monitorNext m w valid false last side).wordsSeen = m.wordsSeen ∧
      (monitorNext m w valid false last side).params = m.params := by
  simp [monitorNext]

/-- R172: `req_in` with `ready = 0` keeps its queue and its place in the packet. -/
theorem commit_req_not_ready {inp : Inputs} {s : State} {pl : Plan} (h : readyTo .req inp s pl = false) :
    (commit inp s pl).reqQ = s.reqQ ∧ (commit inp s pl).monReq.inPacket = s.monReq.inPacket ∧
      (commit inp s pl).monReq.wordsSeen = s.monReq.wordsSeen ∧
      (commit inp s pl).monReq.params = s.monReq.params := by
  rw [commit_reqQ, commit_monReq, h]
  exact ⟨by simp, monitorNext_not_ready ..⟩

/-- R172: the same of `cmp_in`. -/
theorem commit_cmp_not_ready {inp : Inputs} {s : State} {pl : Plan} (h : readyTo .cmp inp s pl = false) :
    (commit inp s pl).cmpQ = s.cmpQ ∧ (commit inp s pl).monCmp.inPacket = s.monCmp.inPacket ∧
      (commit inp s pl).monCmp.wordsSeen = s.monCmp.wordsSeen ∧
      (commit inp s pl).monCmp.params = s.monCmp.params := by
  rw [commit_cmpQ, commit_monCmp, h]
  exact ⟨by simp, monitorNext_not_ready ..⟩

/-- R172: a word moves on `raw` only where the selected source sees `ready = 1`. -/
theorem rawXfer_eq_false {inp : Inputs} {s : State} {pl : Plan} (hreq : readyTo .req inp s pl = false)
    (hcmp : readyTo .cmp inp s pl = false) : rawXfer inp s pl = false := by
  cases hsel : selOf inp s with
  | none => simp [rawXfer, rawOf_none hsel, RawWord.idle]
  | some x =>
    have htakes : (pl.takes && inp.ready) = false := by
      cases x with
      | req => simpa [readyTo, hsel] using hreq
      | cmp => simpa [readyTo, hsel] using hcmp
    simp [rawXfer, htakes]

/-- R22: where no source sees `ready = 1` the carry register stays. -/
theorem commit_carry_not_ready {inp : Inputs} {s : State} {pl : Plan} (hreq : readyTo .req inp s pl = false)
    (hcmp : readyTo .cmp inp s pl = false) : (commit inp s pl).carry = s.carry := by
  simp [carryNext, rawXfer_eq_false hreq hcmp]

/-- R175: the policy's state changes only in a step that starts with the grant idle. -/
theorem policyStep_of_granted {s : State} (h : s.grant ≠ .idle) (sel : Option Source) :
    policyStep s sel = s.policy := by
  cases hg : s.grant with
  | idle => exact absurd hg h
  | req => simp [policyStep, hg]
  | cmp => simp [policyStep, hg]

/-- Settles O36: an operation that records no violation commits a step of the whole machine, whose frame the lemmas
above give. -/
theorem operationFrame : Obligations.OperationFrame := by
  intro i s t h hrst hfault
  obtain ⟨inp, hc, hr, hready⟩ := exec_next_cycle h
  obtain ⟨pl, -, -, -, rfl⟩ := cycle_faultFree hc (hr.trans hrst) hfault
  rw [← hready, readySeen_commit, readySeen_commit]
  exact ⟨commit_cfg .., commit_env .., commit_time .., ⟨_, (commit_sent inp s pl).symm⟩,
    commit_sent_length_le inp s pl, commit_no_output_transfer, commit_req_not_ready, commit_cmp_not_ready,
    commit_carry_not_ready, fun hg => (commit_policy inp s pl).trans (policyStep_of_granted hg _)⟩

end Sys2Proof.Machine
end

section
/-! The accessors of R9 on packed words (R55): a field of a vector that is packed field by field, lowest first. -/

namespace Sys2Proof.Machine

/-- The lowest field of a packed vector is the one packed last. -/
theorem extractLsb'_pack_zero {m n : Nat} (hn : n ≤ m) (d : BitVec n) (x : BitVec m) :
    (d.setWidth m ||| x <<< n).extractLsb' 0 n = d := by
  ext k hk
  have hkm : k < m := by omega
  simp [hk, hkm]

/-- Every other field is the next lower one of what was packed before. -/
theorem extractLsb'_pack_succ {m n j : Nat} (hj : n * (j + 1) + n ≤ m) (d : BitVec n) (x : BitVec m) :
    (d.setWidth m ||| x <<< n).extractLsb' (n * (j + 1)) n = x.extractLsb' (n * j) n := by
  ext k hk
  have hidx : n * (j + 1) + k = n + (n * j + k) := by ring
  have hhigh : n + (n * j + k) < m := by omega
  have hlow : n * j + k < m := by omega
  simp [hidx, hhigh, hlow]

/-- Packed dwords are read back by their index, as far as the vector reaches. -/
theorem dw_packDat (ds : List Dword) (j : Nat) (h : j < ds.length) (h16 : j < 16) :
    dw (packDat ds) j = ds[j] := by
  induction ds generalizing j with
  | nil => simp at h
  | cons d ds ih =>
    cases j with
    | zero => exact extractLsb'_pack_zero (by decide) d (packDat ds)
    | succ j =>
      exact (extractLsb'_pack_succ (by omega) d (packDat ds)).trans
        (ih j (Nat.lt_of_succ_lt_succ h) (Nat.lt_of_succ_lt h16))

/-- The same of packed nibbles. -/
theorem nib_packBe (ns : List Nibble) (j : Nat) (h : j < ns.length) (h16 : j < 16) :
    nib (packBe ns) j = ns[j] := by
  induction ns generalizing j with
  | nil => simp at h
  | cons n ns ih =>
    cases j with
    | zero => exact extractLsb'_pack_zero (by decide) n (packBe ns)
    | succ j =>
      exact (extractLsb'_pack_succ (by omega) n (packBe ns)).trans
        (ih j (Nat.lt_of_succ_lt_succ h) (Nat.lt_of_succ_lt h16))

/-- Byte lane `4j + b` is byte `b` of dword `j` (R9). -/
theorem byteLane_eq_extract_dw (x : BitVec 512) (j : Nat) {b : Nat} (hb : b < 4) :
    byteLane x (4 * j + b) = (dw x j).extractLsb' (8 * b) 8 := by
  ext k hk
  have hidx : 8 * (4 * j + b) + k = 32 * j + (8 * b + k) := by ring
  have hlt : 8 * b + k < 32 := by omega
  simp [byteLane, dw, hidx, hlt]

/-- Settles O15, by induction on the packed list; the byte lane is a byte of the dword. -/
theorem accessorsReadTheSlots : Obligations.AccessorsReadTheSlots := by
  intro slots j b h h16 hb
  have hj : j < 16 := Nat.lt_of_lt_of_le h h16
  have hdw : dw (datBits slots) j = slots[j].dat :=
    (dw_packDat (slots.map Slot.dat) j (by simpa using h) hj).trans (List.getElem_map ..)
  have hnib : nib (beBits slots) j = slots[j].be :=
    (nib_packBe (slots.map Slot.be) j (by simpa using h) hj).trans (List.getElem_map ..)
  exact ⟨hdw, hnib, hdw ▸ byteLane_eq_extract_dw (datBits slots) j hb⟩

end Sys2Proof.Machine
end

section
/-! The state by source (R26, R33, R171): what `req_in` and `cmp_in` have in common, said once for a source `x`, so that
the facts about the grant and the packets in progress need no case for each stream. -/

namespace Sys2Proof.Machine

/-! ## A stream's monitor and signals -/

/-- Is a packet of the source in progress (R33)? -/
def State.inPacketOn (s : State) : Source → Bool
  | .req => s.monReq.inPacket
  | .cmp => s.monCmp.inPacket

/-- Does an offer of the source stand from the step before (R252)? -/
def State.offerOn (s : State) : Source → Bool
  | .req => s.monReq.offered.isSome
  | .cmp => s.monCmp.offered.isSome

/-- `valid` of the source's stream. -/
def Inputs.validOn (inp : Inputs) : Source → Bool
  | .req => inp.req.valid
  | .cmp => inp.cmp.valid

/-- `last` of the source's stream. -/
def Inputs.lastOn (inp : Inputs) : Source → Bool
  | .req => inp.req.last
  | .cmp => inp.cmp.last

theorem forall_source_iff {p : Source → Prop} : (∀ x, p x) ↔ p .req ∧ p .cmp :=
  ⟨fun h => ⟨h .req, h .cmp⟩, fun ⟨hreq, hcmp⟩ x => by cases x <;> assumption⟩

theorem exists_source_iff {p : Source → Prop} : (∃ x, p x) ↔ p .req ∨ p .cmp :=
  ⟨fun ⟨x, h⟩ => by cases x <;> simp [h], fun h => h.elim (⟨_, ·⟩) (⟨_, ·⟩)⟩

@[simp] theorem grantOf_ne_idle (x : Source) : grantOf x ≠ .idle := by cases x <;> decide

@[simp] theorem grantOf_inj {x y : Source} : grantOf x = grantOf y ↔ x = y := by
  cases x <;> cases y <;> decide

/-- A grant that is not idle is some source's. -/
theorem exists_grantOf {g : Grant} (h : g ≠ .idle) : ∃ x, g = grantOf x := by
  cases g with
  | idle => exact absurd rfl h
  | req => exact ⟨.req, rfl⟩
  | cmp => exact ⟨.cmp, rfl⟩

/-! ## The Arbiter -/

/-- R171: the source that holds the grant is the selected one. -/
theorem selOf_of_grant {inp : Inputs} {s : State} {x : Source} (h : s.grant = grantOf x) :
    selOf inp s = some x := by
  cases x with
  | req => exact selOf_of_grant_req h
  | cmp => exact selOf_of_grant_cmp h

/-- R171: a source selected while it offers nothing holds the grant. -/
theorem grant_of_selOf_not_valid {inp : Inputs} {s : State} {x : Source} (h : selOf inp s = some x)
    (hv : inp.validOn x = false) : s.grant = grantOf x := by
  by_cases hg : s.grant = .idle
  · cases x with
    | req => simp [Inputs.validOn, selOf_req_idle_valid hg h] at hv
    | cmp => simp [Inputs.validOn, selOf_cmp_idle_valid hg h] at hv
  · obtain ⟨y, hy⟩ := exists_grantOf hg
    have hxy : some y = some x := (selOf_of_grant hy).symm.trans h
    rw [hy, Option.some.inj hxy]

/-- R172: `raw` carries the selected source's `valid`. -/
theorem rawOf_valid {inp : Inputs} {s : State} {x : Source} (h : selOf inp s = some x) :
    (rawOf inp s).valid = inp.validOn x := by
  cases x with
  | req => rw [rawOf_req h]; rfl
  | cmp => rw [rawOf_cmp h]; rfl

/-- R172: and its `last`. -/
theorem rawOf_last {inp : Inputs} {s : State} {x : Source} (h : selOf inp s = some x) :
    (rawOf inp s).last = inp.lastOn x := by
  cases x with
  | req => rw [rawOf_req h]; rfl
  | cmp => rw [rawOf_cmp h]; rfl

/-- A word on `raw` is the selected source's. -/
theorem exists_selOf_of_valid {inp : Inputs} {s : State} (h : (rawOf inp s).valid = true) :
    ∃ x, selOf inp s = some x := by
  cases hsel : selOf inp s with
  | none => simp [rawOf_none hsel, RawWord.idle] at h
  | some x => exact ⟨x, rfl⟩

/-- R54: a word on `raw` has the port's `D` slots. -/
theorem rawOf_slots_length {inp : Inputs} {s : State} (h : (rawOf inp s).valid = true) :
    (rawOf inp s).slots.length = s.cfg.D := by
  obtain ⟨x, hsel⟩ := exists_selOf_of_valid h
  cases x with
  | req => rw [rawOf_req hsel]; exact rawReq_slots_length ..
  | cmp => rw [rawOf_cmp hsel]; exact rawCmp_slots_length ..

/-- R61: its enables are whole. -/
theorem rawOf_wholeEnables (inp : Inputs) (s : State) : wholeEnables (rawOf inp s).slots := by
  intro w hw
  cases hsel : selOf inp s with
  | none => simp [rawOf_none hsel, RawWord.idle] at hw
  | some x =>
    cases x with
    | req => rw [rawOf_req hsel] at hw; exact convSlots_payloadSlots_be hw
    | cmp => rw [rawOf_cmp hsel] at hw; exact convSlots_payloadSlots_be hw

/-! ## Transfers on the input side of a committed step -/

/-- R172: a word is transferred on `raw` when it is offered, the inserter takes it and the consumer is ready. -/
theorem rawXfer_eq_true {inp : Inputs} {s : State} {pl : Plan} :
    rawXfer inp s pl = true ↔ (rawOf inp s).valid = true ∧ pl.takes = true ∧ inp.ready = true := by
  simp [rawXfer]

/-- A plan that takes no word transfers none. -/
theorem rawXfer_of_not_takes {inp : Inputs} {s : State} {pl : Plan} (h : pl.takes = false) :
    rawXfer inp s pl = false := by
  simp [rawXfer, h]

/-- R172: a source's word is transferred exactly when it is selected and the word on `raw` is. -/
theorem validOn_and_readyTo (x : Source) (inp : Inputs) (s : State) (pl : Plan) :
    (inp.validOn x && readyTo x inp s pl) = (decide (selOf inp s = some x) && rawXfer inp s pl) := by
  by_cases hsel : selOf inp s = some x
  · simp [readyTo, rawXfer, hsel, rawOf_valid hsel]
  · simp [readyTo, hsel]

/-- R253: where the packet of a source stands after a committed step. -/
theorem commit_inPacketOn (x : Source) (inp : Inputs) (s : State) (pl : Plan) :
    (commit inp s pl).inPacketOn x =
      if inp.validOn x && readyTo x inp s pl then !inp.lastOn x else s.inPacketOn x := by
  cases x <;> rfl

/-- The word just transferred says whether its source's packet goes on. -/
theorem commit_inPacketOn_selected {x : Source} {inp : Inputs} {s : State} {pl : Plan}
    (hsel : selOf inp s = some x) (hx : rawXfer inp s pl = true) :
    (commit inp s pl).inPacketOn x = !(rawOf inp s).last := by
  simp [commit_inPacketOn, validOn_and_readyTo, hsel, hx, rawOf_last hsel]

/-- A source that is not selected keeps its place in its packet. -/
theorem commit_inPacketOn_other {x : Source} {inp : Inputs} {s : State} (pl : Plan)
    (hsel : selOf inp s ≠ some x) : (commit inp s pl).inPacketOn x = s.inPacketOn x := by
  simp [commit_inPacketOn, validOn_and_readyTo, hsel]

/-- So does every source where nothing is transferred on `raw`. -/
theorem commit_inPacketOn_no_xfer {inp : Inputs} {s : State} {pl : Plan} (hx : rawXfer inp s pl = false)
    (x : Source) : (commit inp s pl).inPacketOn x = s.inPacketOn x := by
  simp [commit_inPacketOn, validOn_and_readyTo, hx]

/-- R252: a monitor keeps an offer exactly when a word was offered and not taken. -/
theorem monitorNext_offered_isSome {ω π : Type} (m : Monitor ω π) (w : ω) (valid ready last : Bool) (side : π) :
    (monitorNext m w valid ready last side).offered.isSome = (valid && !ready) := by
  cases valid <;> cases ready <;> rfl

theorem commit_offerOn (x : Source) (inp : Inputs) (s : State) (pl : Plan) :
    (commit inp s pl).offerOn x = (inp.validOn x && !readyTo x inp s pl) := by
  cases x with
  | req => exact monitorNext_offered_isSome ..
  | cmp => exact monitorNext_offered_isSome ..

/-- R173: the grant after a step that selects a source. -/
theorem commit_grant_selected {x : Source} {inp : Inputs} {s : State} (pl : Plan)
    (hsel : selOf inp s = some x) :
    (commit inp s pl).grant = if rawXfer inp s pl && (rawOf inp s).last then .idle else grantOf x := by
  simp [hsel, grantNext]

/-- R173: the grant that is left belongs to the selected source. -/
theorem selOf_of_commit_grant {x : Source} {inp : Inputs} {s : State} {pl : Plan}
    (h : (commit inp s pl).grant = grantOf x) :
    selOf inp s = some x ∧ (rawXfer inp s pl && (rawOf inp s).last) = false := by
  cases hsel : selOf inp s with
  | none =>
    simp only [commit_grant, hsel, grantNext] at h
    exact absurd h.symm (grantOf_ne_idle x)
  | some y =>
    rw [commit_grant_selected pl hsel] at h
    split at h
    · exact absurd h.symm (grantOf_ne_idle x)
    · next hdone => exact ⟨congrArg some (grantOf_inj.mp h), by simpa using hdone⟩

/-- R173: a selected source holds the grant unless its packet ends. -/
theorem commit_grant_ne_idle {x : Source} {inp : Inputs} {s : State} {pl : Plan}
    (hsel : selOf inp s = some x) (h : rawXfer inp s pl = false ∨ (rawOf inp s).last = false) :
    (commit inp s pl).grant ≠ .idle := by
  have hdone : (rawXfer inp s pl && (rawOf inp s).last) = false := by rcases h with h | h <;> simp [h]
  rw [commit_grant_selected pl hsel, hdone]
  exact grantOf_ne_idle x

/-! ## What a lawful step's offers are -/

/-- R252: a monitor that finds nothing sees every standing offer again. -/
theorem valid_of_monitorCheck_none {ω π : Type} [DecidableEq ω] [DecidableEq π] {m : Monitor ω π} {w : ω}
    {valid first last : Bool} {side : π} {need : Nat} {zeroLen noData : Bool}
    (h : monitorCheck m w valid first last side need zeroLen noData = none) (ho : m.offered.isSome = true) :
    valid = true := by
  have hret : retracted m w valid = false := by
    cases hr : retracted m w valid with
    | false => rfl
    | true => simp [monitorCheck, hr] at h
  obtain ⟨o, ho⟩ := Option.isSome_iff_exists.mp ho
  simp only [retracted, ho, Bool.or_eq_false_iff, Bool.not_eq_false'] at hret
  exact hret.1

/-- R258 b: where nothing is recorded neither monitor finds anything. -/
theorem violationOf_none {s : State} {inp : Inputs} (h : violationOf s inp = none) :
    reqCheck s inp.req = none ∧ cmpCheck s inp.cmp = none := by
  unfold violationOf at h
  cases hreq : reqCheck s inp.req with
  | some c => simp [hreq] at h
  | none =>
    cases hcmp : cmpCheck s inp.cmp with
    | some c => simp [hreq, hcmp] at h
    | none => exact ⟨rfl, rfl⟩

/-- R252: in a step without a violation every standing offer is still made. -/
theorem validOn_of_offerOn {s : State} {inp : Inputs} {x : Source} (h : violationOf s inp = none)
    (ho : s.offerOn x = true) : inp.validOn x = true := by
  obtain ⟨hreq, hcmp⟩ := violationOf_none h
  cases x with
  | req => exact valid_of_monitorCheck_none hreq ho
  | cmp => exact valid_of_monitorCheck_none hcmp ho

end Sys2Proof.Machine
end

section
/-! What the Header Inserter offers in a step (R190 to R195), as one relation with a case for each kind of word, and
the arithmetic of a header's physical words (R186) at every width. -/

namespace Sys2Proof.Machine

/-! ## The derived constants -/

@[simp] theorem cntOf_zero (d : Nat) : cntOf d 0 = 0 := by simp [cntOf]

theorem headerSize_cases (fmt : BitVec 2) : headerSize fmt = 3 ∨ headerSize fmt = 4 := by
  unfold headerSize
  split <;> simp

theorem D_cases (p : Params) : p.D = 2 ∨ p.D = 4 ∨ p.D = 8 ∨ p.D = 16 := by
  unfold Params.D
  cases p.width <;> decide

/-- R186: the header dwords in a header's last physical word do not exceed the word. -/
theorem headerRest_le (p : Params) (fmt : BitVec 2) : headerRest p.D (headerSize fmt) ≤ p.D := by
  rcases headerSize_cases fmt with h | h <;> rcases D_cases p with hD | hD | hD | hD <;> rw [h, hD] <;> decide

/-- R186, R24: only at the narrowest width does a header span two words. -/
theorem headerWords_eq_one {p : Params} (h2 : p.D ≠ 2) (fmt : BitVec 2) :
    headerWords p.D (headerSize fmt) = 1 := by
  have hD := (D_cases p).resolve_left h2
  rcases headerSize_cases fmt with h | h <;> rcases hD with hD | hD | hD <;> rw [h, hD] <;> decide

/-- R25: `sL` has room for the shift of every header size. -/
theorem shiftOf_lt (p : Params) (fmt : BitVec 2) :
    shiftOf p.D (headerSize fmt) < p.D ∧ shiftOf p.D (headerSize fmt) < 16 := by
  rcases headerSize_cases fmt with h | h <;> rcases D_cases p with hD | hD | hD | hD <;> rw [h, hD] <;> decide

/-- So the shift is read back from `sL` as it was written. -/
theorem toNat_ofNat_shiftOf (p : Params) (fmt : BitVec 2) :
    (BitVec.ofNat 4 (shiftOf p.D (headerSize fmt))).toNat = shiftOf p.D (headerSize fmt) := by
  rw [BitVec.toNat_ofNat, Nat.mod_eq_of_lt (shiftOf_lt p fmt).2]

@[simp] theorem sLOf_shiftOf (p : Params) (fmt : BitVec 2) :
    sLOf p.D (BitVec.ofNat 4 (shiftOf p.D (headerSize fmt))) = shiftOf p.D (headerSize fmt) := by
  rw [sLOf, toNat_ofNat_shiftOf, Nat.mod_eq_of_lt (shiftOf_lt p fmt).1]

theorem sLOf_lt (p : Params) (sL : BitVec 4) : sLOf p.D sL < p.D :=
  Nat.mod_lt _ (by rcases D_cases p with hD | hD | hD | hD <;> rw [hD] <;> decide)

/-! ## The fits test -/

/-- R189: only a packet's last word fits. -/
theorem last_of_fits {last : Bool} {l : List Slot} {n : Nat} (h : fits last l n = true) : last = true := by
  simp only [fits, Bool.and_eq_true] at h
  exact h.1

/-- R189, R195: a last word that does not fit has an enabled slot left to flush. -/
theorem exists_enabled_of_not_fits {l : List Slot} {n : Nat} (h : fits true l n = false) :
    ∃ x ∈ l.drop n, x.be ≠ noneEnabled := by
  simpa [fits] using h

/-! ## The words an inserter offers -/

/-- The plans in which the inserter offers a word, by the kind of the word: a header word before the last one
(R191), the last one with the packet's end or with payload to follow (R192), a word passed through (R193), a flush
word (R195), a word of the sliding window (R194). -/
inductive Offers (s : State) (i : RawWord) (pl : Plan) : Prop where
  | headerWord (hst : s.st = .header) (hv : i.valid = true)
      (hc : cntOf s.cfg.D s.cnt + 1 < headerWords s.cfg.D (headerSize i.fmt))
      (hemit : pl.emit = some ⟨hdrOnly s.cfg.D (cntOf s.cfg.D s.cnt) i, cntOf s.cfg.D s.cnt == 0, false, .header,
        s.cnt + 1, s.sL⟩)
      (htakes : pl.takes = false)
  | headerEnd (hst : s.st = .header) (hv : i.valid = true)
      (hc : ¬ cntOf s.cfg.D s.cnt + 1 < headerWords s.cfg.D (headerSize i.fmt))
      (hfit : fits i.last i.slots (shiftOf s.cfg.D (headerSize i.fmt)) = true)
      (hemit : pl.emit = some ⟨hdrLast s.cfg.D (cntOf s.cfg.D s.cnt) (headerRest s.cfg.D (headerSize i.fmt)) i,
        cntOf s.cfg.D s.cnt == 0, true, .header, 0, s.sL⟩)
      (htakes : pl.takes = true)
  | headerThenData (hst : s.st = .header) (hv : i.valid = true)
      (hc : ¬ cntOf s.cfg.D s.cnt + 1 < headerWords s.cfg.D (headerSize i.fmt))
      (hfit : fits i.last i.slots (shiftOf s.cfg.D (headerSize i.fmt)) = false)
      (hemit : pl.emit = some ⟨hdrLast s.cfg.D (cntOf s.cfg.D s.cnt) (headerRest s.cfg.D (headerSize i.fmt)) i,
        cntOf s.cfg.D s.cnt == 0, false, .data, 0, BitVec.ofNat 4 (shiftOf s.cfg.D (headerSize i.fmt))⟩)
      (htakes : pl.takes = decide (0 < shiftOf s.cfg.D (headerSize i.fmt)))
  | pass (hst : s.st = .data) (hs : sLOf s.cfg.D s.sL = 0) (hv : i.valid = true)
      (hemit : pl.emit = some ⟨i.slots, false, i.last, if i.last then .header else .data, s.cnt, s.sL⟩)
      (htakes : pl.takes = true)
  | flush (hst : s.st = .data) (hs : sLOf s.cfg.D s.sL ≠ 0) (hl : s.carry.last = true)
      (hemit : pl.emit = some ⟨Machine.flush s.cfg.D (sLOf s.cfg.D s.sL) s.carry, false, true, .header, s.cnt,
        s.sL⟩)
      (htakes : pl.takes = false)
  | window (hst : s.st = .data) (hs : sLOf s.cfg.D s.sL ≠ 0) (hl : s.carry.last = false) (hv : i.valid = true)
      (hemit : pl.emit = some ⟨Machine.window s.cfg.D (sLOf s.cfg.D s.sL) s.carry i, false,
        fits i.last i.slots (sLOf s.cfg.D s.sL),
        if fits i.last i.slots (sLOf s.cfg.D s.sL) then .header else .data, s.cnt, s.sL⟩)
      (htakes : pl.takes = true)

/-- R190 to R195: the inserter offers nothing, for want of an input word, or one of these words. -/
theorem planOf_silent_or_offers {s : State} {i : RawWord} {pl : Plan} (h : planOf s i = some pl) :
    (i.valid = false ∧ pl.emit = none) ∨ Offers s i pl := by
  rcases planOf_cases h with ⟨hst, h⟩ | ⟨hst, hs, rfl⟩ | ⟨hst, hs, hl, rfl⟩ | ⟨hst, hs, hl, h⟩
  · rcases planHeader_cases h with
      ⟨hv, rfl⟩ | ⟨hv, -, ⟨hc, rfl⟩ | ⟨hc, hfit, rfl⟩ | ⟨hc, hfit, rfl⟩⟩
    · exact .inl ⟨hv, rfl⟩
    · exact .inr (.headerWord hst hv hc rfl rfl)
    · exact .inr (.headerEnd hst hv hc hfit rfl rfl)
    · exact .inr (.headerThenData hst hv hc hfit rfl rfl)
  · cases hv : i.valid with
    | false => exact .inl (by simp [planPass, hv])
    | true => exact .inr (.pass hst hs hv (by simp [planPass, hv]) (by simp [planPass, hv]))
  · exact .inr (.flush hst hs hl rfl rfl)
  · rcases planWindow_cases h with ⟨hv, rfl⟩ | ⟨hv, -, rfl⟩
    · exact .inl ⟨hv, rfl⟩
    · exact .inr (.window hst hs hl hv rfl rfl)

/-! ## The inserter's registers after the step -/

/-- R11, R198: a transferred word sets the inserter's registers. -/
theorem commit_st_of_emit {inp : Inputs} {s : State} {pl : Plan} {e : Emit} (hready : inp.ready = true)
    (hemit : pl.emit = some e) : (commit inp s pl).st = e.st := by
  simp [hready, hemit]

theorem commit_cnt_of_emit {inp : Inputs} {s : State} {pl : Plan} {e : Emit} (hready : inp.ready = true)
    (hemit : pl.emit = some e) : (commit inp s pl).cnt = e.cnt := by
  simp [hready, hemit]

theorem commit_sL_of_emit {inp : Inputs} {s : State} {pl : Plan} {e : Emit} (hready : inp.ready = true)
    (hemit : pl.emit = some e) : (commit inp s pl).sL = e.sL := by
  simp [hready, hemit]

/-- R198: without a transfer on `phy_out` nothing is transferred on `raw`. -/
theorem rawXfer_of_no_output {inp : Inputs} {s : State} {pl : Plan} (hp : planOf s (rawOf inp s) = some pl)
    (h : inp.ready = false ∨ pl.emit = none) : rawXfer inp s pl = false := by
  by_contra hx
  obtain ⟨hv, htakes, hready⟩ := rawXfer_eq_true.mp (by simpa using hx)
  have hemit := planOf_takes_emits hp hv htakes
  rcases h with h | h
  · simp [hready] at h
  · simp [h] at hemit

/-- Every committed step keeps the inserter's registers and transfers nothing, or transfers one of the words the
inserter offers. -/
theorem commit_stays_or_offers {inp : Inputs} {s : State} {pl : Plan} (hp : planOf s (rawOf inp s) = some pl) :
    ((commit inp s pl).st = s.st ∧ (commit inp s pl).cnt = s.cnt ∧ (commit inp s pl).sL = s.sL ∧
      (commit inp s pl).sent = s.sent ∧ rawXfer inp s pl = false) ∨
    (inp.ready = true ∧ Offers s (rawOf inp s) pl) := by
  have hstay (h : inp.ready = false ∨ pl.emit = none) :
      (commit inp s pl).st = s.st ∧ (commit inp s pl).cnt = s.cnt ∧ (commit inp s pl).sL = s.sL ∧
        (commit inp s pl).sent = s.sent ∧ rawXfer inp s pl = false := by
    obtain ⟨hst, hcnt, hsL, hsent⟩ :=
      commit_no_output_transfer (inp := inp) (s := s) (pl := pl) (h.imp_right fun h => by rw [commit_phy, h]; rfl)
    exact ⟨hst, hcnt, hsL, hsent, rawXfer_of_no_output hp h⟩
  cases hready : inp.ready with
  | false => exact .inl (hstay (.inl hready))
  | true =>
    rcases planOf_silent_or_offers hp with ⟨-, h⟩ | h
    · exact .inl (hstay (.inr h))
    · exact .inr ⟨rfl, h⟩

/-- R22: the carry register after a committed step, with a transfer on `raw` and without. -/
theorem commit_carry_xfer {inp : Inputs} {s : State} {pl : Plan} (hx : rawXfer inp s pl = true) :
    (commit inp s pl).carry = ⟨(rawOf inp s).slots, (rawOf inp s).last⟩ := by
  simp [hx, carryNext]

theorem commit_carry_no_xfer {inp : Inputs} {s : State} {pl : Plan} (hx : rawXfer inp s pl = false) :
    (commit inp s pl).carry = s.carry := by
  simp [hx, carryNext]

end Sys2Proof.Machine
end

section
/-! Every step is the whole-step function under the step's own inputs (R231), and what a step without reset or violation
does to `st` and the carry register (R22, R23). -/

namespace Sys2Proof.Machine

open Sys2Proof.Claims

/-! ## The operation on offer is the word on the port -/

/-- R6, D16: only a 64-bit port carries an address with an upper half. -/
theorem carries64_of_is64_portAdr {p : Params} {a : BitVec 64} (h : is64 (portAdr p a) = true) :
    carries64 p (portAdr p a) = true := by
  cases hp : p.aw with
  | a64 => simp [carries64, hp, h]
  | a32 =>
    have hhi : adrHi ((adrLo a).setWidth 64) = 0#32 := by
      ext j hj
      simp [adrHi]
    simp only [is64, portAdr, hp] at h
    exact absurd hhi (by simpa [adrLo] using h)

/-- R123: a 32-bit request's address is its lower half. -/
theorem setWidth_adrLo {a : BitVec 64} (h : is64 a = false) : (adrLo a).setWidth 64 = a := by
  have hhi : adrHi a = 0#32 := by simpa [is64] using h
  have hdiv : a.toNat / 2 ^ 32 % 2 ^ 32 = 0 := by
    simpa [adrHi, BitVec.extractLsb'_toNat, Nat.shiftRight_eq_div_pow] using congrArg BitVec.toNat hhi
  apply BitVec.eq_of_toNat_eq
  simp only [adrLo, BitVec.toNat_setWidth, BitVec.extractLsb'_toNat, Nat.shiftRight_zero]
  omega

/-- Offering the word that is on offer changes nothing. -/
theorem presentReq_self {inp : Inputs} (h : inp.req.valid = true) :
    presentReq inp.req.we inp.req.adr inp.req.len inp.req.reqId inp.req.tag inp = inp := by
  simp only [presentReq, ← h]

theorem presentCmp_self {inp : Inputs} (h : inp.cmp.valid = true) :
    presentCmp inp.cmp.err inp.cmp.cmpId inp.cmp.reqId inp.cmp.tag inp.cmp.adr inp.cmp.len inp = inp := by
  simp only [presentCmp, ← h]

/-- The operation of the word on `req_in` runs the whole-step function on that word. -/
theorem exec_instrOfReq {s : State} (h : (inputsOf s).req.valid = true) :
    exec (instrOfReq (inputsOf s).req) s = cycle (inputsOf s) s := by
  have hself := presentReq_self h
  have hcarries : is64 (inputsOf s).req.adr = true → carries64 s.cfg (inputsOf s).req.adr = true :=
    carries64_of_is64_portAdr
  cases hwe : (inputsOf s).req.we <;> cases h64 : is64 (inputsOf s).req.adr <;> rw [hwe] at hself
  · simp only [instrOfReq, hwe, h64, exec, execMrd32, setWidth_adrLo h64, hself]
  · simp only [instrOfReq, hwe, h64, exec, execMrd64, hcarries h64, hself, if_true]
  · simp only [instrOfReq, hwe, h64, exec, execMwr32, setWidth_adrLo h64, hself]
  · simp only [instrOfReq, hwe, h64, exec, execMwr64, hcarries h64, hself, if_true]

/-- The same on `cmp_in`. -/
theorem exec_instrOfCmp {s : State} (h : (inputsOf s).cmp.valid = true) :
    exec (instrOfCmp (inputsOf s).cmp) s = cycle (inputsOf s) s := by
  have hself := presentCmp_self h
  cases herr : (inputsOf s).cmp.err <;> rw [herr] at hself
  · simp only [instrOfCmp, herr, exec, execCpld, hself, if_false, Bool.false_eq_true]
  · simp only [instrOfCmp, herr, exec, execCpl, hself, if_true]

/-- The operation fetched is that of a word on offer. -/
theorem fetch_cases {s : State} {i : Instr} (h : fetch s = some i) :
    ((inputsOf s).req.valid = true ∧ i = instrOfReq (inputsOf s).req) ∨
    ((inputsOf s).cmp.valid = true ∧ i = instrOfCmp (inputsOf s).cmp) := by
  unfold fetch at h
  cases hr : (inputsOf s).rst with
  | true => simp [hr] at h
  | false =>
    cases hsel : selOf (inputsOf s) s with
    | none => simp [hr, hsel] at h
    | some x =>
      cases x with
      | req =>
        simp only [hr, hsel, Bool.false_eq_true, if_false, Option.ite_none_right_eq_some] at h
        exact .inl (h.imp_right fun h => (Option.some.inj h).symm)
      | cmp =>
        simp only [hr, hsel, Bool.false_eq_true, if_false, Option.ite_none_right_eq_some] at h
        exact .inr (h.imp_right fun h => (Option.some.inj h).symm)

/-- R231: a step is the whole-step function, whichever operation it runs. -/
theorem step_eq_cycle (s : State) : step s = cycle (inputsOf s) s := by
  cases hf : fetch s with
  | none => exact step_of_no_fetch hf
  | some i =>
    rw [step_of_fetch hf]
    rcases fetch_cases hf with ⟨hv, rfl⟩ | ⟨hv, rfl⟩
    · exact exec_instrOfReq hv
    · exact exec_instrOfCmp hv

/-- A step without reset that records nothing is a committed one. -/
theorem step_faultFree {s t : State} (h : step s = .next t) (hr : (inputsOf s).rst = false) (hf : t.fault = none) :
    ∃ pl, s.fault = none ∧ violationOf s (inputsOf s) = none ∧ planOf s (rawOf (inputsOf s) s) = some pl ∧
      t = commit (inputsOf s) s pl :=
  cycle_faultFree (step_eq_cycle s ▸ h) hr hf

/-! ## The phase -/

/-- R23: the transitions of `st` with the transfer of an output word. -/
theorem commit_phase_transition {inp : Inputs} {s : State} {pl : Plan} {e : Emit} (hready : inp.ready = true)
    (ho : Offers s (rawOf inp s) pl) (he : pl.emit = some e) :
    (e.last = true → (commit inp s pl).st = .header ∧
      (s.st = .header →
        headerWords s.cfg.D (headerSize (rawOf inp s).fmt) ≤ cntOf s.cfg.D s.cnt + 1)) ∧
    (e.last = false → s.st = .data → (commit inp s pl).st = .data) ∧
    (e.last = false → s.st = .header →
      if cntOf s.cfg.D s.cnt + 1 < headerWords s.cfg.D (headerSize (rawOf inp s).fmt) then
        (commit inp s pl).st = .header ∧ (commit inp s pl).cnt = s.cnt + 1
      else (commit inp s pl).st = .data ∧ (commit inp s pl).cnt = 0) := by
  have hst' := commit_st_of_emit (s := s) hready he
  have hcnt' := commit_cnt_of_emit (s := s) hready he
  rw [hst', hcnt']
  cases ho with
  | headerWord hst hv hc hemit htakes =>
    obtain rfl := Option.some.inj (he.symm.trans hemit)
    simp [hst, hc]
  | headerEnd hst hv hc hfit hemit htakes =>
    obtain rfl := Option.some.inj (he.symm.trans hemit)
    simp [Nat.le_of_not_lt hc]
  | headerThenData hst hv hc hfit hemit htakes =>
    obtain rfl := Option.some.inj (he.symm.trans hemit)
    simp [hst, hc]
  | pass hst hs hv hemit htakes =>
    obtain rfl := Option.some.inj (he.symm.trans hemit)
    simp +contextual [hst]
  | flush hst hs hl hemit htakes =>
    obtain rfl := Option.some.inj (he.symm.trans hemit)
    simp [hst]
  | window hst hs hl hv hemit htakes =>
    obtain rfl := Option.some.inj (he.symm.trans hemit)
    simp +contextual [hst]

/-- Settles O33: `HEADER` at reset; then the step is a committed one, which without an output transfer keeps `st` and
with one makes the transition of the word it offers. -/
theorem phaseTransitions : Obligations.PhaseTransitions := by
  refine ⟨resetFor_st, fun s t h hr hf => ?_⟩
  obtain ⟨pl, -, -, hp, rfl⟩ := step_faultFree h hr hf
  refine ⟨fun hstay => (commit_no_output_transfer hstay).1, fun w hw hready => ?_⟩
  obtain ⟨e, he, rfl⟩ := Option.map_eq_some_iff.mp ((commit_phy ..).symm.trans hw)
  rcases planOf_silent_or_offers hp with ⟨-, hsilent⟩ | ho
  · simp [hsilent] at he
  · exact commit_phase_transition hready ho he

/-! ## The carry register -/

/-- Settles O34: a word is transferred on `raw` exactly when it is that of the one source that sees `ready = 1`. -/
theorem carryTakesEveryAcceptedWord : Obligations.CarryTakesEveryAcceptedWord := by
  intro s t h hr hf
  obtain ⟨pl, -, -, -, rfl⟩ := step_faultFree h hr hf
  have hreq := validOn_and_readyTo .req (inputsOf s) s pl
  have hcmp := validOn_and_readyTo .cmp (inputsOf s) s pl
  simp only [readySeen_commit, ← Bool.and_eq_true]
  simp only [Inputs.validOn] at hreq hcmp
  rw [hreq, hcmp]
  cases hx : rawXfer (inputsOf s) s pl with
  | false =>
    rw [commit_carry_no_xfer hx]
    simp
  | true =>
    obtain ⟨x, hsel⟩ := exists_selOf_of_valid (rawXfer_eq_true.mp hx).1
    rw [commit_carry_xfer hx]
    cases x with
    | req =>
      rw [rawOf_req hsel]
      simp [hsel, rawReq]
    | cmp =>
      rw [rawOf_cmp hsel]
      simp [hsel, rawCmp]

end Sys2Proof.Machine
end

section
/-! The invariant at reset (R34, R271), and its clauses about the monitors, the grant and the phase (R23, R26, R173,
R190 to R195, R253, R254) over a committed step. -/

namespace Sys2Proof.Machine

/-! ## At reset -/

/-- A monitor at reset is in no packet and has counted nothing. -/
theorem monitorInv_fresh {ω π : Type} : monitorInv (Monitor.fresh : Monitor ω π) :=
  ⟨fun _ => ⟨rfl, rfl⟩, fun h => nomatch h⟩

/-- Settles O49: no monitor is in a packet, the grant is idle, `cnt` is 0, and nothing has been emitted. -/
theorem invariantAtReset : Obligations.InvariantAtReset := by
  intro p
  have hgrant : grantInv (State.resetFor p) :=
    ⟨fun h => (nomatch h), fun h => (nomatch h), fun h => (nomatch h), fun h => (nomatch h)⟩
  have hphase : phaseInv (State.resetFor p) := ⟨rfl, rfl, fun h => absurd (cntOf_zero p.D) h⟩
  have hrange : rangeInv (State.resetFor p) :=
    ⟨List.length_replicate .., fun _ => resetFor_cnt p, fun h => (nomatch h)⟩
  exact ⟨monitorInv_fresh, monitorInv_fresh, hgrant, hphase, hrange, fun _ hw => (nomatch hw)⟩

/-- R270: a reset step gives the invariant back; only the words emitted before it have to be well formed. -/
theorem resetStep_inv {s : State} (h : sentInv s) : (resetStep s).Inv := by
  obtain ⟨hreq, hcmp, hgrant, hphase, hrange, -⟩ := invariantAtReset s.cfg
  exact ⟨hreq, hcmp, hgrant, hphase, hrange, h⟩

/-- Settles O47: every field `State.resetFor` sets holds the value of R34 and R271. -/
theorem resetValues : Obligations.ResetValues := fun p =>
  ⟨resetFor_st p, resetFor_cnt p, resetFor_grant p, resetFor_fault p, resetFor_monReq p, resetFor_monCmp p,
    congrArg PolicyState.lastg (resetFor_policy p), resetFor_cfg p⟩

/-! ## The monitors and the grant -/

/-- R253, R254, R256: a monitor keeps its clause whatever its stream does. -/
theorem monitorInv_next {ω π : Type} {m : Monitor ω π} (h : monitorInv m) (w : ω) (valid ready last : Bool)
    (side : π) : monitorInv (monitorNext m w valid ready last side) := by
  obtain ⟨hout, hin⟩ := h
  cases hx : valid && ready with
  | false =>
    simp only [monitorNext, hx]
    exact ⟨hout, hin⟩
  | true =>
    cases last with
    | true => simp [monitorInv, monitorNext, hx]
    | false =>
      refine ⟨fun hp => by simp [monitorNext, hx] at hp, fun _ => ⟨by simp [monitorNext, hx], ?_⟩⟩
      cases hp : m.inPacket with
      | true => simpa [monitorNext, hx, hp] using (hin hp).2
      | false => simp [monitorNext, hx, hp]

/-- The grant's clause, source by source. -/
theorem grantInv_iff {s : State} :
    grantInv s ↔ ∀ x, (s.inPacketOn x = true → s.grant = grantOf x) ∧
      (s.grant = grantOf x → s.inPacketOn x = true ∨ s.offerOn x = true) := by
  rw [forall_source_iff]
  simp only [grantInv, State.inPacketOn, State.offerOn, grantOf, Option.isSome_iff_ne_none]
  tauto

/-- R172, R173: a packet in progress is the selected source's. -/
theorem selOf_of_inPacketOn {inp : Inputs} {s : State} {x : Source} (hg : grantInv s)
    (hp : s.inPacketOn x = true) : selOf inp s = some x :=
  selOf_of_grant ((grantInv_iff.mp hg x).1 hp)

/-- R26, R173: a committed step keeps the grant's clause. A packet that is in progress after it was in progress before
or began with the word just transferred; a grant that is held after it is for a packet in progress or for the word on
offer, which waits. -/
theorem commit_grantInv {inp : Inputs} {s : State} {pl : Plan} (hg : grantInv s)
    (hv : violationOf s inp = none) : grantInv (commit inp s pl) := by
  refine grantInv_iff.mpr fun x => ⟨fun hp => ?_, fun hgrant => ?_⟩
  · cases hx : rawXfer inp s pl with
    | false =>
      rw [commit_inPacketOn_no_xfer hx] at hp
      rw [commit_grant_selected pl (selOf_of_inPacketOn hg hp), hx]
      rfl
    | true =>
      by_cases hsel : selOf inp s = some x
      · rw [commit_inPacketOn_selected hsel hx] at hp
        have hl : (rawOf inp s).last = false := by simpa using hp
        rw [commit_grant_selected pl hsel, hx, hl]
        rfl
      · rw [commit_inPacketOn_other pl hsel] at hp
        exact absurd (selOf_of_inPacketOn hg hp) hsel
  · obtain ⟨hsel, hdone⟩ := selOf_of_commit_grant hgrant
    cases hx : rawXfer inp s pl with
    | true =>
      rw [hx, Bool.true_and] at hdone
      left
      rw [commit_inPacketOn_selected hsel hx, hdone]
      rfl
    | false =>
      have hwaits : (inp.validOn x && readyTo x inp s pl) = false := by
        rw [validOn_and_readyTo, hx, Bool.and_false]
      rw [commit_inPacketOn_no_xfer hx, commit_offerOn]
      cases hvalid : inp.validOn x with
      | true => exact .inr (by simpa [hvalid] using hwaits)
      | false =>
        rcases (grantInv_iff.mp hg x).2 (grant_of_selOf_not_valid hsel hvalid) with hp | ho
        · exact .inl hp
        · simp [validOn_of_offerOn hv ho] at hvalid

/-! ## The phase -/

theorem phaseInv_header {s : State} (hst : s.st = .header) :
    phaseInv s ↔ (∀ x, s.inPacketOn x = false) ∧ (cntOf s.cfg.D s.cnt ≠ 0 → s.grant ≠ .idle) := by
  simp only [phaseInv, hst, forall_source_iff, State.inPacketOn, and_assoc]

/-- In `DATA`, passing through (R193). -/
theorem phaseInv_pass {s : State} (hst : s.st = .data) (hs : sLOf s.cfg.D s.sL = 0) :
    phaseInv s ↔ s.cnt = 0 ∧ s.grant ≠ .idle := by
  simp only [phaseInv, hst, hs, if_true]

/-- In `DATA`, with a flush word to come (R195). -/
theorem phaseInv_flush {s : State} (hst : s.st = .data) (hs : sLOf s.cfg.D s.sL ≠ 0) (hl : s.carry.last = true) :
    phaseInv s ↔ s.cnt = 0 ∧ (∀ x, s.inPacketOn x = false) ∧
      ∃ x ∈ s.carry.slots.drop (sLOf s.cfg.D s.sL), x.be ≠ noneEnabled := by
  simp only [phaseInv, hst, hs, hl, if_true, if_false, forall_source_iff, State.inPacketOn, and_assoc]

/-- In `DATA`, with the sliding window (R194). -/
theorem phaseInv_window {s : State} (hst : s.st = .data) (hs : sLOf s.cfg.D s.sL ≠ 0) (hl : s.carry.last = false) :
    phaseInv s ↔ s.cnt = 0 ∧ ∃ x, s.inPacketOn x = true := by
  simp only [phaseInv, hst, hs, hl, if_false, exists_source_iff, State.inPacketOn, Bool.false_eq_true]

/-- The word that ends its packet leaves none in progress: the other source had none, as it does not hold the grant. -/
theorem commit_no_packet {inp : Inputs} {s : State} {pl : Plan} (hg : grantInv s)
    (hx : rawXfer inp s pl = true) (hl : (rawOf inp s).last = true) (x : Source) :
    (commit inp s pl).inPacketOn x = false := by
  by_cases hsel : selOf inp s = some x
  · rw [commit_inPacketOn_selected hsel hx, hl]
    rfl
  · rw [commit_inPacketOn_other pl hsel]
    by_contra hp
    exact hsel (selOf_of_inPacketOn hg (by simpa using hp))

/-- Any other word leaves its packet in progress. -/
theorem commit_some_packet {inp : Inputs} {s : State} {pl : Plan} (hx : rawXfer inp s pl = true)
    (hl : (rawOf inp s).last = false) : ∃ x, (commit inp s pl).inPacketOn x = true := by
  obtain ⟨x, hsel⟩ := exists_selOf_of_valid (rawXfer_eq_true.mp hx).1
  refine ⟨x, ?_⟩
  rw [commit_inPacketOn_selected hsel hx, hl]
  rfl

/-- R198: where the inserter stays as it is and nothing is transferred, the phase's clause stays, since a grant that is
held is kept. -/
theorem commit_phaseInv_stay {inp : Inputs} {s : State} {pl : Plan} (hst : (commit inp s pl).st = s.st)
    (hcnt : (commit inp s pl).cnt = s.cnt) (hsL : (commit inp s pl).sL = s.sL)
    (hx : rawXfer inp s pl = false) (h : phaseInv s) : phaseInv (commit inp s pl) := by
  have hgrant (hg : s.grant ≠ .idle) : (commit inp s pl).grant ≠ .idle := by
    obtain ⟨x, hg⟩ := exists_grantOf hg
    exact commit_grant_ne_idle (selOf_of_grant hg) (.inl hx)
  have hcarry := commit_carry_no_xfer hx
  have hreq : (commit inp s pl).monReq.inPacket = s.monReq.inPacket := commit_inPacketOn_no_xfer hx .req
  have hcmp : (commit inp s pl).monCmp.inPacket = s.monCmp.inPacket := commit_inPacketOn_no_xfer hx .cmp
  unfold phaseInv at h ⊢
  rw [hst, hcnt, hsL, hcarry, hreq, hcmp, commit_cfg]
  cases hphase : s.st with
  | header =>
    simp only [hphase] at h
    obtain ⟨hnoReq, hnoCmp, hheld⟩ := h
    exact ⟨hnoReq, hnoCmp, fun hc => hgrant (hheld hc)⟩
  | data =>
    simp only [hphase] at h
    obtain ⟨hcnt0, h⟩ := h
    refine ⟨hcnt0, ?_⟩
    split
    · next hs => exact hgrant (by simpa [hs] using h)
    · next hs => simpa [hs] using h

/-- R192 to R194: the step that takes a packet's last word and is back in `HEADER`. -/
theorem commit_phaseInv_packet_end {inp : Inputs} {s : State} {pl : Plan} (hst : (commit inp s pl).st = .header)
    (hcnt : (commit inp s pl).cnt = 0) (hg : grantInv s) (hx : rawXfer inp s pl = true)
    (hl : (rawOf inp s).last = true) : phaseInv (commit inp s pl) :=
  (phaseInv_header hst).mpr ⟨commit_no_packet hg hx hl, fun hc => absurd (hcnt ▸ cntOf_zero _) hc⟩

/-- R192, R194: the step that takes a word which does not fit, so that its high slots stay in the carry register. -/
theorem commit_phaseInv_carried {inp : Inputs} {s : State} {pl : Plan} (hst : (commit inp s pl).st = .data)
    (hcnt : (commit inp s pl).cnt = 0) (hs : sLOf s.cfg.D (commit inp s pl).sL ≠ 0) (hg : grantInv s)
    (hx : rawXfer inp s pl = true)
    (hfit : fits (rawOf inp s).last (rawOf inp s).slots (sLOf s.cfg.D (commit inp s pl).sL) = false) :
    phaseInv (commit inp s pl) := by
  have hcarry := commit_carry_xfer hx
  cases hl : (rawOf inp s).last with
  | true =>
    rw [hl] at hfit
    refine (phaseInv_flush hst hs (by rw [hcarry, hl])).mpr ⟨hcnt, commit_no_packet hg hx hl, ?_⟩
    rw [hcarry]
    exact exists_enabled_of_not_fits hfit
  | false => exact (phaseInv_window hst hs (by rw [hcarry, hl])).mpr ⟨hcnt, commit_some_packet hx hl⟩

/-- R190 to R195: the transfer of an output word keeps the phase's clause. -/
theorem commit_phaseInv_offers {inp : Inputs} {s : State} {pl : Plan} (hready : inp.ready = true)
    (ho : Offers s (rawOf inp s) pl) (hg : grantInv s) (h : phaseInv s) : phaseInv (commit inp s pl) := by
  cases ho with
  | headerWord hst hv hc hemit htakes =>
    have hst' := commit_st_of_emit (s := s) hready hemit
    have hx : rawXfer inp s pl = false := rawXfer_of_not_takes htakes
    obtain ⟨x, hsel⟩ := exists_selOf_of_valid hv
    obtain ⟨hnone, -⟩ := (phaseInv_header hst).mp h
    exact (phaseInv_header hst').mpr
      ⟨fun y => (commit_inPacketOn_no_xfer hx y).trans (hnone y), fun _ => commit_grant_ne_idle hsel (.inl hx)⟩
  | headerEnd hst hv hc hfit hemit htakes =>
    have hst' := commit_st_of_emit (s := s) hready hemit
    have hcnt' := commit_cnt_of_emit (s := s) hready hemit
    exact commit_phaseInv_packet_end hst' hcnt' hg (rawXfer_eq_true.mpr ⟨hv, htakes, hready⟩) (last_of_fits hfit)
  | headerThenData hst hv hc hfit hemit htakes =>
    have hst' := commit_st_of_emit (s := s) hready hemit
    have hcnt' := commit_cnt_of_emit (s := s) hready hemit
    have hsL' := commit_sL_of_emit (s := s) hready hemit
    have hs' := (congrArg (sLOf s.cfg.D) hsL').trans (sLOf_shiftOf s.cfg _)
    by_cases hshift : shiftOf s.cfg.D (headerSize (rawOf inp s).fmt) = 0
    · obtain ⟨x, hsel⟩ := exists_selOf_of_valid hv
      have hx : rawXfer inp s pl = false := rawXfer_of_not_takes (by simp [htakes, hshift])
      exact (phaseInv_pass hst' (hs'.trans hshift)).mpr ⟨hcnt', commit_grant_ne_idle hsel (.inl hx)⟩
    · have htakes' : pl.takes = true := htakes.trans (decide_eq_true (Nat.pos_of_ne_zero hshift))
      exact commit_phaseInv_carried hst' hcnt' (hs' ▸ hshift) hg (rawXfer_eq_true.mpr ⟨hv, htakes', hready⟩)
        (hs' ▸ hfit)
  | pass hst hs hv hemit htakes =>
    have hst' := commit_st_of_emit (s := s) hready hemit
    have hcnt' := commit_cnt_of_emit (s := s) hready hemit
    have hsL' := commit_sL_of_emit (s := s) hready hemit
    obtain ⟨hcnt, -⟩ := (phaseInv_pass hst hs).mp h
    cases hl : (rawOf inp s).last with
    | true =>
      exact commit_phaseInv_packet_end (hst'.trans (by simp [hl])) (hcnt'.trans hcnt) hg
        (rawXfer_eq_true.mpr ⟨hv, htakes, hready⟩) hl
    | false =>
      obtain ⟨x, hsel⟩ := exists_selOf_of_valid hv
      exact (phaseInv_pass (hst'.trans (by simp [hl])) ((congrArg (sLOf s.cfg.D) hsL').trans hs)).mpr
        ⟨hcnt'.trans hcnt, commit_grant_ne_idle hsel (.inr hl)⟩
  | flush hst hs hl hemit htakes =>
    have hst' := commit_st_of_emit (s := s) hready hemit
    have hcnt' := commit_cnt_of_emit (s := s) hready hemit
    have hx : rawXfer inp s pl = false := rawXfer_of_not_takes htakes
    obtain ⟨hcnt, hnone, -⟩ := (phaseInv_flush hst hs hl).mp h
    refine (phaseInv_header hst').mpr ⟨fun y => (commit_inPacketOn_no_xfer hx y).trans (hnone y), fun hc => ?_⟩
    rw [hcnt'.trans hcnt, cntOf_zero] at hc
    exact absurd rfl hc
  | window hst hs hl hv hemit htakes =>
    have hst' := commit_st_of_emit (s := s) hready hemit
    have hcnt' := commit_cnt_of_emit (s := s) hready hemit
    have hsL' := commit_sL_of_emit (s := s) hready hemit
    obtain ⟨hcnt, -⟩ := (phaseInv_window hst hs hl).mp h
    have hx : rawXfer inp s pl = true := rawXfer_eq_true.mpr ⟨hv, htakes, hready⟩
    cases hfit : fits (rawOf inp s).last (rawOf inp s).slots (sLOf s.cfg.D s.sL) with
    | true =>
      exact commit_phaseInv_packet_end (hst'.trans (by simp [hfit])) (hcnt'.trans hcnt) hg hx (last_of_fits hfit)
    | false =>
      exact commit_phaseInv_carried (hst'.trans (by simp [hfit])) (hcnt'.trans hcnt) (hsL' ▸ hs) hg hx (hsL' ▸ hfit)

end Sys2Proof.Machine
end

section
/-! The invariant's clauses about the registers' ranges and the words emitted (R20 to R25, R54, R61) over a committed
step. -/

namespace Sys2Proof.Machine

/-! ## The registers' ranges -/

/-- R22, R54: the carry register keeps its `D` slots. -/
theorem commit_carry_length {inp : Inputs} {s : State} (pl : Plan) (h : s.carry.slots.length = s.cfg.D) :
    (commit inp s pl).carry.slots.length = s.cfg.D := by
  cases hx : rawXfer inp s pl with
  | false => rw [commit_carry_no_xfer hx, h]
  | true => rw [commit_carry_xfer hx, rawOf_slots_length (rawXfer_eq_true.mp hx).1]

/-- R20, R24: `cnt` stays 0 where no header spans two words. -/
theorem commit_cnt_eq_zero {inp : Inputs} {s : State} {pl : Plan} (hp : planOf s (rawOf inp s) = some pl)
    (hD : s.cfg.D ≠ 2) (h : s.cnt = 0) : (commit inp s pl).cnt = 0 := by
  rcases commit_stays_or_offers hp with ⟨-, hcnt', -⟩ | ⟨hready, ho⟩
  · rw [hcnt', h]
  · cases ho with
    | headerWord hst hv hc hemit htakes =>
      rw [headerWords_eq_one hD] at hc
      omega
    | headerEnd hst hv hc hfit hemit htakes => exact commit_cnt_of_emit hready hemit
    | headerThenData hst hv hc hfit hemit htakes => exact commit_cnt_of_emit hready hemit
    | pass hst hs hv hemit htakes => exact (commit_cnt_of_emit hready hemit).trans h
    | flush hst hs hl hemit htakes => exact (commit_cnt_of_emit hready hemit).trans h
    | window hst hs hl hv hemit htakes => exact (commit_cnt_of_emit hready hemit).trans h

/-- R25: a step that ends in `DATA` began there with the same `sL`, or has just set `sL` to the header's shift. -/
theorem commit_sL_of_data {inp : Inputs} {s : State} {pl : Plan} (hp : planOf s (rawOf inp s) = some pl)
    (hdata : (commit inp s pl).st = .data) :
    (s.st = .data ∧ (commit inp s pl).sL = s.sL) ∨
    ((commit inp s pl).sL = BitVec.ofNat 4 (shiftOf s.cfg.D (headerSize (rawOf inp s).fmt)) ∧
      (shiftOf s.cfg.D (headerSize (rawOf inp s).fmt) ≠ 0 → rawXfer inp s pl = true)) := by
  rcases commit_stays_or_offers hp with ⟨hst', -, hsL', -⟩ | ⟨hready, ho⟩
  · exact .inl ⟨hst'.symm.trans hdata, hsL'⟩
  · cases ho with
    | headerWord hst hv hc hemit htakes =>
      rw [commit_st_of_emit hready hemit] at hdata
      cases hdata
    | headerEnd hst hv hc hfit hemit htakes =>
      rw [commit_st_of_emit hready hemit] at hdata
      cases hdata
    | headerThenData hst hv hc hfit hemit htakes =>
      refine .inr ⟨commit_sL_of_emit hready hemit, fun hshift => rawXfer_eq_true.mpr ⟨hv, ?_, hready⟩⟩
      exact htakes.trans (decide_eq_true (Nat.pos_of_ne_zero hshift))
    | pass hst hs hv hemit htakes => exact .inl ⟨hst, commit_sL_of_emit hready hemit⟩
    | flush hst hs hl hemit htakes => exact .inl ⟨hst, commit_sL_of_emit hready hemit⟩
    | window hst hs hl hv hemit htakes => exact .inl ⟨hst, commit_sL_of_emit hready hemit⟩

/-- R22, R61: whole enables in the carry register are replaced by whole enables. -/
theorem commit_carry_wholeEnables {inp : Inputs} {s : State} {pl : Plan}
    (h : rawXfer inp s pl = true ∨ wholeEnables s.carry.slots) : wholeEnables (commit inp s pl).carry.slots := by
  cases hx : rawXfer inp s pl with
  | true =>
    rw [commit_carry_xfer hx]
    exact rawOf_wholeEnables inp s
  | false =>
    rw [commit_carry_no_xfer hx]
    exact h.resolve_left (by simp [hx])

/-- R20 to R25: a committed step keeps the registers' ranges. -/
theorem commit_rangeInv {inp : Inputs} {s : State} {pl : Plan} (hp : planOf s (rawOf inp s) = some pl)
    (h : rangeInv s) : rangeInv (commit inp s pl) := by
  obtain ⟨hlen, hcnt, hdata⟩ := h
  refine ⟨commit_carry_length pl hlen, fun hD => commit_cnt_eq_zero hp hD (hcnt hD), fun hdata' => ?_⟩
  rw [commit_cfg]
  rcases commit_sL_of_data hp hdata' with ⟨hst, hsL'⟩ | ⟨hsL', htaken⟩
  · rw [hsL']
    obtain ⟨hshift, hwhole⟩ := hdata hst
    exact ⟨hshift, fun hs => commit_carry_wholeEnables (.inr (hwhole hs))⟩
  · rw [hsL', toNat_ofNat_shiftOf, sLOf_shiftOf]
    refine ⟨?_, fun hs => commit_carry_wholeEnables (.inl (htaken hs))⟩
    rcases headerSize_cases (rawOf inp s).fmt with h | h <;> simp [h]

/-! ## The words emitted -/

theorem wholeEnables_append {l m : List Slot} (hl : wholeEnables l) (hm : wholeEnables m) :
    wholeEnables (l ++ m) :=
  fun x hx => (List.mem_append.mp hx).elim (hl x) (hm x)

theorem wholeEnables_take {l : List Slot} (h : wholeEnables l) (n : Nat) : wholeEnables (l.take n) :=
  fun x hx => h x (List.mem_of_mem_take hx)

theorem wholeEnables_drop {l : List Slot} (h : wholeEnables l) (n : Nat) : wholeEnables (l.drop n) :=
  fun x hx => h x (List.mem_of_mem_drop hx)

/-- R188: every header dword is wholly enabled. -/
theorem wholeEnables_headerSlots (h : BitVec 128) (j0 n : Nat) : wholeEnables (headerSlots h j0 n) := by
  intro x hx
  obtain ⟨j, -, rfl⟩ := List.mem_map.mp hx
  exact .inr rfl

/-- The free bits change no enable, so whole enables stay whole. -/
theorem wholeEnables_anyUnderZero {l : List Slot} (h : wholeEnables l) (draw : Nat) :
    wholeEnables (anyUnderZero draw l) := by
  intro x hx
  have hbe : x.be ∈ l.map (·.be) := anyUnderZero_be draw l ▸ List.mem_map_of_mem hx
  obtain ⟨y, hy, hyx⟩ := List.mem_map.mp hbe
  exact hyx ▸ h y hy

/-- R54: the words of R188 have `D` slots. -/
theorem hdrLast_length {d c r : Nat} {i : RawWord} (hr : r ≤ d) (hi : i.slots.length = d) :
    (hdrLast d c r i).length = d := by
  simp [hdrLast, hi]
  omega

theorem window_length {d n : Nat} {c : Carry} {i : RawWord} (hn : n < d) (hi : i.slots.length = d) :
    (window d n c i).length = d := by
  simp [window, hi]
  omega

theorem flush_length {d n : Nat} {c : Carry} (hn : n < d) : (flush d n c).length = d := by
  simp [flush]
  omega

/-- R61: and whole enables, where the input word and the carry register have them. -/
theorem wholeEnables_hdrLast {i : RawWord} (h : wholeEnables i.slots) (d c r : Nat) :
    wholeEnables (hdrLast d c r i) :=
  wholeEnables_append (wholeEnables_headerSlots i.header (d * c) r) (wholeEnables_take h (d - r))

theorem wholeEnables_window {d : Nat} {c : Carry} {i : RawWord} (hc : wholeEnables c.slots) (hlen : c.slots.length = d)
    (hi : wholeEnables i.slots) (n : Nat) : wholeEnables (window d n c i) := by
  rw [window, fitSlots_of_length hlen]
  exact wholeEnables_append (wholeEnables_drop hc n) (wholeEnables_take hi n)

theorem wholeEnables_flush {d : Nat} {c : Carry} (hc : wholeEnables c.slots) (hlen : c.slots.length = d) (n : Nat) :
    wholeEnables (flush d n c) := by
  rw [flush, fitSlots_of_length hlen]
  exact wholeEnables_append (wholeEnables_drop hc n)
    fun x hx => .inl (congrArg Slot.be (List.eq_of_mem_replicate hx))

/-- R54, R61: every word the inserter offers has `D` slots with whole enables. -/
theorem offers_whole {inp : Inputs} {s : State} {pl : Plan} {e : Emit} (ho : Offers s (rawOf inp s) pl)
    (he : pl.emit = some e) (h : rangeInv s) : e.slots.length = s.cfg.D ∧ wholeEnables e.slots := by
  obtain ⟨hlen, -, hdata⟩ := h
  have hraw := rawOf_wholeEnables inp s
  have hemits {e' : Emit} (he' : pl.emit = some e') : e = e' := Option.some.inj (he.symm.trans he')
  cases ho with
  | headerWord hst hv hc hemit htakes =>
    rw [hemits hemit]
    exact ⟨headerSlots_length .., wholeEnables_headerSlots _ _ _⟩
  | headerEnd hst hv hc hfit hemit htakes =>
    rw [hemits hemit]
    exact ⟨hdrLast_length (headerRest_le ..) (rawOf_slots_length hv), wholeEnables_hdrLast hraw _ _ _⟩
  | headerThenData hst hv hc hfit hemit htakes =>
    rw [hemits hemit]
    exact ⟨hdrLast_length (headerRest_le ..) (rawOf_slots_length hv), wholeEnables_hdrLast hraw _ _ _⟩
  | pass hst hs hv hemit htakes =>
    rw [hemits hemit]
    exact ⟨rawOf_slots_length hv, hraw⟩
  | flush hst hs hl hemit htakes =>
    rw [hemits hemit]
    obtain ⟨-, hwhole⟩ := hdata hst
    exact ⟨flush_length (sLOf_lt ..), wholeEnables_flush (hwhole hs) hlen _⟩
  | window hst hs hl hv hemit htakes =>
    rw [hemits hemit]
    obtain ⟨-, hwhole⟩ := hdata hst
    exact ⟨window_length (sLOf_lt ..) (rawOf_slots_length hv), wholeEnables_window (hwhole hs) hlen hraw _⟩

/-- R54, R61: a committed step emits well-formed words only. -/
theorem commit_sentInv {inp : Inputs} {s : State} {pl : Plan} (hp : planOf s (rawOf inp s) = some pl)
    (hrange : rangeInv s) (h : sentInv s) : sentInv (commit inp s pl) := by
  rcases commit_stays_or_offers hp with ⟨-, -, -, hsent', -⟩ | ⟨hready, ho⟩
  · simp only [sentInv, hsent', commit_cfg]
    exact h
  · intro w hw
    simp only [commit_sent, hready, if_true, List.mem_append, Option.mem_toList, Option.map_eq_some_iff] at hw
    rcases hw with hw | ⟨e, he, rfl⟩
    · exact h w hw
    · obtain ⟨hlen, hwhole⟩ := offers_whole ho he hrange
      exact ⟨(anyUnderZero_length ..).trans hlen, wholeEnables_anyUnderZero hwhole _⟩

end Sys2Proof.Machine
end

section
/-! The invariant over every fault-free step (R22 to R26, R173, R190 to R195, R250). -/

namespace Sys2Proof.Machine


/-- A committed step keeps the invariant. -/
theorem commit_inv {inp : Inputs} {s : State} {pl : Plan} (hv : violationOf s inp = none)
    (hp : planOf s (rawOf inp s) = some pl) (h : s.Inv) : (commit inp s pl).Inv := by
  obtain ⟨hreq, hcmp, hgrant, hphase, hrange, hsent⟩ := h
  have hphase' : phaseInv (commit inp s pl) := by
    rcases commit_stays_or_offers hp with ⟨hst', hcnt', hsL', -, hx⟩ | ⟨hready, ho⟩
    · exact commit_phaseInv_stay hst' hcnt' hsL' hx hphase
    · exact commit_phaseInv_offers hready ho hgrant hphase
  exact ⟨monitorInv_next hreq .., monitorInv_next hcmp .., commit_grantInv hgrant hv, hphase',
    commit_rangeInv hp hrange, commit_sentInv hp hrange hsent⟩

/-- R270: a step under reset is the reset step. -/
theorem cycle_reset {inp : Inputs} {s t : State} (h : cycle inp s = .next t) (hr : inp.rst = true) :
    t = resetStep s := by
  rcases cycle_cases h with ⟨-, rfl⟩ | ⟨h', -⟩
  · rfl
  · simp [hr] at h'

/-- Settles O50: a fault-free step is a reset step, which gives the invariant back, or a committed one, which keeps it
clause by clause. -/
theorem invariantIsKept : Obligations.InvariantIsKept := by
  have hreset (s t : State) (hsent : sentInv s) (hr : (inputsOf s).rst = true) (h : step s = .next t) : t.Inv := by
    obtain ⟨inp, hc, hrst, -⟩ := step_next_cycle h
    rw [cycle_reset hc (hrst.trans hr)]
    exact resetStep_inv hsent
  refine ⟨fun s t hinv h hfault => ?_, hreset⟩
  cases hr : (inputsOf s).rst with
  | true =>
    obtain ⟨-, -, -, -, -, hsent⟩ := hinv
    exact hreset s t hsent hr h
  | false =>
    obtain ⟨inp, hc, hrst, -⟩ := step_next_cycle h
    obtain ⟨pl, -, hv, hp, rfl⟩ := cycle_faultFree hc (hrst.trans hr) hfault
    exact commit_inv hv hp hinv

end Sys2Proof.Machine
end

section
/-! The protocol monitors (R250 to R258): a check reports the violations that hold by rank. -/

namespace Sys2Proof.Machine

open Sys2Proof.Claims

theorem forall_code_iff {p : Code → Prop} :
    (∀ c, p c) ↔ p .offerRetracted ∧ p .firstMisplaced ∧ p .lastMisplaced ∧ p .zeroLengthRequest ∧
      p .paramsChanged ∧ p .multiWordNoData :=
  ⟨fun h => ⟨h _, h _, h _, h _, h _, h _⟩, fun ⟨hret, hfirst, hlast, hzero, hparams, hmulti⟩ c => by
    cases c <;> assumption⟩

/-! ## The rank of a violation -/

/-- The rank of R258 b among the violations that hold: the lowest code, `MultiWordNoData` standing for
`LastMisplaced` when both do. -/
def rankedCode (h : Code → Prop) [DecidablePred h] : Option Code :=
  if h .offerRetracted then some .offerRetracted
  else if h .firstMisplaced then some .firstMisplaced
  else if h .lastMisplaced ∧ h .multiWordNoData then some .multiWordNoData
  else if h .lastMisplaced then some .lastMisplaced
  else if h .zeroLengthRequest then some .zeroLengthRequest
  else if h .paramsChanged then some .paramsChanged
  else if h .multiWordNoData then some .multiWordNoData
  else none

theorem rightCode_none {h : Code → Prop} (hall : ∀ c, ¬ h c) : RightCode none h :=
  ⟨iff_of_true rfl hall, fun _ hc => by cases hc⟩

/-- A code other than `MultiWordNoData` is right when it is the lowest that holds and, for `LastMisplaced`, when
`MultiWordNoData` does not stand for it. -/
theorem rightCode_lowest {h : Code → Prop} {c : Code} (hc : h c) (hne : c ≠ .multiWordNoData)
    (hmin : ∀ c', c'.number < c.number → ¬ h c') (hlast : c = .lastMisplaced → ¬ h .multiWordNoData) :
    RightCode (some c) h := by
  refine ⟨iff_of_false (by simp) fun hall => hall c hc, ?_⟩
  rintro _ ⟨⟩
  exact ⟨hc, fun _ => ⟨fun c' hc' => Nat.le_of_not_lt fun hlt => hmin c' hlt hc', hlast⟩, fun heq => absurd heq hne⟩

/-- `MultiWordNoData` is right when no higher rank holds. -/
theorem rightCode_multiWordNoData {h : Code → Prop} (hc : h .multiWordNoData) (hret : ¬ h .offerRetracted)
    (hfirst : ¬ h .firstMisplaced) (hrank : h .lastMisplaced ∨ ¬ h .zeroLengthRequest ∧ ¬ h .paramsChanged) :
    RightCode (some .multiWordNoData) h := by
  refine ⟨iff_of_false (by simp) fun hall => hall _ hc, ?_⟩
  rintro _ ⟨⟩
  exact ⟨hc, fun hne => absurd rfl hne, fun _ => ⟨hret, hfirst, hrank⟩⟩

/-- R258 b: the ranked code is right, whatever the violations are that hold. -/
theorem rightCode_rankedCode (h : Code → Prop) [DecidablePred h] : RightCode (rankedCode h) h := by
  unfold rankedCode
  split_ifs with hret hfirst hboth hlast hzero hparams hmulti
  · exact rightCode_lowest hret (by decide) (by simp [forall_code_iff, Code.number]) (by simp)
  · exact rightCode_lowest hfirst (by decide) (by simp [forall_code_iff, Code.number, hret]) (by simp)
  · exact rightCode_multiWordNoData hboth.2 hret hfirst (.inl hboth.1)
  · exact rightCode_lowest hlast (by decide) (by simp [forall_code_iff, Code.number, hret, hfirst])
      fun _ hmulti => hboth ⟨hlast, hmulti⟩
  · exact rightCode_lowest hzero (by decide) (by simp [forall_code_iff, Code.number, hret, hfirst, hlast]) (by simp)
  · exact rightCode_lowest hparams (by decide)
      (by simp [forall_code_iff, Code.number, hret, hfirst, hlast, hzero]) (by simp)
  · exact rightCode_multiWordNoData hmulti hret hfirst (.inr ⟨hzero, hparams⟩)
  · exact rightCode_none (forall_code_iff.mpr ⟨hret, hfirst, hlast, hzero, hparams, hmulti⟩)

/-! ## The monitors -/

section
variable {ω π : Type} (m : Monitor ω π) (w : ω) (valid first last : Bool) (side : π)
  (need : Nat) (zeroLen noData : Bool)

/-- R252: the monitor's test for a retracted offer. -/
theorem holds_offerRetracted_iff [DecidableEq ω] :
    holds m w valid first last side need zeroLen noData .offerRetracted ↔ retracted m w valid = true := by
  cases ho : m.offered with
  | none => simp [holds, retracted, ho]
  | some o => simp [holds, retracted, ho]

/-- R253 to R257 speak of a word on offer: without one only a retracted offer can hold. -/
theorem not_holds_of_not_valid {c : Code} (hc : c ≠ .offerRetracted) :
    ¬ holds m w false first last side need zeroLen noData c := by
  cases c with
  | offerRetracted => exact absurd rfl hc
  | _ => simp [holds]

/-- R258: a monitor reports the ranked code of the violations that hold. -/
theorem monitorCheck_eq_rankedCode [DecidableEq ω] [DecidableEq π]
    [DecidablePred (holds m w valid first last side need zeroLen noData)] :
    monitorCheck m w valid first last side need zeroLen noData =
      rankedCode (holds m w valid first last side need zeroLen noData) := by
  cases valid with
  | false =>
    have hno {c : Code} := not_holds_of_not_valid m w first last side need zeroLen noData (c := c)
    simp [monitorCheck, rankedCode, holds_offerRetracted_iff, hno]
  | true =>
    -- Test by test the two agree, the monitor's in its Booleans and the rank's in what holds.
    simp only [monitorCheck, rankedCode, holds_offerRetracted_iff]
    simp [holds, beq_eq_decide, Classical.or_iff_not_imp_left]

/-- R258: what a monitor finds is right. -/
theorem monitorCheck_rightCode [DecidableEq ω] [DecidableEq π] :
    RightCode (monitorCheck m w valid first last side need zeroLen noData)
      (holds m w valid first last side need zeroLen noData) := by
  classical
  rw [monitorCheck_eq_rankedCode]
  exact rightCode_rankedCode _

end

/-- Settles O42: a monitor reports the ranked code, and the checks of the two streams are monitors with the parameters
R254, R255 and R257 give. -/
theorem monitorRecordsTheRightCode : Obligations.MonitorRecordsTheRightCode := by
  refine ⟨fun _ _ _ _ m w valid first last side need zeroLen noData => ?_, fun s r => ?_, fun s c => ?_⟩
  · exact monitorCheck_rightCode ..
  · rw [Bool.decide_eq_false]
    exact monitorCheck_rightCode ..
  · have hneed : (if c.err = false then max 1 ((c.len.toNat + s.cfg.D - 1) / s.cfg.D) else 1) =
        wordsNeeded s.cfg.D (!c.err) c.len.toNat := by
      simp [wordsNeeded, ceilDiv]
    rw [hneed]
    exact monitorCheck_rightCode ..

end Sys2Proof.Machine
end

section
/-! What a consumer may read of a word (R233, R280), along the machine: the data under a zero enable is dropped from
slots, raw words and the inserter's plans, and what is left of a plan depends only on what is left of the raw word. So
the `dat` of a word without payload shows nowhere (R69, U11). -/

namespace Sys2Proof.Machine

open Sys2Proof.Claims

/-! ## What may be read -/

/-- A slot as far as it may be read: without the data under a zero enable. -/
def slotRead (x : Slot) : Slot := if x.be = noneEnabled then ⟨0, noneEnabled⟩ else x

/-- A raw word as far as it may be read. -/
def RawWord.read (i : RawWord) : RawWord := { i with slots := i.slots.map slotRead }

/-- An output word, with the registers that follow it, as far as it may be read. -/
def Emit.read (e : Emit) : Emit := { e with slots := e.slots.map slotRead }

/-- The inserter's move as far as it may be read. -/
def Plan.read (pl : Plan) : Plan := { pl with emit := pl.emit.map Emit.read }

@[simp] theorem slotRead_be (x : Slot) : (slotRead x).be = x.be := by
  by_cases h : x.be = noneEnabled <;> simp [slotRead, h]

@[simp] theorem slotRead_slotRead (x : Slot) : slotRead (slotRead x) = slotRead x := by
  by_cases h : x.be = noneEnabled <;> simp [slotRead, h]

@[simp] theorem slotRead_comp_slotRead : slotRead ∘ slotRead = slotRead := funext slotRead_slotRead

/-- R233: what a consumer sees of an output word is what may be read of it. -/
theorem seen_phyOf_read (t : Nat) (e : Emit) : seen (phyOf t e.read) = seen (phyOf t e) := by
  have hslots (e : Emit) : seen (phyOf t e) = ⟨e.first, e.last, e.slots.map slotRead⟩ := seen_phyOf t e
  simp [hslots, Emit.read]

/-! ## The inserter -/

@[simp] theorem RawWord.read_valid (i : RawWord) : i.read.valid = i.valid := rfl
@[simp] theorem RawWord.read_first (i : RawWord) : i.read.first = i.first := rfl
@[simp] theorem RawWord.read_last (i : RawWord) : i.read.last = i.last := rfl
@[simp] theorem RawWord.read_slots (i : RawWord) : i.read.slots = i.slots.map slotRead := rfl
@[simp] theorem RawWord.read_header (i : RawWord) : i.read.header = i.header := rfl
@[simp] theorem RawWord.read_fmt (i : RawWord) : i.read.fmt = i.fmt := rfl

/-- R189: the fits test looks at enables only. -/
@[simp] theorem fits_map_slotRead (last : Bool) (l : List Slot) (n : Nat) :
    fits last (l.map slotRead) n = fits last l n := by
  simp [fits, ← List.map_drop, Function.comp_def]

/-- R188: a header word before the last one holds nothing of the payload. -/
theorem hdrOnly_read (d c : Nat) (i : RawWord) : hdrOnly d c i.read = hdrOnly d c i := rfl

theorem hdrLast_read (d c r : Nat) (i : RawWord) :
    (hdrLast d c r i.read).map slotRead = (hdrLast d c r i).map slotRead := by
  simp [hdrLast]

theorem window_read (d n : Nat) (c : Carry) (i : RawWord) :
    (window d n c i.read).map slotRead = (window d n c i).map slotRead := by
  simp [window]

/-- R190 to R192: in `HEADER` what may be read of the inserter's move depends only on what may be read of the raw
word. -/
theorem planHeader_read (d : Nat) (cnt : BitVec 1) (sL : BitVec 4) (i : RawWord) :
    (planHeader d cnt sL i.read).map Plan.read = (planHeader d cnt sL i).map Plan.read := by
  simp only [planHeader, RawWord.read_valid, RawWord.read_first, RawWord.read_last, RawWord.read_fmt,
    RawWord.read_slots, fits_map_slotRead]
  split_ifs with hv hf hc hfit
  · rfl
  · rfl
  · rw [hdrOnly_read]
  · simp [Plan.read, Emit.read, hdrLast_read]
  · simp only [Option.map_some, Plan.read, Emit.read, hdrLast_read]
    rfl

/-- R193: the same of a word passed through. -/
theorem planPass_read (cnt : BitVec 1) (sL : BitVec 4) (i : RawWord) :
    (planPass cnt sL i.read).read = (planPass cnt sL i).read := by
  cases hv : i.valid with
  | false => simp [planPass, hv]
  | true => cases hl : i.last <;> simp [planPass, hv, hl, Plan.read, Emit.read]

/-- R194: the same of the sliding window. -/
theorem planWindow_read (d : Nat) (cnt : BitVec 1) (sL : BitVec 4) (c : Carry) (i : RawWord) :
    (planWindow d cnt sL c i.read).map Plan.read = (planWindow d cnt sL c i).map Plan.read := by
  simp only [planWindow, RawWord.read_valid, RawWord.read_first, RawWord.read_last, RawWord.read_slots,
    fits_map_slotRead]
  split_ifs with hv hf hfit
  · rfl
  · rfl
  · simp [Plan.read, Emit.read, window_read]
  · simp [Plan.read, Emit.read, window_read]

/-- R190 to R195: the same of every move of the inserter. -/
theorem planOf_read (s : State) (i : RawWord) : (planOf s i.read).map Plan.read = (planOf s i).map Plan.read := by
  unfold planOf
  cases s.st with
  | header => exact planHeader_read ..
  | data =>
    simp only
    split_ifs with hs hl
    · exact congrArg some (planPass_read ..)
    · rfl
    · exact planWindow_read ..

/-- Two raw words that agree as far as they may be read make the inserter move alike, as far as its move may be
read. -/
theorem exists_planOf_of_read_eq {s : State} {i i' : RawWord} {pl : Plan} (hread : i'.read = i.read)
    (hp : planOf s i = some pl) : ∃ pl', planOf s i' = some pl' ∧ pl'.read = pl.read := by
  have hplan : (planOf s i').map Plan.read = some pl.read := by
    rw [← planOf_read, hread, planOf_read, hp]
    rfl
  exact Option.map_eq_some_iff.mp hplan

/-! ## The committed step -/

/-- What reads no more of an output word than may be read is the same of two moves that agree there. -/
theorem map_emit_of_read_eq {α : Type} {o o' : Option Emit} (f : Emit → α) (hf : ∀ e, f e.read = f e)
    (h : o'.map Emit.read = o.map Emit.read) : o'.map f = o.map f := by
  have hcomp : f ∘ Emit.read = f := funext hf
  rw [← hcomp, ← Option.map_map, h, Option.map_map]

/-- Two committed steps show the same and leave the same sequencing state, where the consumer's `ready`, the selected
source and, as far as they may be read, the raw words and the moves of the inserter agree. -/
theorem commit_sameRun {inp inp' : Inputs} {s : State} {pl pl' : Plan} (hfault : s.fault = none)
    (hready : inp'.ready = inp.ready) (hsel : selOf inp' s = selOf inp s)
    (hraw : (rawOf inp' s).read = (rawOf inp s).read) (hpl : pl'.read = pl.read) :
    SameRun (commit inp s pl) (commit inp' s pl') := by
  have hemit : pl'.emit.map Emit.read = pl.emit.map Emit.read := (congrArg Plan.emit hpl :)
  have htakes : pl'.takes = pl.takes := (congrArg Plan.takes hpl :)
  have hvalid : (rawOf inp' s).valid = (rawOf inp s).valid := (congrArg RawWord.valid hraw :)
  have hlast : (rawOf inp' s).last = (rawOf inp s).last := (congrArg RawWord.last hraw :)
  have hmoved : (if inp'.ready then pl'.emit else none).map Emit.read =
      (if inp.ready then pl.emit else none).map Emit.read := by
    rw [hready]
    split
    · exact hemit
    · rfl
  have hreadyTo (x : Source) : readyTo x inp' s pl' = readyTo x inp s pl := by
    simp [readyTo, hsel, htakes, hready]
  have hxfer : rawXfer inp' s pl' = rawXfer inp s pl := by simp [rawXfer, hvalid, htakes, hready]
  have hseen := seen_phyOf_read s.time
  refine ⟨hfault, ?_, ?_, ?_, ?_, ?_, ?_, ?_, ?_, ?_⟩
  · simp only [commit_sent, List.map_append, ← Option.toList_map, Option.map_map]
    rw [map_emit_of_read_eq _ hseen hmoved]
  · simp only [commit_phy, Option.map_map]
    exact map_emit_of_read_eq _ hseen hemit
  · simp only [readySeen_commit, hreadyTo]
  · simp only [readySeen_commit, hreadyTo]
  · rw [commit_st, commit_st, map_emit_of_read_eq _ (fun _ => rfl) hmoved]
  · rw [commit_cnt, commit_cnt, map_emit_of_read_eq _ (fun _ => rfl) hmoved]
  · rw [commit_sL, commit_sL, map_emit_of_read_eq _ (fun _ => rfl) hmoved]
  · rw [commit_grant, commit_grant, hsel, hxfer, hlast]
  · rw [commit_policy, commit_policy, hsel]

/-- The same of two fault-free steps of the machine. -/
theorem exists_cycle_sameRun {inp inp' : Inputs} {s t : State} (hrst : inp.rst = false) (hrst' : inp'.rst = inp.rst)
    (hready : inp'.ready = inp.ready) (hsel : selOf inp' s = selOf inp s)
    (hraw : (rawOf inp' s).read = (rawOf inp s).read) (hv' : violationOf s inp' = none)
    (h : cycle inp s = .next t) (hfault : t.fault = none) : ∃ t', cycle inp' s = .next t' ∧ SameRun t t' := by
  obtain ⟨pl, hs, -, hp, rfl⟩ := cycle_faultFree h hrst hfault
  obtain ⟨pl', hp', hpl⟩ := exists_planOf_of_read_eq hraw hp
  exact ⟨_, cycle_commit (hrst'.trans hrst) hs hv' hp', commit_sameRun hs hready hsel hraw hpl⟩

/-! ## Words without payload -/

/-- R125, R144: where no slot is enabled no data can be read. -/
theorem convSlots_payloadSlots_zero_read (e : Endian) (d : Nat) (dat : List Dword) :
    (convSlots e (payloadSlots d 0 dat)).map slotRead = List.replicate d ⟨0, noneEnabled⟩ := by
  refine List.eq_replicate_iff.mpr ⟨by simp, fun x hx => ?_⟩
  simp only [convSlots, payloadSlots, List.map_map, List.mem_map] at hx
  obtain ⟨j, -, rfl⟩ := hx
  simp [convSlot, slotRead]

/-- R125: of a read request's word the `dat` cannot be read. -/
theorem rawReq_read_of_not_we (p : Params) {r : ReqIn} (hwe : r.we = false) (dat : List Dword) :
    (rawReq p { r with dat := dat }).read = (rawReq p r).read := by
  have hnv : reqEnabledSlots p.D r.we r.last r.len.toNat = 0 := by simp [reqEnabledSlots, hwe]
  simp only [RawWord.read, rawReq, hnv, convSlots_payloadSlots_zero_read]
  rfl

/-- R144: of an error completion's word neither. -/
theorem rawCmp_read_of_err (p : Params) {c : CmpIn} (herr : c.err = true) (dat : List Dword) :
    (rawCmp p { c with dat := dat }).read = (rawCmp p c).read := by
  have hnv : cmpEnabledSlots p.D c.err c.last c.len.toNat = 0 := by simp [cmpEnabledSlots, herr]
  simp only [RawWord.read, rawCmp, hnv, convSlots_payloadSlots_zero_read]
  rfl

/-- R172: so the word on `raw` is the same as far as it may be read, whichever source is selected. -/
theorem rawOf_read_eq {inp inp' : Inputs} {s : State} (hsel : selOf inp' s = selOf inp s)
    (hreq : (rawReq s.cfg inp'.req).read = (rawReq s.cfg inp.req).read)
    (hcmp : (rawCmp s.cfg inp'.cmp).read = (rawCmp s.cfg inp.cmp).read) :
    (rawOf inp' s).read = (rawOf inp s).read := by
  cases hsrc : selOf inp s with
  | none => rw [rawOf_none hsrc, rawOf_none (hsel.trans hsrc)]
  | some x =>
    cases x with
    | req => rwa [rawOf_req hsrc, rawOf_req (hsel.trans hsrc)]
    | cmp => rwa [rawOf_cmp hsrc, rawOf_cmp (hsel.trans hsrc)]

/-- Settles O37: the word on `raw` is the same as far as it may be read, and so the step shows the same. -/
theorem readPayloadIsIgnored : Obligations.ReadPayloadIsIgnored := by
  intro inp s t dat inp' hwe hrst _ hv' h hfault
  have hraw : (rawOf inp' s).read = (rawOf inp s).read :=
    rawOf_read_eq rfl (rawReq_read_of_not_we s.cfg hwe dat) rfl
  exact exists_cycle_sameRun hrst rfl rfl rfl hraw hv' h hfault

/-- Settles O58, as O37 with the word on `cmp_in`. -/
theorem errorCompletionPayloadIsIgnored : Obligations.ErrorCompletionPayloadIsIgnored := by
  intro inp s t dat inp' herr hrst _ hv' h hfault
  have hraw : (rawOf inp' s).read = (rawOf inp s).read :=
    rawOf_read_eq rfl rfl (rawCmp_read_of_err s.cfg herr dat)
  exact exists_cycle_sameRun hrst rfl rfl rfl hraw hv' h hfault

end Sys2Proof.Machine
end

section
/-! The fields of a header dword (R86 to R91): what reading a field gives of a dword put together from placed fields,
and the dword that masking to a field leaves. -/

namespace Sys2Proof

theorem getField_or (lo n : Nat) (a b : Dword) :
    getField lo n (a ||| b) = getField lo n a ||| getField lo n b := by
  simp [getField, BitVec.extractLsb'_or]

/-- A placed field is read back. -/
theorem getField_putField_same {n lo : Nat} (h : lo + n ≤ 32) (v : BitVec n) : getField lo n (putField lo v) = v := by
  apply BitVec.eq_of_getLsbD_eq
  intro j hj
  have h32 : lo + j < 32 := by omega
  rw [getLsbD_getField, getLsbD_putField]
  simp only [hj, h32, Nat.le_add_right, Nat.add_sub_cancel_left, decide_true, Bool.true_and]

/-- A field placed below or above is not seen. -/
theorem getField_putField_disjoint {m n lo lo' : Nat} (h : lo + n ≤ lo' ∨ lo' + m ≤ lo) (v : BitVec m) :
    getField lo n (putField lo' v) = 0#n := by
  apply BitVec.eq_of_getLsbD_eq
  intro j hj
  rw [getLsbD_getField, getLsbD_putField]
  rcases h with hbelow | habove
  · simp [show ¬ lo' ≤ lo + j by omega]
  · simp [BitVec.getLsbD_of_ge v (lo + j - lo') (by omega)]

/-- What masking to a field leaves of a dword: the field that is read there, placed again. -/
theorem and_fieldMask (lo n : Nat) (d : Dword) : d &&& fieldMask lo n = putField lo (getField lo n d) := by
  apply BitVec.eq_of_getLsbD_eq
  intro j hj
  rw [fieldMask, BitVec.getLsbD_and, getLsbD_putField, getLsbD_putField, getLsbD_getField, BitVec.getLsbD_allOnes]
  by_cases hlo : lo ≤ j
  · simp [hlo, hj, Bool.and_comm]
  · simp [hlo]

/-- A dword with no bit outside a mask is what masking leaves of it. -/
theorem and_of_clearOutside {mask d : Dword} (h : clearOutside mask d = true) : d &&& mask = d := by
  have h0 : d &&& ~~~mask = 0#32 := by simpa [clearOutside] using h
  calc d &&& mask = (d &&& mask) ||| (d &&& ~~~mask) := by rw [h0, BitVec.or_zero]
    _ = d &&& (mask ||| ~~~mask) := BitVec.and_or_distrib_left.symm
    _ = d := by rw [BitVec.or_not_self, BitVec.and_allOnes]

end Sys2Proof
end

section
/-! The kind of a header dword 0 (R92, R96, R97): it is decided by the seven bits `DW0[30:24]`. -/

namespace Sys2Proof

/-- `DW0[30:24]` of a kind: `fmt`, then `type` (R92). -/
def kindCode (k : Kind) : BitVec 7 := kindFmt k ++ kindType k

/-- The code stands in the match value, and the mask of R96 covers it alone. -/
theorem kindPattern_eq_putField (k : Kind) : kindPattern k = putField headerLayout.typeLo (kindCode k) := by
  cases k <;> decide

theorem kindMask_eq_fieldMask : kindMask = fieldMask headerLayout.typeLo 7 := by decide

/-- R96: a dword matches a kind's row exactly when it has the kind's code. -/
theorem and_kindMask_eq_iff (d : Dword) (k : Kind) :
    d &&& kindMask = kindPattern k ↔ getField headerLayout.typeLo 7 d = kindCode k := by
  rw [kindMask_eq_fieldMask, and_fieldMask, kindPattern_eq_putField]
  constructor
  · intro h
    have hget := congrArg (getField headerLayout.typeLo 7) h
    rwa [getField_putField_same (by decide), getField_putField_same (by decide)] at hget
  · exact congrArg _

/-- The opcode map finds the kind by its code. -/
theorem kindOf_eq_find? (d : Dword) :
    kindOf d = [Kind.mrd32, .mwr32, .mrd64, .mwr64, .cpl, .cpld].find? fun k =>
      getField headerLayout.typeLo 7 d == kindCode k := by
  have hrow : ∀ k, rowMatches d ⟨k, kindPattern k, kindMask⟩ = (getField headerLayout.typeLo 7 d == kindCode k) :=
    fun k => Bool.eq_iff_iff.mpr (by simp only [rowMatches, beq_iff_eq, and_kindMask_eq_iff])
  simp only [kindOf, opcodeMap, List.find?_map, Option.map_map, Function.comp_def, hrow, Option.map_id']

theorem kindOf_eq_some_iff {d : Dword} {k : Kind} :
    kindOf d = some k ↔ getField headerLayout.typeLo 7 d = kindCode k := by
  rw [kindOf_eq_find?]
  constructor
  · intro h
    simpa using List.find?_some h
  · intro h
    rw [h]
    cases k <;> decide

/-- R97: no kind has any other code than the six. -/
theorem kindOf_eq_none_iff {d : Dword} :
    kindOf d = none ↔ d.extractLsb' 24 7 ∉ [0x00#7, 0x40#7, 0x20#7, 0x60#7, 0x0A#7, 0x4A#7] := by
  have hcodes : [0x00#7, 0x40#7, 0x20#7, 0x60#7, 0x0A#7, 0x4A#7] =
      [Kind.mrd32, .mwr32, .mrd64, .mwr64, .cpl, .cpld].map kindCode := by decide
  have hcode : d.extractLsb' 24 7 = getField headerLayout.typeLo 7 d := rfl
  rw [hcodes, hcode, kindOf_eq_find?, List.find?_eq_none, List.mem_map, not_exists]
  simp only [beq_iff_eq, not_and, eq_comm (b := getField headerLayout.typeLo 7 d)]

end Sys2Proof
end

section
/-! The decoder's reading of a header (R98), said once as a relation: from which dwords each kind's fields come and what
is left. -/

namespace Sys2Proof

/-- `HeaderReading ds h rest`: at the head of `ds` stands a header of one of the six kinds with the fields `h`, and
`rest` follows it (R86 to R92, R98). -/
inductive HeaderReading : List Dword → HeaderFields → List Dword → Prop
  | mrd32 {d0 d1 d2 : Dword} {rest : List Dword} (hk : kindOf d0 = some .mrd32) :
    HeaderReading (d0 :: d1 :: d2 :: rest) (.mrd32 (reqFields d0 d1 (d2.setWidth 64))) rest
  | mwr32 {d0 d1 d2 : Dword} {rest : List Dword} (hk : kindOf d0 = some .mwr32) :
    HeaderReading (d0 :: d1 :: d2 :: rest) (.mwr32 (reqFields d0 d1 (d2.setWidth 64))) rest
  | mrd64 {d0 d1 d2 d3 : Dword} {rest : List Dword} (hk : kindOf d0 = some .mrd64) :
    HeaderReading (d0 :: d1 :: d2 :: d3 :: rest) (.mrd64 (reqFields d0 d1 (d2 ++ d3))) rest
  | mwr64 {d0 d1 d2 d3 : Dword} {rest : List Dword} (hk : kindOf d0 = some .mwr64) :
    HeaderReading (d0 :: d1 :: d2 :: d3 :: rest) (.mwr64 (reqFields d0 d1 (d2 ++ d3))) rest
  | cpl {d0 d1 d2 : Dword} {rest : List Dword} (hk : kindOf d0 = some .cpl) :
    HeaderReading (d0 :: d1 :: d2 :: rest) (.cpl (cmpFields d0 d1 d2)) rest
  | cpld {d0 d1 d2 : Dword} {rest : List Dword} (hk : kindOf d0 = some .cpld) :
    HeaderReading (d0 :: d1 :: d2 :: rest) (.cpld (cmpFields d0 d1 d2)) rest

theorem HeaderReading.decodeHeader_eq {ds rest : List Dword} {h : HeaderFields} (hr : HeaderReading ds h rest) :
    decodeHeader ds = .ok (h, rest) := by
  cases hr <;> simp [decodeHeader, *]

/-- A reading of the dwords is what the decoder answers for them. -/
theorem HeaderReading.of_decodeHeader {ds rest rest' : List Dword} {h h' : HeaderFields}
    (hr : HeaderReading ds h' rest') (hd : decodeHeader ds = .ok (h, rest)) : HeaderReading ds h rest := by
  obtain ⟨rfl, rfl⟩ := Prod.mk.inj (Except.ok.inj (hr.decodeHeader_eq.symm.trans hd))
  exact hr

/-- With `HeaderReading.decodeHeader_eq`: the relation is the decoder. -/
theorem headerReading_of_decodeHeader {ds rest : List Dword} {h : HeaderFields}
    (hd : decodeHeader ds = .ok (h, rest)) : HeaderReading ds h rest := by
  match ds, hd with
  | d0 :: d1 :: d2 :: tail, hd =>
    cases hk : kindOf d0 with
    | none => simp [decodeHeader, hk] at hd
    | some k =>
      cases k with
      | mrd32 => exact (HeaderReading.mrd32 hk).of_decodeHeader hd
      | mwr32 => exact (HeaderReading.mwr32 hk).of_decodeHeader hd
      | mrd64 =>
        cases tail with
        | nil => simp [decodeHeader, hk] at hd
        | cons d3 rest => exact (HeaderReading.mrd64 hk).of_decodeHeader hd
      | mwr64 =>
        cases tail with
        | nil => simp [decodeHeader, hk] at hd
        | cons d3 rest => exact (HeaderReading.mwr64 hk).of_decodeHeader hd
      | cpl => exact (HeaderReading.cpl hk).of_decodeHeader hd
      | cpld => exact (HeaderReading.cpld hk).of_decodeHeader hd

/-- `decode` reads a header and gives its operation. -/
theorem decode_eq_ok_iff {ds rest : List Dword} {i : Instr} :
    decode ds = .ok (i, rest) ↔ ∃ h, HeaderReading ds h rest ∧ operation h = i := by
  constructor
  · intro hi
    cases hd : decodeHeader ds with
    | error e => simp [decode, hd] at hi
    | ok r =>
      obtain ⟨h, after⟩ := r
      obtain ⟨rfl, rfl⟩ := Prod.mk.inj (Except.ok.inj ((decode_of_header hd).symm.trans hi))
      exact ⟨h, headerReading_of_decodeHeader hd, rfl⟩
  · rintro ⟨h, hr, rfl⟩
    exact decode_of_header hr.decodeHeader_eq

/-- R97 a: any other kind is refused by its `fmt` and `type`. -/
theorem decode_of_kindOf_none {d0 d1 d2 : Dword} {rest : List Dword} (hk : kindOf d0 = none) :
    decode (d0 :: d1 :: d2 :: rest) =
      .error (.unknownKind (getField headerLayout.fmtLo 2 d0) (getField headerLayout.typeLo 5 d0)) := by
  simp [decode, decodeHeader, hk]

/-- Four dwords of one of the six kinds are decoded. -/
theorem decode_of_kindOf_some {d0 d1 d2 d3 : Dword} {rest : List Dword} {k : Kind} (hk : kindOf d0 = some k) :
    ∃ i after, decode (d0 :: d1 :: d2 :: d3 :: rest) = .ok (i, after) := by
  cases k with
  | mrd32 => exact ⟨_, _, decode_of_header (HeaderReading.mrd32 hk).decodeHeader_eq⟩
  | mwr32 => exact ⟨_, _, decode_of_header (HeaderReading.mwr32 hk).decodeHeader_eq⟩
  | mrd64 => exact ⟨_, _, decode_of_header (HeaderReading.mrd64 hk).decodeHeader_eq⟩
  | mwr64 => exact ⟨_, _, decode_of_header (HeaderReading.mwr64 hk).decodeHeader_eq⟩
  | cpl => exact ⟨_, _, decode_of_header (HeaderReading.cpl hk).decodeHeader_eq⟩
  | cpld => exact ⟨_, _, decode_of_header (HeaderReading.cpld hk).decodeHeader_eq⟩

end Sys2Proof
end

section
/-! Decoding what was encoded (R98, R238): each field of an encoded dword is read back, for requests and completions
once, and from that for the six kinds. -/

namespace Sys2Proof

open Sys2Proof.Claims

theorem getField_length_encodeDw0 (k : Kind) (len : BitVec 10) :
    getField headerLayout.lengthLo 10 (encodeDw0 k len) = len := by
  simp [encodeDw0, kindPattern, getField_or, getField_putField_same, getField_putField_disjoint, headerLayout]

/-- R86, R87: a request's fields, read back. -/
theorem reqFields_encode (k : Kind) (len : BitVec 10) (reqId : BitVec 16) (tag : BitVec 8) (address : BitVec 64) :
    reqFields (encodeDw0 k len) (encodeReqDw1 len reqId tag) address =
      ⟨len, reqId, tag, encodeLastBe len, 0xF#4, address⟩ := by
  simp only [reqFields, getField_length_encodeDw0]
  simp [encodeReqDw1, getField_or, getField_putField_same, getField_putField_disjoint, headerLayout]

/-- R86, R90, R91: a completion's fields, read back. -/
theorem cmpFields_encode (k : Kind) (cmpId : BitVec 16) (status : BitVec 3) (reqId : BitVec 16) (tag ladr : BitVec 8)
    (len : BitVec 10) :
    cmpFields (encodeDw0 k len) (encodeCmpDw1 cmpId status len) (encodeCmpDw2 reqId tag ladr) =
      ⟨len, cmpId, status, encodeByteCount len, reqId, tag, ladr.extractLsb' 0 7⟩ := by
  simp only [cmpFields, getField_length_encodeDw0]
  simp [encodeCmpDw1, encodeCmpDw2, getField_or, getField_putField_same, getField_putField_disjoint, headerLayout]

/-- R143: two zero bits below `len` are `4 * len`. -/
theorem encodeByteCount_eq (len : BitVec 10) : encodeByteCount len = BitVec.ofNat 12 (4 * len.toNat) := by
  apply BitVec.eq_of_toNat_eq
  have hcount : (encodeByteCount len).toNat = len.toNat <<< 2 ||| 0 := BitVec.toNat_append len 0#2
  rw [hcount, BitVec.toNat_ofNat, Nat.or_zero, Nat.shiftLeft_eq]
  omega

theorem zero_append_eq_setWidth (adr : Dword) : 0#32 ++ adr = adr.setWidth 64 := by
  rw [BitVec.setWidth_eq_append (by decide)]
  rfl

theorem append_address_halves (adr : BitVec 64) : adr.extractLsb' 32 32 ++ adr.extractLsb' 0 32 = adr :=
  BitVec.extractLsb'_append_extractLsb'

/-- R148: seven bits of the lower address are all of it but bit 7. -/
theorem setWidth_lowerAddress (ladr : BitVec 8) : (ladr.extractLsb' 0 7).setWidth 8 = ladr &&& 0x7F#8 := by
  revert ladr; decide

/-- The header of an encoded operation is read with the fields the rules give it. -/
theorem decodeHeader_encode (i : Instr) (rest : List Dword) :
    decodeHeader (encode i ++ rest) = .ok (emittedFields i, rest) := by
  cases i with
  | mrd32 => simp [encode, decodeHeader, reqFields_encode, emittedFields, encodeLastBe, zero_append_eq_setWidth]
  | mwr32 => simp [encode, decodeHeader, reqFields_encode, emittedFields, encodeLastBe, zero_append_eq_setWidth]
  | mrd64 => simp [encode, decodeHeader, reqFields_encode, emittedFields, encodeLastBe, append_address_halves]
  | mwr64 => simp [encode, decodeHeader, reqFields_encode, emittedFields, encodeLastBe, append_address_halves]
  | cpl => simp [encode, decodeHeader, cmpFields_encode, emittedFields, encodeByteCount_eq, headerLayout]
  | cpld => simp [encode, decodeHeader, cmpFields_encode, emittedFields, encodeByteCount_eq, headerLayout]

/-- The operation those fields stand for. -/
theorem operation_emittedFields (i : Instr) : operation (emittedFields i) = onWire i := by
  cases i <;> simp [emittedFields, operation, onWire, setWidth_lowerAddress, zero_append_eq_setWidth]

/-- Settles O2: the encoded header is read with the fields the rules give it, and they stand for the operation. -/
theorem decodeOfEncodeIsTheOperation : Obligations.DecodeOfEncodeIsTheOperation := by
  intro i rest
  have hd := decodeHeader_encode i rest
  exact ⟨operation_emittedFields i ▸ decode_of_header hd, hd⟩

end Sys2Proof
end

section
/-! Encoding what was decoded (R86 to R93, R97): a dword with no bit outside its fields is those fields, placed again,
so a canonical header is the encoding of its operation. -/

namespace Sys2Proof

theorem encodeDw0_of_canonical {d0 : Dword} {k : Kind} (hk : kindOf d0 = some k) (hc : canonicalDw0 d0 = true) :
    encodeDw0 k (getField headerLayout.lengthLo 10 d0) = d0 := by
  have hmask := and_of_clearOutside hc
  rwa [BitVec.and_or_distrib_left, (and_kindMask_eq_iff d0 k).mpr (kindOf_eq_some_iff.mp hk), and_fieldMask] at hmask

theorem encodeReqDw1_of_canonical {d0 d1 : Dword} {address : BitVec 64}
    (hc : canonicalReq (reqFields d0 d1 address) d1 = true) :
    encodeReqDw1 (getField headerLayout.lengthLo 10 d0) (getField headerLayout.reqRequesterIdLo 16 d1)
      (getField headerLayout.reqTagLo 8 d1) = d1 := by
  simp only [canonicalReq, reqFields, Bool.and_eq_true, beq_iff_eq] at hc
  obtain ⟨⟨hfirst, hlast⟩, hclear⟩ := hc
  have hmask := and_of_clearOutside hclear
  simp only [reqDw1Mask, BitVec.and_or_distrib_left, and_fieldMask] at hmask
  rwa [hfirst, hlast] at hmask

theorem encodeCmp_of_canonical {status : BitVec 3} {d0 d1 d2 : Dword}
    (hc : canonicalCmp status (cmpFields d0 d1 d2) d1 d2 = true) :
    encodeCmpDw1 (getField headerLayout.completerIdLo 16 d1) status (getField headerLayout.lengthLo 10 d0) = d1 ∧
      encodeCmpDw2 (getField headerLayout.cmpRequesterIdLo 16 d2) (getField headerLayout.cmpTagLo 8 d2)
        ((getField headerLayout.lowerAddressLo 7 d2).setWidth 8) = d2 := by
  simp only [canonicalCmp, cmpFields, Bool.and_eq_true, beq_iff_eq] at hc
  obtain ⟨⟨⟨hstatus, hcount⟩, hclear1⟩, hclear2⟩ := hc
  have hmask1 := and_of_clearOutside hclear1
  have hmask2 := and_of_clearOutside hclear2
  simp only [cmpDw1Mask, cmpDw2Mask, BitVec.and_or_distrib_left, and_fieldMask] at hmask1 hmask2
  rw [hstatus, hcount] at hmask1
  refine ⟨hmask1, ?_⟩
  have hlow : ∀ v : BitVec 7, (v.setWidth 8).extractLsb' 0 7 = v := by decide
  rwa [encodeCmpDw2, hlow]

/-- What `canonicalHeader` asks of a header that is decoded. -/
theorem canonical_of_header {d0 d1 d2 : Dword} {tail rest : List Dword} {h : HeaderFields}
    (hd : decodeHeader (d0 :: d1 :: d2 :: tail) = .ok (h, rest))
    (hc : canonicalHeader (d0 :: d1 :: d2 :: tail) = true) :
    canonicalDw0 d0 = true ∧ canonicalFields h d1 d2 = true := by
  simpa [canonicalHeader, hd] using hc

theorem upperHalf_append (d2 d3 : Dword) : BitVec.extractLsb' (n := 64) 32 32 (d2 ++ d3) = d2 :=
  BitVec.extractLsb'_append_eq_left

theorem lowerHalf_append (d2 d3 : Dword) : BitVec.extractLsb' (n := 64) 0 32 (d2 ++ d3) = d3 :=
  BitVec.extractLsb'_append_eq_right

/-- A canonical header is the encoding of the operation it stands for. -/
theorem encode_operation_of_canonical {ds rest : List Dword} {h : HeaderFields} (hr : HeaderReading ds h rest)
    (hc : canonicalHeader ds = true) : encode (operation h) ++ rest = ds := by
  have hd := hr.decodeHeader_eq
  cases hr with
  | mrd32 hk =>
    obtain ⟨h0, h1⟩ := canonical_of_header hd hc
    simp [operation, encode, reqFields, encodeDw0_of_canonical hk h0, encodeReqDw1_of_canonical h1]
  | mwr32 hk =>
    obtain ⟨h0, h1⟩ := canonical_of_header hd hc
    simp [operation, encode, reqFields, encodeDw0_of_canonical hk h0, encodeReqDw1_of_canonical h1]
  | mrd64 hk =>
    obtain ⟨h0, h1⟩ := canonical_of_header hd hc
    simp [operation, encode, reqFields, encodeDw0_of_canonical hk h0, encodeReqDw1_of_canonical h1,
      upperHalf_append, lowerHalf_append]
  | mwr64 hk =>
    obtain ⟨h0, h1⟩ := canonical_of_header hd hc
    simp [operation, encode, reqFields, encodeDw0_of_canonical hk h0, encodeReqDw1_of_canonical h1,
      upperHalf_append, lowerHalf_append]
  | cpl hk =>
    obtain ⟨h0, hcmp⟩ := canonical_of_header hd hc
    obtain ⟨h1, h2⟩ := encodeCmp_of_canonical hcmp
    simp [operation, encode, cmpFields, encodeDw0_of_canonical hk h0, h1, h2]
  | cpld hk =>
    obtain ⟨h0, hcmp⟩ := canonical_of_header hd hc
    obtain ⟨h1, h2⟩ := encodeCmp_of_canonical hcmp
    simp [operation, encode, cmpFields, encodeDw0_of_canonical hk h0, h1, h2]

/-- Settles O3: what is decoded is a header that is read, and a canonical one is the encoding of its operation. -/
theorem encodeOfDecodeIsTheHeader : Obligations.EncodeOfDecodeIsTheHeader := by
  intro ds rest i hc hi
  obtain ⟨h, hr, rfl⟩ := decode_eq_ok_iff.mp hi
  exact encode_operation_of_canonical hr hc

end Sys2Proof
end

section
/-! What the decoder reads and what it refuses, by the bits the rules name (R92, R97, R98). -/

namespace Sys2Proof

open Sys2Proof.Claims

/-- R98: the payload of a decoded header is `length` dwords for the kinds with data. -/
theorem payloadDwords_operation (h : HeaderFields) : (operation h).payloadDwords = payloadAfter h := by
  cases h <;> rfl

/-- R98: the payload of a header is what follows it. -/
theorem decodeTlp_of_headerReading {ds rest : List Dword} {h : HeaderFields} (hr : HeaderReading ds h rest)
    (hlen : payloadAfter h ≤ rest.length) :
    decodeTlp ds = .ok (⟨h, rest.take (payloadAfter h)⟩, rest.drop (payloadAfter h)) := by
  refine decodeTlp_of_header ?_ ?_
  · rw [List.take_append_drop]
    exact hr.decodeHeader_eq
  · rw [payloadDwords_operation, List.length_take, Nat.min_eq_left hlen]

/-- Settles O59: the code decides the kind, the reading of that kind has the fields, and the payload follows. -/
theorem decodedFieldsAreAsWritten : Obligations.DecodedFieldsAreAsWritten := by
  intro d0 d1 d2 d3 rest code req cmp
  have hkind : ∀ k, code = kindCode k → kindOf d0 = some k := fun k h => kindOf_eq_some_iff.mpr h
  rw [zero_append_eq_setWidth]
  exact ⟨fun h => (HeaderReading.mrd32 (hkind .mrd32 h)).decodeHeader_eq,
    fun h => (HeaderReading.mwr32 (hkind .mwr32 h)).decodeHeader_eq,
    fun h => (HeaderReading.mrd64 (hkind .mrd64 h)).decodeHeader_eq,
    fun h => (HeaderReading.mwr64 (hkind .mwr64 h)).decodeHeader_eq,
    fun h => (HeaderReading.cpl (hkind .cpl h)).decodeHeader_eq,
    fun h => (HeaderReading.cpld (hkind .cpld h)).decodeHeader_eq,
    fun ds after h hd hlen => decodeTlp_of_headerReading (headerReading_of_decodeHeader hd) hlen⟩

/-- Settles O1: the six headers are concrete, and the decoder evaluates on each. -/
theorem writtenOutHeadersDecode : Obligations.WrittenOutHeadersDecode := by
  unfold Obligations.WrittenOutHeadersDecode
  decide

/-- Settles O4: the opcode map has no kind exactly for the other codes, and a kind it has is decoded. -/
theorem otherKindCodesAreRefused : Obligations.OtherKindCodesAreRefused := by
  intro d0 d1 d2 d3 rest
  rw [← kindOf_eq_none_iff]
  cases hk : kindOf d0 with
  | none => exact iff_of_true (decode_of_kindOf_none hk) rfl
  | some k =>
    obtain ⟨i, after, hd⟩ := decode_of_kindOf_some (d1 := d1) (d2 := d2) (d3 := d3) (rest := rest) hk
    simp [hd]

end Sys2Proof
end

section
/-! The operation of a loaded packet (R69, R98, R100, R231): which 64-bit requests have a meaning, and that the first
step with a packet loaded offers that packet's operation on its port. -/

namespace Sys2Proof.Machine

/-- R100, D16: what keeps the address port from carrying a 64-bit request. -/
theorem carries64_eq_false_iff {p : Params} {adr : BitVec 64} :
    carries64 p adr = false ↔ p.aw = .a32 ∨ adr.extractLsb' 32 32 = 0#32 := by
  cases hp : p.aw <;> simp [carries64, is64, adrHi, hp]

/-- Settles O25: such a request is one the port does not carry, and both 64-bit kinds refuse it. -/
theorem illFormed64BitRequestsAreRefused : Obligations.IllFormed64BitRequestsAreRefused := by
  intro s adr len reqId tag h
  have hc : carries64 s.cfg adr = false := carries64_eq_false_iff.mpr h
  simp [exec, execMrd64, execMwr64, hc]

/-! ## The word on the port -/

/-- Offering an operation on `req_in` changes nothing where its word is on offer there. -/
theorem presentReq_of_params {inp : Inputs} {we : Bool} {adr : BitVec 64} {len : BitVec 10} {reqId : BitVec 16}
    {tag : BitVec 8} (hv : inp.req.valid = true) (hp : inp.req.params = ⟨we, adr, len, reqId, tag⟩) :
    presentReq we adr len reqId tag inp = inp := by
  cases hp
  exact presentReq_self hv

/-- The same on `cmp_in`. -/
theorem presentCmp_of_params {inp : Inputs} {err : Bool} {cmpId reqId : BitVec 16} {tag ladr : BitVec 8}
    {len : BitVec 10} (hv : inp.cmp.valid = true) (hp : inp.cmp.params = ⟨cmpId, reqId, tag, ladr, len, err⟩) :
    presentCmp err cmpId reqId tag ladr len inp = inp := by
  cases hp
  exact presentCmp_self hv

/-- Past the script's end a producer offers the head of its queue (log entry 3). -/
theorem inputsOf_req_of_head {s : State} {w : ReqIn} (henv : s.env = []) (hw : s.reqQ.head? = some w) :
    (inputsOf s).req = ReqIn.onPort s.cfg { w with valid := true } := by
  obtain ⟨ws, hq⟩ := List.head?_eq_some_iff.mp hw
  simp [inputsOf, reqSignals, frameOf, henv, Frame.default, hq]

theorem inputsOf_cmp_of_head {s : State} {w : CmpIn} (henv : s.env = []) (hw : s.cmpQ.head? = some w) :
    (inputsOf s).cmp = CmpIn.onPort s.cfg { w with valid := true } := by
  obtain ⟨ws, hq⟩ := List.head?_eq_some_iff.mp hw
  simp [inputsOf, cmpSignals, frameOf, henv, Frame.default, hq]

/-- Every port carries a 32-bit address whole (R123, D16). -/
theorem portAdr_setWidth (p : Params) (adr : BitVec 32) : portAdr p (adr.setWidth 64) = adr.setWidth 64 := by
  have hlow : (adr.setWidth 64).extractLsb' 0 32 = adr := by
    simp [← BitVec.setWidth_eq_extractLsb']
  cases hp : p.aw <;> simp [portAdr, hp, hlow]

/-- A port that carries a 64-bit request carries its address whole (R100, D16). -/
theorem portAdr_of_carries64 {p : Params} {adr : BitVec 64} (h : carries64 p adr = true) : portAdr p adr = adr := by
  simp only [carries64, Bool.and_eq_true, beq_iff_eq] at h
  simp [portAdr, h.1]

/-! ## The first word of a packet -/

theorem exists_wordsNeeded_succ (d : Nat) (hasData : Bool) (len : Nat) : ∃ n, wordsNeeded d hasData len = n + 1 := by
  refine Nat.exists_eq_succ_of_ne_zero ?_
  cases hasData <;> simp [wordsNeeded]

/-- A packet on `req_in` has a first word, and it has the packet's side fields (R53, R69). -/
theorem exists_reqWords_head? (d : Nat) (we : Bool) (adr : BitVec 64) (len : BitVec 10) (reqId : BitVec 16)
    (tag : BitVec 8) (data : List Dword) :
    ∃ w, (reqWords d we adr len reqId tag data).head? = some w ∧ w.params = ⟨we, adr, len, reqId, tag⟩ := by
  obtain ⟨n, hn⟩ := exists_wordsNeeded_succ d we len.toNat
  simp [reqWords, hn, List.range_succ_eq_map, ReqIn.params]

/-- The same on `cmp_in`. -/
theorem exists_cmpWords_head? (d : Nat) (err : Bool) (cmpId reqId : BitVec 16) (tag ladr : BitVec 8) (len : BitVec 10)
    (data : List Dword) :
    ∃ w, (cmpWords d err cmpId reqId tag ladr len data).head? = some w ∧
      w.params = ⟨cmpId, reqId, tag, ladr, len, err⟩ := by
  obtain ⟨n, hn⟩ := exists_wordsNeeded_succ d (!err) len.toNat
  simp [cmpWords, hn, List.range_succ_eq_map, CmpIn.params]

/-- A request whose words are queued is the one on offer. -/
theorem presentReq_of_queued {s : State} {we : Bool} {adr : BitVec 64} {len : BitVec 10} {reqId : BitVec 16}
    {tag : BitVec 8} {data : List Dword} (henv : s.env = [])
    (hq : s.reqQ = reqWords s.cfg.D we adr len reqId tag data) (hadr : portAdr s.cfg adr = adr) :
    presentReq we adr len reqId tag (inputsOf s) = inputsOf s := by
  obtain ⟨w, hw, hparams⟩ := exists_reqWords_head? s.cfg.D we adr len reqId tag data
  have hreq := inputsOf_req_of_head henv (hq ▸ hw)
  cases hparams
  exact presentReq_of_params (by rw [hreq]; rfl) (by simp [hreq, ReqIn.onPort, ReqIn.params, hadr])

/-- A completion whose words are queued is the one on offer. -/
theorem presentCmp_of_queued {s : State} {err : Bool} {cmpId reqId : BitVec 16} {tag ladr : BitVec 8}
    {len : BitVec 10} {data : List Dword} (henv : s.env = [])
    (hq : s.cmpQ = cmpWords s.cfg.D err cmpId reqId tag ladr len data) :
    presentCmp err cmpId reqId tag ladr len (inputsOf s) = inputsOf s := by
  obtain ⟨w, hw, hparams⟩ := exists_cmpWords_head? s.cfg.D err cmpId reqId tag ladr len data
  have hcmp := inputsOf_cmp_of_head henv (hq ▸ hw)
  cases hparams
  exact presentCmp_of_params (by rw [hcmp]; rfl) (by rw [hcmp]; rfl)

/-- The meaning of a queued packet's operation is the whole-step function on the word on offer (R231). -/
theorem exec_of_queued {k : Packet} {s : State} (henv : s.env = []) (hreq : s.reqQ = packetReqWords s.cfg.D k)
    (hcmp : s.cmpQ = packetCmpWords s.cfg.D k) (h : admits s.cfg k.op = true) :
    exec k.op s = cycle (inputsOf s) s := by
  obtain ⟨op, data⟩ := k
  cases op with
  | mrd32 adr => exact congrArg (cycle · s) (presentReq_of_queued henv hreq (portAdr_setWidth s.cfg adr))
  | mwr32 adr => exact congrArg (cycle · s) (presentReq_of_queued henv hreq (portAdr_setWidth s.cfg adr))
  | mrd64 =>
    have hpresent := presentReq_of_queued henv hreq (portAdr_of_carries64 h)
    exact (if_pos h).trans (congrArg (cycle · s) hpresent)
  | mwr64 =>
    have hpresent := presentReq_of_queued henv hreq (portAdr_of_carries64 h)
    exact (if_pos h).trans (congrArg (cycle · s) hpresent)
  | cpl => exact congrArg (cycle · s) (presentCmp_of_queued henv hcmp)
  | cpld => exact congrArg (cycle · s) (presentCmp_of_queued henv hcmp)

theorem withFetchWord_of_decoded {nbits w : Nat} {k : Packet} (s : State) (h : decodeTablePacket nbits w = some k) :
    s.withFetchWord nbits w = loadPacket k s := by
  simp [State.withFetchWord, h]

/-- Settles O38: the decoded packet is the one loaded, and the step and the operation are the same whole step. -/
theorem stepRunsTheDecodedOperation : Obligations.StepRunsTheDecodedOperation := by
  intro s nbits w k hk _ hadmits
  rw [withFetchWord_of_decoded s hk, step_eq_cycle]
  exact (exec_of_queued (loadPacket_env k s) (loadPacket_reqQ k s) (loadPacket_cmpQ k s) hadmits).symm

end Sys2Proof.Machine
end

section
/-! The Request Formatter (R121 to R124): which kind a request word is, where its address and enables stand, and the
raw header that the Header Encoder makes of it, as the encoder of the opcode table writes it. -/

namespace Sys2Proof.Machine

/-! ## The address port and the kind -/

theorem is64_eq_true_iff {adr : BitVec 64} : is64 adr = true ↔ adr.extractLsb' 32 32 ≠ 0#32 := by
  simp [is64, adrHi]

/-- R123: an address of 32 bits has no upper half. -/
theorem is64_setWidth (adr : BitVec 32) : is64 (adr.setWidth 64) = false := by
  have hhi : adrHi (adr.setWidth 64) = 0#32 := by
    ext j hj
    simp [adrHi]
  simp [is64, hhi]

@[simp] theorem adrLo_setWidth (adr : BitVec 32) : adrLo (adr.setWidth 64) = adr := by
  simp [adrLo, ← BitVec.setWidth_eq_extractLsb']

theorem adrHi_portAdr (p : Params) (adr : BitVec 64) :
    adrHi (portAdr p adr) = if p.aw = .a64 then adr.extractLsb' 32 32 else 0#32 := by
  cases hp : p.aw with
  | a64 => simp [portAdr, hp, adrHi]
  | a32 => simpa [portAdr, hp, is64, adrLo] using is64_setWidth (adrLo adr)

@[simp] theorem adrLo_portAdr (p : Params) (adr : BitVec 64) : adrLo (portAdr p adr) = adrLo adr := by
  cases hp : p.aw with
  | a64 => simp [portAdr, hp]
  | a32 =>
    rw [portAdr, hp]
    exact adrLo_setWidth (adrLo adr)

/-- D16: a port that shows an upper half carries the whole address. -/
theorem portAdr_of_is64 {p : Params} {adr : BitVec 64} (h : is64 (portAdr p adr) = true) : portAdr p adr = adr := by
  cases hp : p.aw with
  | a64 => simp [portAdr, hp]
  | a32 => simp [is64, adrHi_portAdr, hp] at h

theorem instrOfReq_of_is64 {r : ReqIn} (h : is64 r.adr = true) :
    instrOfReq r = if r.we then .mwr64 r.adr r.len r.reqId r.tag else .mrd64 r.adr r.len r.reqId r.tag := by
  cases hwe : r.we <;> simp [instrOfReq, hwe, h]

theorem instrOfReq_of_not_is64 {r : ReqIn} (h : is64 r.adr = false) :
    instrOfReq r =
      if r.we then .mwr32 (adrLo r.adr) r.len r.reqId r.tag else .mrd32 (adrLo r.adr) r.len r.reqId r.tag := by
  cases hwe : r.we <;> simp [instrOfReq, hwe, h]

/-- Settles O9: a 64-bit port carries the address itself, a 32-bit one its lower half. -/
theorem kindSelection : Obligations.KindSelection := by
  intro p r q hi lo
  have hadrHi : adrHi q.adr = hi := adrHi_portAdr p r.adr
  have h64 : is64 q.adr = decide (hi ≠ 0#32) := by simp [is64, hadrHi, bne, beq_eq_decide]
  refine ⟨h64 ▸ formatReq_fmt q, ?_⟩
  by_cases hhi : hi ≠ 0#32
  · have hq : is64 q.adr = true := by simp [h64, hhi]
    have hadr : q.adr = r.adr := portAdr_of_is64 hq
    rw [if_pos hhi, instrOfReq_of_is64 hq, hadr]
    rfl
  · have hq : is64 q.adr = false := by simp [h64, hhi]
    have hadr : adrLo q.adr = lo := adrLo_portAdr p r.adr
    rw [if_neg hhi, instrOfReq_of_not_is64 hq, hadr]
    rfl

/-! ## The fields -/

/-- Settles O10: the formatter's two enable fields are these by definition. -/
theorem requestEnableFields : Obligations.RequestEnableFields := fun _ => ⟨rfl, rfl⟩

/-- R124: a 64-bit address stands with its upper half first. -/
theorem formatReq_address_of_is64 {r : ReqIn} (h : is64 r.adr = true) :
    (formatReq r).address.extractLsb' 0 32 = adrHi r.adr ∧
      (formatReq r).address.extractLsb' 32 32 = adrLo r.adr := by
  have haddress : (formatReq r).address = adrLo r.adr ++ adrHi r.adr := by simp [formatReq, h]
  rw [haddress]
  exact ⟨lowerHalf_append .., upperHalf_append ..⟩

/-- R124: a 32-bit address stands in the lower half. -/
theorem formatReq_address_of_not_is64 {r : ReqIn} (h : is64 r.adr = false) :
    (formatReq r).address.extractLsb' 0 32 = adrLo r.adr ∧ (formatReq r).address.extractLsb' 32 32 = 0#32 := by
  have haddress : (formatReq r).address = 0#32 ++ adrLo r.adr := by simp [formatReq, h]
  rw [haddress]
  exact ⟨lowerHalf_append .., upperHalf_append ..⟩

/-- Settles O11: the two cases of R124. -/
theorem addressHalvesAreSwapped : Obligations.AddressHalvesAreSwapped := fun _ =>
  ⟨fun h => formatReq_address_of_is64 (is64_eq_true_iff.mpr h),
    fun h => formatReq_address_of_not_is64 (by simp [is64, adrHi, h])⟩

/-! ## The raw header -/

/-- R121, R142: with the constant fields 0, header dword 0 is the kind's match value and `length`. -/
theorem headerDw0_kind (k : Kind) (len : BitVec 10) :
    headerDw0 (kindFmt k) (kindType k) 0 0 0 0 len = encodeDw0 k len := by
  simp [headerDw0, encodeDw0, kindPattern, putField]

/-- R123, R156: the raw header of a 64-bit request. -/
theorem encodeReq_formatReq_of_is64 {r : ReqIn} (h : is64 r.adr = true) :
    encodeReq (formatReq r) =
      packHdr (encodeDw0 (if r.we then .mwr64 else .mrd64) r.len) (encodeReqDw1 r.len r.reqId r.tag)
        (adrHi r.adr) (adrLo r.adr) := by
  have hkind : kindOfReq r = if r.we then .mwr64 else .mrd64 := by cases hwe : r.we <;> simp [kindOfReq, hwe, h]
  obtain ⟨hlow, hhigh⟩ := formatReq_address_of_is64 h
  rw [encodeReq, hlow, hhigh, ← headerDw0_kind, ← hkind]
  rfl

/-- R123, R156: the raw header of a 32-bit request. -/
theorem encodeReq_formatReq_of_not_is64 {r : ReqIn} (h : is64 r.adr = false) :
    encodeReq (formatReq r) =
      packHdr (encodeDw0 (if r.we then .mwr32 else .mrd32) r.len) (encodeReqDw1 r.len r.reqId r.tag)
        (adrLo r.adr) 0#32 := by
  have hkind : kindOfReq r = if r.we then .mwr32 else .mrd32 := by cases hwe : r.we <;> simp [kindOfReq, hwe, h]
  obtain ⟨hlow, hhigh⟩ := formatReq_address_of_not_is64 h
  rw [encodeReq, hlow, hhigh, ← headerDw0_kind, ← hkind]
  rfl

section
variable (adr : BitVec 32) {adr64 : BitVec 64} (len : BitVec 10) (reqId : BitVec 16) (tag : BitVec 8)

theorem rawHeaderOf_mrd32 : rawHeaderOf (.mrd32 adr len reqId tag) =
    packHdr (encodeDw0 .mrd32 len) (encodeReqDw1 len reqId tag) adr 0#32 :=
  (encodeReq_formatReq_of_not_is64 (r := reqOfInstr (.mrd32 adr len reqId tag)) (is64_setWidth adr)).trans
    (congrArg (packHdr _ _ · _) (adrLo_setWidth adr))

theorem rawHeaderOf_mwr32 : rawHeaderOf (.mwr32 adr len reqId tag) =
    packHdr (encodeDw0 .mwr32 len) (encodeReqDw1 len reqId tag) adr 0#32 :=
  (encodeReq_formatReq_of_not_is64 (r := reqOfInstr (.mwr32 adr len reqId tag)) (is64_setWidth adr)).trans
    (congrArg (packHdr _ _ · _) (adrLo_setWidth adr))

theorem rawHeaderOf_mrd64 (h : is64 adr64 = true) : rawHeaderOf (.mrd64 adr64 len reqId tag) =
    packHdr (encodeDw0 .mrd64 len) (encodeReqDw1 len reqId tag) (adrHi adr64) (adrLo adr64) :=
  encodeReq_formatReq_of_is64 (r := reqOfInstr (.mrd64 adr64 len reqId tag)) h

theorem rawHeaderOf_mwr64 (h : is64 adr64 = true) : rawHeaderOf (.mwr64 adr64 len reqId tag) =
    packHdr (encodeDw0 .mwr64 len) (encodeReqDw1 len reqId tag) (adrHi adr64) (adrLo adr64) :=
  encodeReq_formatReq_of_is64 (r := reqOfInstr (.mwr64 adr64 len reqId tag)) h

end

/-- R86: header dword 0, bit for bit: each bit lies in one field, at the layout's position. -/
theorem encodeDw0_eq_append (k : Kind) (len : BitVec 10) :
    encodeDw0 k len = (0#1 ++ kindFmt k ++ kindType k ++ 0#14 ++ len : BitVec 32) := by
  apply BitVec.eq_of_getLsbD_eq
  intro j hj
  simp only [encodeDw0, kindPattern, BitVec.getLsbD_or, getLsbD_putField, BitVec.getLsbD_append, headerLayout]
  grind

/-- R87: the same of header dword 1 of a request. -/
theorem encodeReqDw1_eq_append (len : BitVec 10) (reqId : BitVec 16) (tag : BitVec 8) :
    encodeReqDw1 len reqId tag = (reqId ++ tag ++ encodeLastBe len ++ 0xF#4 : BitVec 32) := by
  apply BitVec.eq_of_getLsbD_eq
  intro j hj
  simp only [encodeReqDw1, BitVec.getLsbD_or, getLsbD_putField, BitVec.getLsbD_append, headerLayout]
  grind

/-- R84, R155: the raw header of a request, bit for bit. -/
theorem packHdr_request (k : Kind) (len : BitVec 10) (reqId : BitVec 16) (tag : BitVec 8) (d2 d3 : Dword) :
    packHdr (encodeDw0 k len) (encodeReqDw1 len reqId tag) d2 d3 =
      d3 ++ d2 ++ (reqId ++ tag ++ encodeLastBe len ++ 0xF#4 : BitVec 32) ++
        (0#1 ++ kindFmt k ++ kindType k ++ 0#14 ++ len : BitVec 32) := by
  rw [packHdr, encodeDw0_eq_append, encodeReqDw1_eq_append]

/-- Settles O5: the encoder's dwords of each kind, with the address placed as R124 says, bit for bit. -/
theorem requestHeadersAreAsWritten : Obligations.RequestHeadersAreAsWritten := by
  intro a a64 len reqId tag lastBe dw1
  refine ⟨(rawHeaderOf_mrd32 ..).trans (packHdr_request ..), (rawHeaderOf_mwr32 ..).trans (packHdr_request ..),
    fun hhi => ?_⟩
  have h64 : is64 a64 = true := is64_eq_true_iff.mpr hhi
  exact ⟨(rawHeaderOf_mrd64 len reqId tag h64).trans (packHdr_request ..),
    (rawHeaderOf_mwr64 len reqId tag h64).trans (packHdr_request ..)⟩

end Sys2Proof.Machine
end

section
/-! The payload slots of a packet's input words (R69, R125, R144): word `k` enables exactly the dwords it carries, so
that over the packet the enabled slots are the payload. -/

namespace Sys2Proof.Machine

/-! ## The words a payload takes -/

theorem lt_ceilDiv_iff {d : Nat} (hd : 0 < d) (a k : Nat) : k < ceilDiv a d ↔ k * d < a := by
  rw [ceilDiv, ← Nat.succ_le_iff, Nat.le_div_iff_mul_le hd, Nat.succ_mul]
  omega

theorem ceilDiv_zero {d : Nat} (hd : 0 < d) : ceilDiv 0 d = 0 := by
  by_contra h
  simpa using (lt_ceilDiv_iff hd 0 0).mp (Nat.pos_of_ne_zero h)

theorem D_pos (p : Params) : 0 < p.D := by
  rcases D_cases p with h | h | h | h <;> simp [h]

/-- R125 and R144 give the same slots, but for a write request of no dwords, which R255 excludes. -/
theorem reqEnabledSlots_eq_cmpEnabledSlots {we : Bool} {len : Nat} (h : len ≠ 0) (d : Nat) (last : Bool) :
    reqEnabledSlots d we last len = cmpEnabledSlots d (!we) last len := by
  simp [reqEnabledSlots, cmpEnabledSlots, h]

/-- `((len - 1) mod D) + 1` dwords are left for the last word (R125). -/
theorem lastWordDwords_eq {d len k : Nat} (hk : k * d < len) (hlast : len ≤ (k + 1) * d) :
    lastWordDwords d len = len - k * d := by
  rw [Nat.succ_mul] at hlast
  have hsplit : len - 1 = (len - 1 - k * d) + k * d := by omega
  rw [lastWordDwords, hsplit, Nat.add_mul_mod_self_right, Nat.mod_eq_of_lt (by omega)]
  omega

/-- A payload of at least one dword takes `ceil(len / D)` words (R69). -/
theorem wordsNeeded_of_pos {d len : Nat} (hd : 0 < d) (hlen : 0 < len) : wordsNeeded d true len = ceilDiv len d := by
  have hpos : 0 < ceilDiv len d := (lt_ceilDiv_iff hd len 0).mpr (by simpa using hlen)
  simp [wordsNeeded, Nat.max_eq_right hpos]

/-- The words of a packet have room for its payload. -/
theorem payload_le_words {d : Nat} (hd : 0 < d) (hasData : Bool) (len : Nat) :
    (if hasData then len else 0) ≤ wordsNeeded d hasData len * d := by
  cases hasData with
  | false => simp
  | true =>
    have hceil : len ≤ ceilDiv len d * d := Nat.le_of_not_lt fun h => Nat.lt_irrefl _ ((lt_ceilDiv_iff hd ..).mpr h)
    exact hceil.trans (Nat.mul_le_mul_right d (Nat.le_max_right ..))

/-- Word `k` of a packet carries as many payload dwords as it enables (R69, R125, R144). -/
theorem payloadChunk_length {d k len : Nat} {hasData : Bool} {data : List Dword} (hd : 0 < d)
    (hlen : data.length = if hasData then len else 0) (hk : k < wordsNeeded d hasData len) :
    (payloadChunk d data k).length =
      cmpEnabledSlots d (!hasData) (k + 1 == wordsNeeded d hasData len) len := by
  have hchunk : (payloadChunk d data k).length = min d (data.length - k * d) := by simp [payloadChunk]
  rw [hchunk, hlen]
  cases hasData with
  | false => simp [cmpEnabledSlots]
  | true =>
    rcases Nat.eq_zero_or_pos len with rfl | hpos
    · have hneed : wordsNeeded d true 0 = 1 := by simp [wordsNeeded, ceilDiv_zero hd]
      have hk0 : k = 0 := by omega
      simp [hk0, hneed, cmpEnabledSlots]
    · rw [wordsNeeded_of_pos hd hpos] at hk ⊢
      have hkd : k * d < len := (lt_ceilDiv_iff hd len k).mp hk
      have hnext := lt_ceilDiv_iff hd len (k + 1)
      by_cases hlast : k + 1 = ceilDiv len d
      · have hle : len ≤ (k + 1) * d := Nat.le_of_not_lt fun h => (hnext.mpr h).ne hlast
        have hrest : len - k * d ≤ d := by
          rw [Nat.succ_mul] at hle
          omega
        simp [cmpEnabledSlots, hlast, hpos.ne', lastWordDwords_eq hkd hle, hrest]
      · have hlt : (k + 1) * d < len := hnext.mp (Nat.lt_of_le_of_ne hk hlast)
        have hfull : d ≤ len - k * d := by
          rw [Nat.succ_mul] at hlt
          omega
        simp [cmpEnabledSlots, hlast, hfull]

/-- A packet's words carry its payload (R69). -/
theorem flatMap_payloadChunk (d : Nat) (data : List Dword) (n : Nat) :
    (List.range n).flatMap (payloadChunk d data) = data.take (n * d) := by
  induction n with
  | zero => simp
  | succ n ih => simp [List.range_succ, ih, payloadChunk, Nat.succ_mul, List.take_add]

/-! ## The enabled slots -/

/-- A word with as many enables as dwords is the dwords, enabled, and empty slots (R125, R144). -/
theorem payloadSlots_eq_append {d : Nat} {dat : List Dword} (h : dat.length ≤ d) :
    payloadSlots d dat.length dat =
      dat.map (⟨·, allEnabled⟩) ++ List.replicate (d - dat.length) ⟨0, noneEnabled⟩ := by
  apply List.ext_getElem (by simp; omega)
  intro j hj hj'
  rw [payloadSlots_getElem, List.getElem_append]
  by_cases hlt : j < dat.length
  · simp [hlt]
  · simp [hlt]

/-- The enabled slots of such a word are the dwords, converted. -/
theorem filter_enabled_convSlots {e : Endian} {d : Nat} {dat : List Dword} (h : dat.length ≤ d) :
    (convSlots e (payloadSlots d dat.length dat)).filter (fun x => x.be != noneEnabled) =
      dat.map fun v => ⟨conv e v, allEnabled⟩ := by
  have hne : (allEnabled != noneEnabled) = true := by decide
  simp [payloadSlots_eq_append h, convSlots, convSlot, List.filter_map, Function.comp_def, hne]

/-- Over the words of a packet the enabled slots are its payload. -/
theorem flatMap_payload_enabled {e : Endian} {d len : Nat} {hasData : Bool} {data : List Dword} (hd : 0 < d)
    (hlen : data.length = if hasData then len else 0) :
    ((List.range (wordsNeeded d hasData len)).flatMap fun k =>
        convSlots e (payloadSlots d (cmpEnabledSlots d (!hasData) (k + 1 == wordsNeeded d hasData len) len)
          (payloadChunk d data k))).filter (fun x => x.be != noneEnabled) =
      data.map fun v => ⟨conv e v, allEnabled⟩ := by
  rw [List.filter_flatMap]
  have hword (k : Nat) (hk : k ∈ List.range (wordsNeeded d hasData len)) :
      (convSlots e (payloadSlots d (cmpEnabledSlots d (!hasData) (k + 1 == wordsNeeded d hasData len) len)
          (payloadChunk d data k))).filter (fun x => x.be != noneEnabled) =
      (payloadChunk d data k).map fun v => ⟨conv e v, allEnabled⟩ := by
    rw [← payloadChunk_length hd hlen (List.mem_range.mp hk)]
    exact filter_enabled_convSlots (by simp [payloadChunk])
  rw [List.flatMap_congr hword, ← List.map_flatMap, flatMap_payloadChunk,
    List.take_of_length_le (hlen ▸ payload_le_words hd hasData len)]

/-- The words of a request packet enable its payload and nothing else. -/
theorem reqWords_enabled (p : Params) (we : Bool) (adr : BitVec 64) {len : BitVec 10} (reqId : BitVec 16)
    (tag : BitVec 8) {data : List Dword} (hpos : len ≠ 0#10) (hlen : data.length = if we then len.toNat else 0) :
    ((reqWords p.D we adr len reqId tag data).flatMap fun w => (rawReq p w).slots).filter
        (fun x => x.be != noneEnabled) = data.map fun v => ⟨conv p.endian v, allEnabled⟩ := by
  have hpos' : len.toNat ≠ 0 := fun h => hpos (BitVec.eq_of_toNat_eq h)
  simp only [reqWords, List.flatMap_map, rawReq, reqEnabledSlots_eq_cmpEnabledSlots hpos']
  exact flatMap_payload_enabled (D_pos p) hlen

/-- So do the words of a completion packet. -/
theorem cmpWords_enabled (p : Params) (err : Bool) (cmpId reqId : BitVec 16) (tag ladr : BitVec 8) {len : BitVec 10}
    {data : List Dword} (hlen : data.length = if !err then len.toNat else 0) :
    ((cmpWords p.D err cmpId reqId tag ladr len data).flatMap fun w => (rawCmp p w).slots).filter
        (fun x => x.be != noneEnabled) = data.map fun v => ⟨conv p.endian v, allEnabled⟩ := by
  simp only [cmpWords, List.flatMap_map, rawCmp]
  simpa using flatMap_payload_enabled (e := p.endian) (D_pos p) hlen

/-! ## The words of a packet -/

/-- R69: a request packet is presented on `req_in` only. -/
theorem packetWords_of_request {k : Packet} (h : k.op.isRequest = true) (d : Nat) :
    (∃ adr reqId tag, packetReqWords d k = reqWords d k.op.hasData adr k.op.len reqId tag k.data) ∧
      packetCmpWords d k = [] := by
  obtain ⟨op, data⟩ := k
  cases op with
  | mrd32 | mwr32 | mrd64 | mwr64 => exact ⟨⟨_, _, _, rfl⟩, rfl⟩
  | cpl | cpld => cases h

/-- A completion packet on `cmp_in` only. -/
theorem packetWords_of_completion {k : Packet} (h : k.op.isRequest = false) (d : Nat) :
    packetReqWords d k = [] ∧ ∃ cmpId reqId tag ladr,
      packetCmpWords d k = cmpWords d (!k.op.hasData) cmpId reqId tag ladr k.op.len k.data := by
  obtain ⟨op, data⟩ := k
  cases op with
  | mrd32 | mwr32 | mrd64 | mwr64 => cases h
  | cpl | cpld => exact ⟨rfl, _, _, _, _, rfl⟩

/-- R81: a well-formed request has at least one dword. -/
theorem len_ne_zero_of_wellFormed {i : Instr} (hreq : i.isRequest = true) (h : i.wellFormed = true) :
    i.len ≠ 0#10 := by
  cases i with
  | mrd32 | mwr32 => simpa [Instr.wellFormed, Instr.len] using h
  | mrd64 | mwr64 =>
    simp only [Instr.wellFormed, Bool.and_eq_true, bne_iff_ne] at h
    exact h.1
  | cpl | cpld => cases hreq

/-- R99: the data of a well-formed packet is its payload. -/
theorem payloadOf_of_wellFormed {k : Packet} (h : k.wellFormed = true) : payloadOf k = k.data := by
  simp only [Packet.wellFormed, Bool.and_eq_true, beq_iff_eq, Instr.payloadDwords] at h
  cases hdata : k.op.hasData with
  | true => simp [payloadOf, hdata]
  | false =>
    have hnil : k.data = [] := by simpa [hdata] using h.2
    simp [payloadOf, hdata, hnil]

/-- Settles O12: the packet's words on its stream enable its payload, and the other stream has none. -/
theorem enabledSlotsAreThePayload : Obligations.EnabledSlotsAreThePayload := by
  intro p k hwf
  have hpayload := payloadOf_of_wellFormed hwf
  simp only [Packet.wellFormed, Bool.and_eq_true, beq_iff_eq] at hwf
  obtain ⟨hop, hlen⟩ := hwf
  rw [hpayload]
  cases hreq : k.op.isRequest with
  | true =>
    obtain ⟨⟨adr, reqId, tag, hwords⟩, hnone⟩ := packetWords_of_request hreq p.D
    rw [hwords, hnone, List.flatMap_nil, List.append_nil]
    exact reqWords_enabled p _ adr reqId tag (len_ne_zero_of_wellFormed hreq hop) hlen
  | false =>
    obtain ⟨hnone, cmpId, reqId, tag, ladr, hwords⟩ := packetWords_of_completion hreq p.D
    rw [hwords, hnone, List.flatMap_nil, List.nil_append]
    exact cmpWords_enabled p _ cmpId reqId tag ladr (by simpa [Instr.payloadDwords] using hlen)

end Sys2Proof.Machine
end

section
/-! The raw word of an operation that runs in a step (R84, R120, R140, R172): what the Arbiter hands the Header
Inserter, in the words of the operation. -/

namespace Sys2Proof.Machine

open Sys2Proof.Claims

/-! ## The header -/

/-- `fmt` of an operation's header (R92, R123, R142). -/
def fmtOf (i : Instr) : BitVec 2 :=
  if i.isRequest then (formatReq (reqOfInstr i)).fmt else (formatCmp (cmpOfInstr i)).fmt

theorem is64_of_carries64 {p : Params} {adr : BitVec 64} (h : carries64 p adr = true) : is64 adr = true := by
  simp only [carries64, Bool.and_eq_true] at h
  exact h.2

/-- R92, R187: the inserter finds the header size in `fmt`. -/
theorem headerSize_fmtOf {p : Params} {i : Instr} (h : admits p i = true) : headerSize (fmtOf i) = i.headerDwords := by
  cases i with
  | mrd32 adr | mwr32 adr => exact (headerSize_formatReq _).trans (if_neg (by simp [reqOfInstr, is64_setWidth]))
  | mrd64 | mwr64 => exact (headerSize_formatReq _).trans (if_pos (is64_of_carries64 h))
  | cpl | cpld => exact headerSize_formatCmp _

/-- R143: the two ways to write `4 * len` in 12 bits. -/
theorem formatCmp_byteCount (c : CmpIn) : (formatCmp c).byteCount = encodeByteCount c.len := by
  rw [encodeByteCount_eq]
  apply BitVec.eq_of_toNat_eq
  have hfour : (4 : BitVec 12).toNat = 4 := rfl
  simp only [formatCmp, BitVec.toNat_mul, BitVec.toNat_setWidth, BitVec.toNat_ofNat, hfour]
  omega

/-- R142, R157: the raw header of a completion. -/
theorem encodeCmp_formatCmp (c : CmpIn) :
    encodeCmp (formatCmp c) =
      packHdr (encodeDw0 (if c.err then .cpl else .cpld) c.len)
        (encodeCmpDw1 c.cmpId (if c.err then headerLayout.statusUR else headerLayout.statusSC) c.len)
        (encodeCmpDw2 c.reqId c.tag c.adr) 0#32 := by
  have hbcm : putField headerLayout.bcmLo 0#1 = 0#32 := by decide
  rw [encodeCmp, formatCmp_byteCount, ← headerDw0_kind]
  simp [formatCmp, kindOfCmp, encodeCmpDw1, encodeCmpDw2, hbcm]

theorem headerOf_of_three {i : Instr} {d0 d1 d2 d3 : Dword} (hsize : i.headerDwords = 3)
    (h : rawHeaderOf i = packHdr d0 d1 d2 d3) : headerOf i = [d0, d1, d2] := by
  simp [headerOf, hsize, h, List.range_succ, hdr_packHdr_zero, hdr_packHdr_one, hdr_packHdr_two]

theorem headerOf_of_four {i : Instr} {d0 d1 d2 d3 : Dword} (hsize : i.headerDwords = 4)
    (h : rawHeaderOf i = packHdr d0 d1 d2 d3) : headerOf i = [d0, d1, d2, d3] := by
  simp [headerOf, hsize, h, List.range_succ, hdr_packHdr_zero, hdr_packHdr_one, hdr_packHdr_two, hdr_packHdr_three]

/-- R232, R96: the header dwords of an admitted operation are those of the encoder. -/
theorem headerOf_eq_encode {p : Params} {i : Instr} (h : admits p i = true) : headerOf i = encode i := by
  cases i with
  | mrd32 => exact headerOf_of_three rfl (rawHeaderOf_mrd32 ..)
  | mwr32 => exact headerOf_of_three rfl (rawHeaderOf_mwr32 ..)
  | mrd64 => exact headerOf_of_four rfl (rawHeaderOf_mrd64 _ _ _ (is64_of_carries64 h))
  | mwr64 => exact headerOf_of_four rfl (rawHeaderOf_mwr64 _ _ _ (is64_of_carries64 h))
  | cpl | cpld => exact headerOf_of_three rfl (encodeCmp_formatCmp _)

/-! ## The word -/

/-- R250, R258: a monitor that finds nothing sees no violation. -/
theorem not_holds_of_monitorCheck_none {ω π : Type} [DecidableEq ω] [DecidableEq π] {m : Monitor ω π} {w : ω}
    {valid first last : Bool} {side : π} {need : Nat} {zeroLen noData : Bool}
    (h : monitorCheck m w valid first last side need zeroLen noData = none) (c : Code) :
    ¬ holds m w valid first last side need zeroLen noData c :=
  (monitorCheck_rightCode m w valid first last side need zeroLen noData).1.mp h c

/-- R99: a request is presented as its word on `req_in`, with the framing and `dat` of the port. -/
theorem presented_req {i : Instr} (h : i.isRequest = true) (s : State) :
    (presented i s).req =
      { reqOfInstr i with first := isFirst i s, last := isLast i s, dat := datOf i s } := by
  cases i with
  | mrd32 | mwr32 | mrd64 | mwr64 => rfl
  | cpl | cpld => cases h

theorem presented_cmp {i : Instr} (h : i.isRequest = false) (s : State) :
    (presented i s).cmp =
      { cmpOfInstr i with first := isFirst i s, last := isLast i s, dat := datOf i s } := by
  cases i with
  | mrd32 | mwr32 | mrd64 | mwr64 => cases h
  | cpl | cpld => rfl

theorem reqOfInstr_fields {i : Instr} (h : i.isRequest = true) :
    (reqOfInstr i).valid = true ∧ (reqOfInstr i).we = i.hasData ∧ (reqOfInstr i).len = i.len := by
  cases i with
  | mrd32 | mwr32 | mrd64 | mwr64 => exact ⟨rfl, rfl, rfl⟩
  | cpl | cpld => cases h

theorem cmpOfInstr_fields {i : Instr} (h : i.isRequest = false) :
    (cmpOfInstr i).valid = true ∧ (cmpOfInstr i).err = !i.hasData ∧ (cmpOfInstr i).len = i.len := by
  cases i with
  | mrd32 | mwr32 | mrd64 | mwr64 => cases h
  | cpl | cpld => exact ⟨rfl, rfl, rfl⟩

/-- R255: a request that runs has a length. -/
theorem len_ne_zero_of_running {i : Instr} {s : State} (hrun : Running i s) (hreq : i.isRequest = true) :
    i.len.toNat ≠ 0 := by
  obtain ⟨-, -, -, hv, -⟩ := hrun
  obtain ⟨hvalid, -, hlen⟩ := reqOfInstr_fields hreq
  have hzero := not_holds_of_monitorCheck_none (violationOf_none hv).1 .zeroLengthRequest
  simp only [presented_req hreq, holds, hvalid, hlen, true_and, beq_iff_eq] at hzero
  exact fun h => hzero (BitVec.eq_of_toNat_eq h)

/-- R257: the word of a kind without data that runs is its packet's only one. -/
theorem isLast_of_running {i : Instr} {s : State} (hrun : Running i s) (hdata : i.hasData = false) :
    isLast i s = true := by
  obtain ⟨-, -, -, hv, -⟩ := hrun
  cases hreq : i.isRequest with
  | true =>
    obtain ⟨hvalid, hwe, -⟩ := reqOfInstr_fields hreq
    have hmulti := not_holds_of_monitorCheck_none (violationOf_none hv).1 .multiWordNoData
    simp only [presented_req hreq, holds, hvalid, hwe, hdata, Bool.not_false, true_and, not_not] at hmulti
    exact hmulti.2
  | false =>
    obtain ⟨hvalid, herr, -⟩ := cmpOfInstr_fields hreq
    have hmulti := not_holds_of_monitorCheck_none (violationOf_none hv).2 .multiWordNoData
    simp only [presented_cmp hreq, holds, hvalid, herr, hdata, Bool.not_false, true_and, not_not] at hmulti
    exact hmulti.2

/-- The raw word of an operation with its side fields on the port. -/
def rawWordOf (i : Instr) (s : State) : RawWord where
  valid := true
  first := isFirst i s
  last := isLast i s
  slots := payload i s
  header := convHeader s.cfg.endian (rawHeaderOf i)
  fmt := fmtOf i

/-- R125, R144: the payload slots of a word, as the formatters write them. -/
theorem payload_eq_convSlots (i : Instr) (s : State) :
    payload i s = convSlots s.cfg.endian
      (payloadSlots s.cfg.D (cmpEnabledSlots s.cfg.D (!i.hasData) (isLast i s) i.len.toNat) (datOf i s)) := rfl

/-- R172: it is the word on `raw` where the operation runs. -/
theorem rawOf_of_running {i : Instr} {s : State} (hrun : Running i s) :
    rawOf (presented i s) s = rawWordOf i s := by
  have hlen := len_ne_zero_of_running hrun
  obtain ⟨-, -, -, -, hsel⟩ := hrun
  -- With the operation's `len` and `hasData` read off its word, the two raw words agree field by field.
  cases hreq : i.isRequest with
  | true =>
    obtain ⟨hvalid, hwe, hl⟩ := reqOfInstr_fields hreq
    rw [rawOf_req (by simpa [sourceOf, hreq] using hsel), presented_req hreq, rawWordOf, payload_eq_convSlots,
      rawHeaderOf, if_pos hreq, fmtOf, if_pos hreq, ← reqEnabledSlots_eq_cmpEnabledSlots (hlen hreq), ← hvalid, ← hwe,
      ← hl]
    rfl
  | false =>
    obtain ⟨hvalid, herr, hl⟩ := cmpOfInstr_fields hreq
    rw [rawOf_cmp (by simpa [sourceOf, hreq] using hsel), presented_cmp hreq, rawWordOf, payload_eq_convSlots,
      rawHeaderOf, if_neg (by simp [hreq]), fmtOf, if_neg (by simp [hreq]), ← hvalid, ← herr, ← hl]
    rfl

end Sys2Proof.Machine
end

section
/-! The step in which an operation's word is on offer and the consumer is ready, while the inserter is in `HEADER`
(R191, R192): the header word that leaves, in the words of the operation, and the registers after it. -/

namespace Sys2Proof.Machine

open Sys2Proof.Claims

/-! ## The committed step of an operation -/

/-- The meaning of an admitted operation is the whole-step function on its word. -/
theorem exec_eq_cycle_presented {i : Instr} {s : State} (h : admits s.cfg i = true) :
    exec i s = cycle (presented i s) s := by
  cases i with
  | mrd32 | mwr32 | cpl | cpld => rfl
  | mrd64 | mwr64 => exact if_pos h

theorem presented_rst (i : Instr) (s : State) : (presented i s).rst = (inputsOf s).rst := by cases i <;> rfl

theorem presented_ready (i : Instr) (s : State) : (presented i s).ready = (inputsOf s).ready := by cases i <;> rfl

/-- What an operation's step does, once the inserter's move is known: the offered word leaves, the inserter's registers
follow it, and the operation's word is taken or waits. -/
theorem exec_of_plan {i : Instr} {s : State} {e : Emit} {takes : Bool} (hrun : Running i s)
    (hready : (inputsOf s).ready = true) (hp : planOf s (rawWordOf i s) = some ⟨some e, takes⟩) :
    ∃ t, exec i s = .next t ∧ t.fault = none ∧
      t.sent.map seen = s.sent.map seen ++ [seen ⟨e.first, e.last, e.slots⟩] ∧
      t.st = e.st ∧ t.cnt = e.cnt ∧ t.sL = e.sL ∧ readySeen (sourceOf i) t = takes ∧
      t.carry = (if takes then ⟨payload i s, isLast i s⟩ else s.carry) ∧
      t.grant = (if takes && isLast i s then .idle else grantOf (sourceOf i)) := by
  have hraw := rawOf_of_running hrun
  obtain ⟨hfault, hrst, hadmits, hv, hsel⟩ := hrun
  have hready' := (presented_ready i s).trans hready
  have hx : rawXfer (presented i s) s ⟨some e, takes⟩ = takes := by
    simp [rawXfer, hraw, rawWordOf, hready']
  refine ⟨commit (presented i s) s ⟨some e, takes⟩, ?_, hfault, ?_, commit_st_of_emit hready' rfl,
    commit_cnt_of_emit hready' rfl, commit_sL_of_emit hready' rfl, ?_, ?_, ?_⟩
  · rw [exec_eq_cycle_presented hadmits]
    exact cycle_commit ((presented_rst i s).trans hrst) hfault hv (hraw ▸ hp)
  · simp [hready', seen_phyOf]
  · simp [readyTo, hsel, hready']
  · rw [commit_carry, hx, hraw]
    rfl
  · rw [commit_grant_selected _ hsel, hx, hraw]
    rfl

/-! ## The inserter in `HEADER` -/

section
variable {s : State} {i : RawWord} (hst : s.st = .header) (hv : i.valid = true) (hf : i.first = true)
include hst hv hf

/-- R191: before the header's last word. -/
theorem planOf_headerWord (hc : cntOf s.cfg.D s.cnt + 1 < headerWords s.cfg.D (headerSize i.fmt)) :
    planOf s i = some ⟨some ⟨hdrOnly s.cfg.D (cntOf s.cfg.D s.cnt) i, cntOf s.cfg.D s.cnt == 0, false, .header,
      s.cnt + 1, s.sL⟩, false⟩ := by
  simp [planOf, hst, planHeader, hv, hf, hc]

/-- R192: on the header's last word. -/
theorem planOf_lastHeaderWord (hc : ¬ cntOf s.cfg.D s.cnt + 1 < headerWords s.cfg.D (headerSize i.fmt)) :
    let sh := shiftOf s.cfg.D (headerSize i.fmt)
    let fit := fits i.last i.slots sh
    planOf s i = some ⟨some ⟨hdrLast s.cfg.D (cntOf s.cfg.D s.cnt) (headerRest s.cfg.D (headerSize i.fmt)) i,
      cntOf s.cfg.D s.cnt == 0, fit, if fit then .header else .data, 0,
      if fit then s.sL else BitVec.ofNat 4 sh⟩, decide (0 < sh) || fit⟩ := by
  intro sh fit
  cases hfit : fits i.last i.slots (shiftOf s.cfg.D (headerSize i.fmt)) with
  | true => simp [planOf, hst, planHeader, hv, hf, hc, fit, sh, hfit]
  | false => simp [planOf, hst, planHeader, hv, hf, hc, fit, sh, hfit]

end

/-! ## The header dwords of a word -/

theorem headerDwords_cases (i : Instr) : i.headerDwords = 3 ∨ i.headerDwords = 4 := by
  cases i <;> simp [Instr.headerDwords]

/-- R24, R186: `cnt` stays below the number of header words. -/
theorem cntOf_lt_headerWords (p : Params) (cnt : BitVec 1) (i : Instr) :
    cntOf p.D cnt < headerWords p.D i.headerDwords := by
  have hcnt : cnt.toNat < 2 := cnt.isLt
  rcases D_cases p with hD | hD | hD | hD <;> rcases headerDwords_cases i with hH | hH <;>
    simp [cntOf, headerWords, ceilDiv, hD, hH, hcnt]

/-- R191: before the last header word a whole word of header dwords is left. -/
theorem D_le_header_left {p : Params} {i : Instr} {c : Nat} (hc : c + 1 < headerWords p.D i.headerDwords) :
    p.D ≤ i.headerDwords - p.D * c := by
  have hfull := (lt_ceilDiv_iff (D_pos p) ..).mp hc
  rw [Nat.succ_mul, Nat.mul_comm] at hfull
  omega

section
variable {i : Instr} {s : State} {c : Nat} (hadmits : admits s.cfg i = true)
include hadmits

/-- R188: the inserter's header slots are the header dwords of the word, converted and enabled. -/
theorem headerSlots_eq_headerPart {n : Nat} (hn : n = min s.cfg.D (i.headerDwords - s.cfg.D * c)) :
    headerSlots (rawWordOf i s).header (s.cfg.D * c) n = headerPart i s c := by
  rw [headerPart, ← headerOf_eq_encode hadmits]
  apply List.ext_getElem (by simp [headerOf, hn])
  intro j hj hj'
  have hdword : s.cfg.D * c + j < 4 := by
    have hH := headerDwords_cases i
    rw [headerSlots_length] at hj
    omega
  simp [headerSlots, headerOf, rawWordOf, hdr_convHeader _ _ hdword]

/-- R191: so that word holds header dwords only. -/
theorem hdrOnly_eq_headerPart (hc : c + 1 < headerWords s.cfg.D i.headerDwords) :
    hdrOnly s.cfg.D c (rawWordOf i s) = headerPart i s c :=
  headerSlots_eq_headerPart hadmits (Nat.min_eq_left (D_le_header_left hc)).symm

/-- R192: the last header word holds the rest of the header, then the head of the payload. -/
theorem hdrLast_eq_headerPart_append (hlt : c < headerWords s.cfg.D i.headerDwords)
    (hc : ¬ c + 1 < headerWords s.cfg.D i.headerDwords) :
    hdrLast s.cfg.D c (headerRest s.cfg.D i.headerDwords) (rawWordOf i s) =
      headerPart i s c ++ (payload i s).take (shiftOf s.cfg.D i.headerDwords) := by
  have hlast : headerWords s.cfg.D i.headerDwords - 1 = c := by omega
  have hle : headerRest s.cfg.D i.headerDwords ≤ s.cfg.D := headerSize_fmtOf hadmits ▸ headerRest_le s.cfg (fmtOf i)
  have hrest : headerRest s.cfg.D i.headerDwords = i.headerDwords - s.cfg.D * c := by rw [headerRest, hlast]
  have hpart : headerSlots (rawWordOf i s).header (s.cfg.D * c) (headerRest s.cfg.D i.headerDwords) =
      headerPart i s c := headerSlots_eq_headerPart hadmits (by rw [← hrest, Nat.min_eq_right hle])
  rw [← hpart]
  rfl

end

/-! ## The operations -/

/-- R191, R192: every operation emits its next header word, the last one filled up with the head of the payload. -/
theorem emitsHeaderWord (i : Instr) : EmitsHeaderWord i := by
  intro s hrun hfirst hst hready
  have ⟨_, _, hadmits, _, _⟩ := hrun
  have hsize : headerSize (rawWordOf i s).fmt = i.headerDwords := headerSize_fmtOf hadmits
  have hlt := cntOf_lt_headerWords s.cfg s.cnt i
  by_cases hc : cntOf s.cfg.D s.cnt + 1 < headerWords s.cfg.D i.headerDwords
  · obtain ⟨t, ht, hfault, hsent, hst', hcnt, hsL, hseen, hcarry, hgrant⟩ :=
      exec_of_plan hrun hready (planOf_headerWord hst rfl hfirst (hsize ▸ hc))
    rw [hdrOnly_eq_headerPart hadmits hc] at hsent
    exact ⟨t, ht, hfault, (if_pos hc).mpr ⟨hsent, hst', hcnt, hsL, hcarry, hgrant, hseen⟩⟩
  · obtain ⟨t, ht, hfault, hsent, hst', hcnt, hsL, hseen, hcarry, hgrant⟩ :=
      exec_of_plan hrun hready (planOf_lastHeaderWord hst rfl hfirst (hsize ▸ hc))
    rw [hsize] at hsent hst' hsL hseen hcarry hgrant
    rw [hdrLast_eq_headerPart_append hadmits hlt hc] at hsent
    simp only [Bool.or_eq_true, Bool.and_eq_true, decide_eq_true_eq] at hcarry hgrant
    exact ⟨t, ht, hfault, (if_neg hc).mpr ⟨hsent, hcnt, hst', hsL, hseen, hcarry, hgrant⟩⟩

/-- Settles O23: what holds of every operation, for the two writes. -/
theorem writeRequestsEmitTheirHeaderWords : Obligations.WriteRequestsEmitTheirHeaderWords :=
  ⟨fun _ _ _ _ => emitsHeaderWord _, fun _ _ _ _ => emitsHeaderWord _⟩

end Sys2Proof.Machine
end

section
/-! The header words of a kind without data (R127, R129, R192): they are its whole TLP, as the packet-level function
gives it (R232). -/

namespace Sys2Proof.Machine

open Sys2Proof.Claims

/-- R232: one word of `Phys`. -/
theorem physWords_drop_take {d c : Nat} {l : List Dword} (hc : c < ceilDiv l.length d) :
    ((physWords d l).drop c).take 1 =
      [⟨c == 0, c + 1 == ceilDiv l.length d, (List.range d).map fun j => physSlot l (c * d + j)⟩] := by
  rw [physWords, List.drop_eq_getElem_cons (by simpa using hc)]
  simp

/-- Its slots: the dwords that are left, then empty slots. -/
theorem physSlots_eq_append (d m : Nat) (l : List Dword) :
    ((List.range d).map fun j => physSlot l (m + j)) =
      ((l.drop m).take d).map (⟨·, allEnabled⟩) ++ List.replicate (d - (l.length - m)) ⟨0, noneEnabled⟩ := by
  apply List.ext_getElem (by simp; omega)
  intro j hj hj'
  rw [List.getElem_append]
  by_cases hlt : m + j < l.length
  · have hj2 : j < min d (l.length - m) := by
      rw [List.length_map, List.length_range] at hj
      omega
    simp [physSlot, hlt, hj2]
  · have hj2 : ¬ j < min d (l.length - m) := by omega
    simp [physSlot, hlt, hj2]

/-- R232: a word of the TLP of a kind without data. -/
theorem phys_no_data_word {i : Instr} {s : State} {c : Nat} (hadmits : admits s.cfg i = true)
    (hdata : i.hasData = false) (hc : c < headerWords s.cfg.D i.headerDwords) :
    ((phys s.cfg ⟨i, []⟩).drop c).take 1 =
      [⟨c == 0, c + 1 == headerWords s.cfg.D i.headerDwords,
        headerPart i s c ++ List.replicate (s.cfg.D - (i.headerDwords - s.cfg.D * c)) ⟨0, noneEnabled⟩⟩] := by
  have hflat : flat s.cfg.endian ⟨i, []⟩ = (headerOf i).map (conv s.cfg.endian) := by simp [flat, payloadOf, hdata]
  have hlen : (flat s.cfg.endian ⟨i, []⟩).length = i.headerDwords := by simp [hflat, headerOf]
  rw [phys, physWords_drop_take (hlen.symm ▸ hc), physSlots_eq_append, hlen, hflat,
    headerOf_eq_encode hadmits, Nat.mul_comm c]
  simp [headerPart, headerWords, Function.comp_def]

/-- R125, R144: a kind without data enables no slot. -/
theorem payload_no_data {i : Instr} (hdata : i.hasData = false) (s : State) :
    (payload i s).map slotRead = List.replicate s.cfg.D ⟨0, noneEnabled⟩ := by
  rw [payload_eq_convSlots, hdata]
  exact convSlots_payloadSlots_zero_read ..

/-- R189: so its one word always fits. -/
theorem fits_no_data {i : Instr} (hdata : i.hasData = false) (s : State) (n : Nat) :
    fits true (payload i s) n = true := by
  rw [← fits_map_slotRead, payload_no_data hdata]
  simp [fits]

/-- Header dwords are enabled, so that a consumer may read them as they are. -/
theorem headerPart_map_slotRead (i : Instr) (s : State) (c : Nat) :
    (headerPart i s c).map slotRead = headerPart i s c := by
  have hne : allEnabled ≠ noneEnabled := by decide
  simp [headerPart, slotRead, hne, Function.comp_def]

/-- Behind the header dwords a consumer sees nothing of a kind without data. -/
theorem seen_headerPart_no_data {i : Instr} {s : State} {n : Nat} (hdata : i.hasData = false) (hn : n ≤ s.cfg.D)
    (first last : Bool) (c : Nat) :
    seen ⟨first, last, headerPart i s c ++ (payload i s).take n⟩ =
      ⟨first, last, headerPart i s c ++ List.replicate n ⟨0, noneEnabled⟩⟩ := by
  have hslots : (headerPart i s c ++ (payload i s).take n).map slotRead =
      headerPart i s c ++ List.replicate n ⟨0, noneEnabled⟩ := by
    rw [List.map_append, headerPart_map_slotRead, List.map_take, payload_no_data hdata, List.take_replicate,
      Nat.min_eq_left hn]
  exact congrArg (PhyWord.mk first last) hslots

/-- R192: the word of a kind without data ends its TLP in the header's last word. -/
theorem emitsHeaderOnlyTlp {i : Instr} (hdata : i.hasData = false) : EmitsHeaderOnlyTlp i := by
  intro s hrun hfirst hst hready
  obtain ⟨t, ht, hfault, hword⟩ := emitsHeaderWord i s hrun hfirst hst hready
  have ⟨_, _, hadmits, _, _⟩ := hrun
  have hlt := cntOf_lt_headerWords s.cfg s.cnt i
  refine ⟨t, ht, hfault, ?_⟩
  rw [phys_no_data_word hadmits hdata hlt]
  by_cases hc : cntOf s.cfg.D s.cnt + 1 < headerWords s.cfg.D i.headerDwords
  · obtain ⟨hsent, hst', hcnt, hsL, hcarry, hgrant, hseen⟩ := (if_pos hc).mp hword
    refine ⟨?_, hst', hsL, (if_pos hc).mpr ⟨hcnt, hgrant, hseen, hcarry⟩⟩
    have hpad : s.cfg.D - (i.headerDwords - s.cfg.D * cntOf s.cfg.D s.cnt) = 0 :=
      Nat.sub_eq_zero_of_le (D_le_header_left hc)
    have hnotLast : (cntOf s.cfg.D s.cnt + 1 == headerWords s.cfg.D i.headerDwords) = false :=
      beq_false_of_ne hc.ne
    rw [hpad, hnotLast, ← seen_headerPart_no_data hdata (Nat.zero_le _), List.take_zero, List.append_nil]
    exact hsent
  · have hwords : ceilDiv i.headerDwords s.cfg.D = cntOf s.cfg.D s.cnt + 1 :=
      Nat.le_antisymm (Nat.le_of_not_lt hc) hlt
    have hlast := isLast_of_running hrun hdata
    have hfit (n : Nat) : (isLast i s && ((payload i s).drop n).all fun x => x.be == noneEnabled) = true :=
      hlast ▸ fits_no_data hdata s n
    obtain ⟨hsent, hcnt, hst', hsL, hseen, hcarry, hgrant⟩ := (if_neg hc).mp hword
    simp only [hfit, hwords, Nat.add_sub_cancel, Bool.or_true, or_true, if_true] at hsent hst' hsL hseen hcarry hgrant
    rw [seen_headerPart_no_data hdata (Nat.sub_le ..)] at hsent
    refine ⟨?_, hst', hsL, (if_neg hc).mpr ⟨hcnt, ?_, hseen, hcarry⟩⟩
    · rw [hsent, headerWords, hwords, beq_self_eq_true]
    · rw [hgrant, if_pos ⟨trivial, hlast⟩]

/-- Settles O21: both reads are kinds without data. -/
theorem readRequestsEmitTheirTlp : Obligations.ReadRequestsEmitTheirTlp :=
  ⟨fun _ _ _ _ => emitsHeaderOnlyTlp rfl, fun _ _ _ _ => emitsHeaderOnlyTlp rfl⟩

end Sys2Proof.Machine
end

section
/-! The two completion kinds (R140 to R148): the Completion Formatter's raw header, bit for bit, and the words the
kinds emit. -/

namespace Sys2Proof.Machine

/-! ## The byte count -/

/-- Settles O8: `4 * len` of a 10-bit length needs no more than 12 bits. -/
theorem byteCountIsFourTimesLength : Obligations.ByteCountIsFourTimesLength := by
  intro c
  have hroom : 4 * c.len.toNat < 2 ^ 12 := by omega
  rw [formatCmp_byteCount, encodeByteCount_eq, BitVec.toNat_ofNat, Nat.mod_eq_of_lt hroom]

/-! ## The raw header -/

/-- R90: header dword 1 of a completion, bit for bit; the 0 is `bcm`. -/
theorem encodeCmpDw1_eq_append (cmpId : BitVec 16) (status : BitVec 3) (len : BitVec 10) :
    encodeCmpDw1 cmpId status len = (cmpId ++ status ++ 0#1 ++ encodeByteCount len : BitVec 32) := by
  apply BitVec.eq_of_getLsbD_eq
  intro j hj
  simp only [encodeCmpDw1, BitVec.getLsbD_or, getLsbD_putField, BitVec.getLsbD_append, headerLayout]
  grind

/-- R91: the same of its header dword 2; the 0 is the reserved bit above `lower_address`. -/
theorem encodeCmpDw2_eq_append (reqId : BitVec 16) (tag ladr : BitVec 8) :
    encodeCmpDw2 reqId tag ladr = (reqId ++ tag ++ 0#1 ++ ladr.extractLsb' 0 7 : BitVec 32) := by
  apply BitVec.eq_of_getLsbD_eq
  intro j hj
  simp only [encodeCmpDw2, BitVec.getLsbD_or, getLsbD_putField, BitVec.getLsbD_append, headerLayout]
  grind

/-- R84, R155: the raw header of a completion, bit for bit. -/
theorem packHdr_completion (k : Kind) (cmpId : BitVec 16) (status : BitVec 3) (reqId : BitVec 16)
    (tag ladr : BitVec 8) (len : BitVec 10) :
    packHdr (encodeDw0 k len) (encodeCmpDw1 cmpId status len) (encodeCmpDw2 reqId tag ladr) 0#32 =
      0#32 ++ (reqId ++ tag ++ 0#1 ++ ladr.extractLsb' 0 7 : BitVec 32) ++
        (cmpId ++ status ++ 0#1 ++ BitVec.ofNat 12 (4 * len.toNat) : BitVec 32) ++
        (0#1 ++ kindFmt k ++ kindType k ++ 0#14 ++ len : BitVec 32) := by
  rw [packHdr, encodeDw0_eq_append, encodeCmpDw1_eq_append, encodeCmpDw2_eq_append, encodeByteCount_eq]

/-- Settles O6: the formatter's header is the encoder's dwords, which are these bits. -/
theorem completionHeadersAreAsWritten : Obligations.CompletionHeadersAreAsWritten := fun _ _ _ _ _ =>
  ⟨(encodeCmp_formatCmp _).trans (packHdr_completion ..), (encodeCmp_formatCmp _).trans (packHdr_completion ..)⟩

/-! ## The words -/

/-- Settles O22: an error completion is a kind without data, whatever its `len`. -/
theorem errorCompletionEmitsItsTlp : Obligations.ErrorCompletionEmitsItsTlp :=
  fun _ _ _ _ _ => emitsHeaderOnlyTlp rfl

/-- Settles O24: what holds of every operation, for the completion with data. -/
theorem dataCompletionEmitsItsHeaderWords : Obligations.DataCompletionEmitsItsHeaderWords :=
  fun _ _ _ _ _ => emitsHeaderWord _

end Sys2Proof.Machine
end

section
/-! The Endianness Converter (R158 to R163): what it does to each byte and to each enable, and from that that it
undoes itself. -/

namespace Sys2Proof.Machine

/-! ## Bytes and enables -/

/-- R158: byte `b` of a swapped dword is byte `3 - b` of the dword. -/
theorem extract_byte_bswap32 (v : Dword) {b : Nat} (hb : b < 4) :
    (bswap32 v).extractLsb' (8 * b) 8 = v.extractLsb' (8 * (3 - b)) 8 := by
  apply BitVec.eq_of_getLsbD_eq
  intro i hi
  have hcases : b = 0 ∨ b = 1 ∨ b = 2 ∨ b = 3 := by omega
  simp only [bswap32, BitVec.getLsbD_extractLsb', BitVec.getLsbD_append]
  rcases hcases with rfl | rfl | rfl | rfl <;> grind

/-- R158: enable `b` of a swapped dword is enable `3 - b` of the dword. -/
theorem getLsbD_nibrev (n : Nibble) {b : Nat} (hb : b < 4) : (nibrev n).getLsbD b = n.getLsbD (3 - b) := by
  have hcases : b = 0 ∨ b = 1 ∨ b = 2 ∨ b = 3 := by omega
  simp only [nibrev, BitVec.getLsbD_extractLsb', BitVec.getLsbD_append]
  rcases hcases with rfl | rfl | rfl | rfl <;> simp

/-- Settles O14: the byte and its enable are reversed alike. -/
theorem enablesMoveWithTheirBytes : Obligations.EnablesMoveWithTheirBytes := fun x _ hb =>
  ⟨extract_byte_bswap32 x.dat hb, getLsbD_nibrev x.be hb⟩

/-! ## The converter undoes itself -/

/-- R9: a dword is its four bytes. -/
theorem dword_eq_of_bytes_eq {v w : Dword}
    (h : ∀ b < 4, v.extractLsb' (8 * b) 8 = w.extractLsb' (8 * b) 8) : v = w := by
  apply BitVec.eq_of_getLsbD_eq
  intro i hi
  have hbit := congrArg (BitVec.getLsbD · (i % 8)) (h (i / 8) (by omega))
  simpa [BitVec.getLsbD_extractLsb', Nat.mod_lt, Nat.div_add_mod] using hbit

theorem bswap32_bswap32 (v : Dword) : bswap32 (bswap32 v) = v :=
  dword_eq_of_bytes_eq fun b hb => by
    rw [extract_byte_bswap32 _ hb, extract_byte_bswap32 _ (by omega), Nat.sub_sub_self (by omega)]

theorem nibrev_nibrev (n : Nibble) : nibrev (nibrev n) = n :=
  BitVec.eq_of_getLsbD_eq fun b hb => by
    rw [getLsbD_nibrev _ hb, getLsbD_nibrev _ (by omega), Nat.sub_sub_self (by omega)]

/-- Settles O13: without `Swap` there is nothing to undo; with it, reversing twice moves every byte and every enable
back. -/
theorem converterIsAnInvolution : Obligations.ConverterIsAnInvolution
  | .noSwap, _, _ => ⟨rfl, rfl⟩
  | .swap, v, n => ⟨bswap32_bswap32 v, nibrev_nibrev n⟩

end Sys2Proof.Machine
end

section
/-! The Arbiter (R170 to R175): the selection of a step, the named policies, and the grant and the policy's state after
a committed step. A source that holds the grant is followed to the transfer of its `last` word, once for both sources. -/

namespace Sys2Proof.Machine

open Sys2Proof.Claims

/-! ## The selection -/

/-- R171: the source that holds the grant is selected, whatever is offered. -/
theorem select_of_grant {s : State} {x : Source} (h : s.grant = grantOf x) (rv cv : Bool) :
    select s rv cv = some x := by
  cases x with
  | req => simp [select, h, grantOf]
  | cmp => simp [select, h, grantOf]

/-- R171: with the grant idle an offering source is selected, by the policy where both offer. -/
theorem select_of_idle {s : State} (h : s.grant = .idle) :
    select s false false = none ∧ select s true false = some .req ∧ select s false true = some .cmp ∧
      select s true true = some (policyChoice s.cfg.policy s.policy) := by
  simp [select, h]

/-- Settles O16: two cases of a held grant, four of an idle one. -/
theorem arbiterSelection : Obligations.ArbiterSelection := by
  intro s rv cv _
  refine ⟨fun h => select_of_grant h rv cv, fun h => select_of_grant h rv cv, fun h => ?_⟩
  obtain ⟨hnone, hreq, hcmp, hboth⟩ := select_of_idle h
  refine ⟨?_, ?_, ?_, ?_⟩
  all_goals
    rintro rfl rfl
    assumption

/-! ## The policies -/

/-- R175: `ALTERNATE` chooses the source it did not grant last. -/
theorem policyChoice_alternate_ne_lastg (q : PolicyState) : policyChoice .alternate q ≠ q.lastg := by
  cases h : q.lastg with
  | req => simp [policyChoice, h]
  | cmp => simp [policyChoice, h]

/-- Settles O17: only `ALTERNATE`'s choice depends on its state; the rest is the table of R175. -/
theorem namedPolicies : Obligations.NamedPolicies := fun q _ =>
  ⟨rfl, rfl, policyChoice_alternate_ne_lastg q, rfl, rfl, rfl⟩

/-- R175: without a selection the policy's state stays. -/
theorem policyStep_none (s : State) : policyStep s none = s.policy := by
  cases h : s.grant with
  | idle => simp [policyStep, h]
  | req => simp [policyStep, h]
  | cmp => simp [policyStep, h]

/-- R175: a selection updates the policy's state exactly when it leaves `Idle`. -/
theorem policyStep_some (s : State) (x : Source) :
    policyStep s (some x) = if s.grant = .idle then policyNext s.cfg.policy s.policy x else s.policy := by
  by_cases h : s.grant = .idle
  · simp [policyStep, h]
  · rw [policyStep_of_granted h, if_neg h]

/-! ## The grant after a step -/

/-- R172: only the selected source sees `ready = 1`. -/
theorem readyTo_eq_false_of_ne {inp : Inputs} {s : State} {x y : Source} (pl : Plan)
    (hsel : selOf inp s = some x) (hne : y ≠ x) : readyTo y inp s pl = false := by
  simp [readyTo, hsel, hne.symm]

/-- R172: the transfer on `raw`, read from the `ready` that the two sources see. -/
theorem rawXfer_eq_readyTo (inp : Inputs) (s : State) (pl : Plan) :
    rawXfer inp s pl = ((rawOf inp s).valid &&
      ((readyTo .req inp s pl && selOf inp s == some .req) ||
        (readyTo .cmp inp s pl && selOf inp s == some .cmp))) := by
  cases hsel : selOf inp s with
  | none => simp [rawXfer, rawOf_none hsel, RawWord.idle]
  | some x =>
    cases x with
    | req =>
      rw [readyTo_eq_false_of_ne pl hsel (y := .cmp) (by decide)]
      simp [rawXfer, readyTo, hsel]
    | cmp =>
      rw [readyTo_eq_false_of_ne pl hsel (y := .req) (by decide)]
      simp [rawXfer, readyTo, hsel]

/-- Settles O18: by the selection of the committed step. -/
theorem grantUpdate : Obligations.GrantUpdate := by
  intro s t h hr hf
  obtain ⟨pl, -, -, -, rfl⟩ := step_faultFree h hr hf
  simp only [readySeen_commit, ← rawXfer_eq_readyTo, commit_policy]
  cases hsel : selOf (inputsOf s) s with
  | none => exact ⟨by rw [commit_grant, hsel]; rfl, policyStep_none s⟩
  | some x => exact ⟨commit_grant_selected pl hsel, policyStep_some s x⟩

/-! ## Packet atomicity -/

/-- R173, R174: a source that holds the grant keeps it, or has its `last` word transferred. -/
theorem commit_grant_of_grant {inp : Inputs} {s : State} {x : Source} (pl : Plan) (h : s.grant = grantOf x) :
    (commit inp s pl).grant = grantOf x ∨
      (commit inp s pl).grant = .idle ∧ inp.validOn x = true ∧ readyTo x inp s pl = true ∧
        inp.lastOn x = true := by
  have hsel : selOf inp s = some x := selOf_of_grant h
  rw [commit_grant_selected pl hsel, rawOf_last hsel]
  cases hdone : rawXfer inp s pl && inp.lastOn x with
  | false => exact .inl rfl
  | true =>
    obtain ⟨hx, hlast⟩ := Bool.and_eq_true_iff.mp hdone
    have htaken : (inp.validOn x && readyTo x inp s pl) = true := by simp [validOn_and_readyTo, hsel, hx]
    obtain ⟨hvalid, hready⟩ := Bool.and_eq_true_iff.mp htaken
    exact .inr ⟨rfl, hvalid, hready, hlast⟩

/-- Settles O19: the granted source is the selected one, so that the other sees `ready = 0` and stays as it is. -/
theorem grantIsPacketAtomic : Obligations.GrantIsPacketAtomic := by
  intro s t h hr hf
  obtain ⟨pl, -, -, -, rfl⟩ := step_faultFree h hr hf
  simp only [readySeen_commit]
  constructor
  · intro hg
    have hsel : selOf (inputsOf s) s = some .req := selOf_of_grant_req hg
    have hother : readyTo .cmp (inputsOf s) s pl = false := readyTo_eq_false_of_ne pl hsel (by decide)
    obtain ⟨hqueue, hplace, hseen, -⟩ := commit_cmp_not_ready hother
    exact ⟨hsel, hother, hqueue, hplace, hseen, commit_grant_of_grant (x := .req) pl hg⟩
  · intro hg
    have hsel : selOf (inputsOf s) s = some .cmp := selOf_of_grant_cmp hg
    have hother : readyTo .req (inputsOf s) s pl = false := readyTo_eq_false_of_ne pl hsel (by decide)
    obtain ⟨hqueue, hplace, hseen, -⟩ := commit_req_not_ready hother
    exact ⟨hsel, hother, hqueue, hplace, hseen, commit_grant_of_grant (x := .cmp) pl hg⟩

end Sys2Proof.Machine
end

section
/-! The Header Inserter's move in each of its states (R190 to R195), and that the protocol monitors and the invariant
keep it from ever finding `first` misplaced (R190, R194, R253). -/

namespace Sys2Proof.Machine

open Sys2Proof.Claims

/-! ## The derived constants -/

/-- Settles O20: each constant evaluated for each of the eight variants. -/
theorem derivedConstantsTable : Obligations.DerivedConstantsTable := by
  unfold Obligations.DerivedConstantsTable
  decide

/-! ## The move -/

section
variable {s : State} {i : RawWord}

/-- R190: in `HEADER` without an input word. -/
theorem planOf_header_silent (hst : s.st = .header) (hv : i.valid = false) : planOf s i = some ⟨none, false⟩ := by
  simp [planOf, hst, planHeader, hv]

/-- R193: in `DATA` with `sL = 0`. -/
theorem planOf_pass (hst : s.st = .data) (hs : sLOf s.cfg.D s.sL = 0) :
    planOf s i = some (planPass s.cnt s.sL i) := by
  simp [planOf, hst, hs]

/-- R193: an input word passes through. -/
theorem planPass_of_valid (cnt : BitVec 1) (sL : BitVec 4) (hv : i.valid = true) :
    planPass cnt sL i = ⟨some ⟨i.slots, false, i.last, if i.last then .header else .data, cnt, sL⟩, true⟩ :=
  if_pos hv

/-- R195: in `DATA` with the packet's last word carried. -/
theorem planOf_flush (hst : s.st = .data) (hs : sLOf s.cfg.D s.sL ≠ 0) (hl : s.carry.last = true) :
    planOf s i = some (planFlush s.cfg.D s.cnt s.sL s.carry) := by
  simp [planOf, hst, hs, hl]

section
variable (hst : s.st = .data) (hs : sLOf s.cfg.D s.sL ≠ 0) (hl : s.carry.last = false)
include hst hs hl

/-- R194: in `DATA` with another word carried, without an input word. -/
theorem planOf_window_silent (hv : i.valid = false) : planOf s i = some ⟨none, true⟩ := by
  simp [planOf, hst, hs, hl, planWindow, hv]

/-- R194: and with one. -/
theorem planOf_window (hv : i.valid = true) (hf : i.first = false) :
    let fit := fits i.last i.slots (sLOf s.cfg.D s.sL)
    planOf s i = some ⟨some ⟨window s.cfg.D (sLOf s.cfg.D s.sL) s.carry i, false, fit,
      if fit then .header else .data, s.cnt, s.sL⟩, true⟩ := by
  simp [planOf, hst, hs, hl, planWindow, hv, hf]

end

/-- R190, R194: the inserter moves unless it meets a word without `first` in `HEADER`, or one with `first` behind a
carried word. -/
theorem exists_planOf_of_first (hheader : s.st = .header → i.valid = true → i.first = true)
    (hwindow : s.st = .data → sLOf s.cfg.D s.sL ≠ 0 → s.carry.last = false → i.valid = true →
      i.first = false) : ∃ pl, planOf s i = some pl := by
  cases hst : s.st with
  | header =>
    cases hv : i.valid with
    | false => exact ⟨_, planOf_header_silent hst hv⟩
    | true =>
      by_cases hc : cntOf s.cfg.D s.cnt + 1 < headerWords s.cfg.D (headerSize i.fmt)
      · exact ⟨_, planOf_headerWord hst hv (hheader hst hv) hc⟩
      · exact ⟨_, planOf_lastHeaderWord hst hv (hheader hst hv) hc⟩
  | data =>
    by_cases hs : sLOf s.cfg.D s.sL = 0
    · exact ⟨_, planOf_pass hst hs⟩
    · cases hl : s.carry.last with
      | true => exact ⟨_, planOf_flush hst hs hl⟩
      | false =>
        cases hv : i.valid with
        | false => exact ⟨_, planOf_window_silent hst hs hl hv⟩
        | true => exact ⟨_, planOf_window hst hs hl hv (hwindow hst hs hl hv)⟩

end

/-! ## `first` on `raw` -/

/-- `first` of the source's stream. -/
def Inputs.firstOn (inp : Inputs) : Source → Bool
  | .req => inp.req.first
  | .cmp => inp.cmp.first

/-- R172: `raw` carries the selected source's `first`. -/
theorem rawOf_first {inp : Inputs} {s : State} {x : Source} (h : selOf inp s = some x) :
    (rawOf inp s).first = inp.firstOn x := by
  cases x with
  | req => rw [rawOf_req h]; rfl
  | cmp => rw [rawOf_cmp h]; rfl

/-- R253: a monitor that finds nothing sees `first` exactly outside a packet. -/
theorem first_of_monitorCheck_none {ω π : Type} [DecidableEq ω] [DecidableEq π] {m : Monitor ω π} {w : ω}
    {valid first last : Bool} {side : π} {need : Nat} {zeroLen noData : Bool}
    (h : monitorCheck m w valid first last side need zeroLen noData = none) (hv : valid = true) :
    first = !m.inPacket := by
  by_contra hne
  exact not_holds_of_monitorCheck_none h .firstMisplaced ⟨hv, hne⟩

/-- R253: in a step without a violation a source offers `first` exactly outside its packets. -/
theorem firstOn_of_validOn {s : State} {inp : Inputs} {x : Source} (h : violationOf s inp = none)
    (hv : inp.validOn x = true) : inp.firstOn x = !s.inPacketOn x := by
  obtain ⟨hreq, hcmp⟩ := violationOf_none h
  cases x with
  | req => exact first_of_monitorCheck_none hreq hv
  | cmp => exact first_of_monitorCheck_none hcmp hv

/-- R172, R253: and so does the word on `raw`. -/
theorem rawOf_first_of_valid {s : State} {inp : Inputs} {x : Source} (h : violationOf s inp = none)
    (hsel : selOf inp s = some x) (hv : (rawOf inp s).valid = true) : (rawOf inp s).first = !s.inPacketOn x := by
  rw [rawOf_first hsel]
  exact firstOn_of_validOn h (rawOf_valid hsel ▸ hv)

/-! ## Lawful inputs -/

/-- R190, R194: under the invariant the inserter's own checks never fire: no packet is in progress in `HEADER`, and
behind a carried word that is not the packet's last it is the selected source's. -/
theorem exists_planOf_of_inv {s : State} {inp : Inputs} (h : s.Inv) (hv : violationOf s inp = none) :
    ∃ pl, planOf s (rawOf inp s) = some pl := by
  obtain ⟨-, -, hgrant, hphase, -, -⟩ := h
  refine exists_planOf_of_first (fun hst hvalid => ?_) (fun hst hs hl hvalid => ?_)
  · obtain ⟨x, hsel⟩ := exists_selOf_of_valid hvalid
    obtain ⟨hnone, -⟩ := (phaseInv_header hst).mp hphase
    rw [rawOf_first_of_valid hv hsel hvalid, hnone x]
    rfl
  · obtain ⟨-, x, hp⟩ := (phaseInv_window hst hs hl).mp hphase
    rw [rawOf_first_of_valid hv (selOf_of_inPacketOn hgrant hp) hvalid, hp]
    rfl

/-- Settles O46: under reset the step is the reset step; else the inserter moves, and the step is a committed one. -/
theorem lawfulInputsNeverFault : Obligations.LawfulInputsNeverFault := by
  intro s h hfault hv
  rw [step_eq_cycle]
  cases hr : (inputsOf s).rst with
  | true => exact ⟨resetStep s, if_pos hr, resetStep_fault s⟩
  | false =>
    obtain ⟨pl, hp⟩ := exists_planOf_of_inv h hv
    exact ⟨_, cycle_commit hr hfault hv hp, hfault⟩

end Sys2Proof.Machine
end

section
/-! The words that leave in `DATA` (R193 to R195): a word passed through, a word of the sliding window, the flush
word. -/

namespace Sys2Proof.Machine

open Sys2Proof.Claims

/-! ## The operations -/

/-- Settles O26: the inserter offers the operation's word as it is and takes it. -/
theorem passThroughWord : Obligations.PassThroughWord := by
  intro i s hrun hst hs hready
  have hp := (planOf_pass hst hs).trans (congrArg some (planPass_of_valid (i := rawWordOf i s) s.cnt s.sL rfl))
  obtain ⟨t, ht, hfault, hsent, hst', hcnt, hsL, hseen, hcarry, hgrant⟩ := exec_of_plan hrun hready hp
  exact ⟨t, ht, hfault, hsent, hst', hcnt, hsL, hcarry, hseen, hgrant⟩

/-- Settles O27: the inserter offers the window over the carried word and the operation's, and takes the latter. -/
theorem slidingWindowWord : Obligations.SlidingWindowWord := by
  intro i s hrun hfirst hst hs hl hlen hready
  obtain ⟨t, ht, hfault, hsent, hst', hcnt, hsL, hseen, hcarry, hgrant⟩ :=
    exec_of_plan hrun hready (planOf_window (i := rawWordOf i s) hst hs hl rfl hfirst)
  rw [window, fitSlots_of_length hlen] at hsent
  exact ⟨t, ht, hfault, ⟨hsent, hst'⟩, hcnt, hsL, hcarry, hseen, hgrant⟩

/-! ## The flush word -/

/-- R172: a plan that takes no word shows `ready = 0` to every source. -/
theorem readyTo_of_not_takes (x : Source) {inp : Inputs} {s : State} {pl : Plan} (h : pl.takes = false) :
    readyTo x inp s pl = false := by
  simp [readyTo, h]

/-- Settles O28: the flush word does not depend on the input word and takes none. -/
theorem flushWord : Obligations.FlushWord := by
  intro s hfault hr hv hst hs hl hlen
  have hp : planOf s (rawOf (inputsOf s) s) = some (planFlush s.cfg.D s.cnt s.sL s.carry) := planOf_flush hst hs hl
  have hflush : flush s.cfg.D (sLOf s.cfg.D s.sL) s.carry = s.carry.slots.drop (sLOf s.cfg.D s.sL) ++
      List.replicate (sLOf s.cfg.D s.sL) ⟨0, noneEnabled⟩ := by
    rw [flush, fitSlots_of_length hlen]
  have hready (x : Source) : readyTo x (inputsOf s) s (planFlush s.cfg.D s.cnt s.sL s.carry) = false :=
    readyTo_of_not_takes x rfl
  obtain ⟨hreqQ, -⟩ := commit_req_not_ready (hready .req)
  obtain ⟨hcmpQ, -⟩ := commit_cmp_not_ready (hready .cmp)
  refine ⟨_, (step_eq_cycle s).trans (cycle_commit hr hfault hv hp), hfault, hready .req, hready .cmp,
    commit_carry_not_ready (hready .req) (hready .cmp), hreqQ, hcmpQ, ?_, fun hmoves => ?_, fun hwaits => ?_⟩
  · rw [commit_phy, ← hflush]
    exact congrArg some (seen_phyOf ..)
  · rw [← hflush]
    simp [hmoves, planFlush, seen_phyOf]
  · obtain ⟨hst', -, -, hsent⟩ :=
      commit_no_output_transfer (pl := planFlush s.cfg.D s.cnt s.sL s.carry) (.inl hwaits)
    exact ⟨hst'.trans hst, hsent⟩

/-- Settles O29: the invariant leaves an enabled slot to flush, and carried enables are whole. -/
theorem flushWordIsNotEmpty : Obligations.FlushWordIsNotEmpty := by
  intro s h _ hst hs hl
  obtain ⟨-, -, -, hphase, ⟨hlen, -, hdata⟩, -⟩ := h
  obtain ⟨-, -, x, hx, hbe⟩ := (phaseInv_flush hst hs hl).mp hphase
  obtain ⟨-, hwhole⟩ := hdata hst
  refine ⟨x, ?_, (hwhole hs x (List.mem_of_mem_drop hx)).resolve_left hbe⟩
  rw [flush, fitSlots_of_length hlen]
  exact List.mem_append_left _ hx

end Sys2Proof.Machine
end

section
/-! The output stream's contract (R52, R196, R198): nothing changes without a transfer, an offered word waits as it is,
and `first` marks header word 0. -/

namespace Sys2Proof.Machine

open Sys2Proof.Claims

/-! ## Steps without a transfer -/

/-- R198: a committed step without a transfer on `phy_out` keeps the carry register too. -/
theorem commit_carry_no_output_transfer {inp : Inputs} {s : State} {pl : Plan}
    (hp : planOf s (rawOf inp s) = some pl)
    (h : inp.ready = false ∨ (commit inp s pl).out.bind (·.phy) = none) : (commit inp s pl).carry = s.carry := by
  rw [commit_phy, Option.map_eq_none_iff] at h
  exact commit_carry_no_xfer (rawXfer_of_no_output hp h)

/-- Settles O30: the inserter's registers follow a transfer on `phy_out`, and a transfer on `raw` comes with one. -/
theorem noTransferNoChange : Obligations.NoTransferNoChange := by
  intro s t h hr hf hstay
  obtain ⟨pl, -, -, hp, rfl⟩ := step_faultFree h hr hf
  obtain ⟨hst, hcnt, hsL, hsent⟩ := commit_no_output_transfer hstay
  exact ⟨hst, hcnt, hsL, commit_carry_no_output_transfer hp hstay, hsent⟩

/-! ## A word that waits -/

/-- R252: a monitor that finds nothing sees the standing offer as it was. -/
theorem eq_of_monitorCheck_none {ω π : Type} [DecidableEq ω] [DecidableEq π] {m : Monitor ω π} {w o : ω}
    {valid first last : Bool} {side : π} {need : Nat} {zeroLen noData : Bool}
    (h : monitorCheck m w valid first last side need zeroLen noData = none) (ho : m.offered = some o) : w = o := by
  by_contra hne
  exact not_holds_of_monitorCheck_none h .offerRetracted ⟨o, ho, .inr hne⟩

/-- R252: the monitor keeps the word that was offered and not taken. -/
theorem monitorNext_offered_of_waits {ω π : Type} (m : Monitor ω π) (w : ω) {valid ready : Bool} (last : Bool)
    (side : π) (hv : valid = true) (hr : ready = false) :
    (monitorNext m w valid ready last side).offered = some w := by
  simp [monitorNext, hv, hr]

section
variable {inp inp' : Inputs} {s : State} {pl : Plan} (hready : inp.ready = false)
include hready

/-- R52, R172, R174: a word on `raw` that cannot be taken is on `raw` again in the next step without a violation: its
source is granted, and its producer may not alter it. -/
theorem rawOf_commit_of_not_ready (hvalid : (rawOf inp s).valid = true)
    (hv : violationOf (commit inp s pl) inp' = none) : rawOf inp' (commit inp s pl) = rawOf inp s := by
  obtain ⟨x, hsel⟩ := exists_selOf_of_valid hvalid
  have hx : rawXfer inp s pl = false := by simp [rawXfer, hready]
  have hwaits : readyTo x inp s pl = false := by simp [readyTo, hready]
  have hgrant : (commit inp s pl).grant = grantOf x := by
    rw [commit_grant_selected pl hsel, hx]
    rfl
  have hsel' : selOf inp' (commit inp s pl) = some x := selOf_of_grant hgrant
  have hvalidOn : inp.validOn x = true := (rawOf_valid hsel).symm.trans hvalid
  obtain ⟨hreq, hcmp⟩ := violationOf_none hv
  cases x with
  | req =>
    rw [rawOf_req hsel', rawOf_req hsel, commit_cfg,
      eq_of_monitorCheck_none hreq (monitorNext_offered_of_waits _ _ _ _ hvalidOn hwaits)]
  | cmp =>
    rw [rawOf_cmp hsel', rawOf_cmp hsel, commit_cfg,
      eq_of_monitorCheck_none hcmp (monitorNext_offered_of_waits _ _ _ _ hvalidOn hwaits)]

/-- R198: the inserter's move depends on its registers only, which stay. -/
theorem planOf_commit_of_not_ready (hp : planOf s (rawOf inp s) = some pl) (i : RawWord) :
    planOf (commit inp s pl) i = planOf s i := by
  obtain ⟨hst, hcnt, hsL, -⟩ := commit_no_output_transfer (s := s) (pl := pl) (.inl hready)
  have hcarry := commit_carry_no_output_transfer hp (.inl hready)
  simp only [planOf, hst, hcnt, hsL, hcarry, commit_cfg]

/-- R198: what the inserter offers it offers again, be it the flush word, which no input word changes, or one made of
the word on `raw`. -/
theorem planOf_commit_of_offers (hp : planOf s (rawOf inp s) = some pl) (ho : Offers s (rawOf inp s) pl)
    (hv : violationOf (commit inp s pl) inp' = none) :
    planOf (commit inp s pl) (rawOf inp' (commit inp s pl)) = some pl := by
  rw [planOf_commit_of_not_ready hready hp]
  have hagain (hvalid : (rawOf inp s).valid = true) : planOf s (rawOf inp' (commit inp s pl)) = some pl := by
    rw [rawOf_commit_of_not_ready hready hvalid hv, hp]
  cases ho with
  | headerWord hst hvalid hc hemit htakes => exact hagain hvalid
  | headerEnd hst hvalid hc hfit hemit htakes => exact hagain hvalid
  | headerThenData hst hvalid hc hfit hemit htakes => exact hagain hvalid
  | pass hst hs hvalid hemit htakes => exact hagain hvalid
  | flush hst hs hl hemit htakes => rw [← hp, planOf_flush hst hs hl, planOf_flush hst hs hl]
  | window hst hs hl hvalid hemit htakes => exact hagain hvalid

end

/-- Settles O31: the second step offers by the same plan as the first, and two draws of the free bits look alike. -/
theorem offeredWordWaitsUnchanged : Obligations.OfferedWordWaitsUnchanged := by
  intro s t u w hst htu hrs hrt hfault hready hw
  obtain ⟨pl', ht, hv', hp', rfl⟩ := step_faultFree htu hrt hfault
  obtain ⟨pl, -, -, hp, rfl⟩ := step_faultFree hst hrs ht
  obtain ⟨e, he, rfl⟩ := Option.map_eq_some_iff.mp ((commit_phy ..).symm.trans hw)
  rcases planOf_silent_or_offers hp with ⟨-, hsilent⟩ | ho
  · simp [hsilent] at he
  · obtain rfl : pl = pl' := Option.some.inj ((planOf_commit_of_offers hready hp ho hv').symm.trans hp')
    rw [commit_phy, he]
    exact congrArg some ((seen_phyOf ..).trans (seen_phyOf ..).symm)

/-! ## `first` on `phy_out` -/

/-- R196: of the words the inserter offers only header word 0 carries `first`. -/
theorem first_of_offers {s : State} {i : RawWord} {pl : Plan} {e : Emit} (ho : Offers s i pl)
    (he : pl.emit = some e) : e.first = true ↔ s.st = .header ∧ cntOf s.cfg.D s.cnt = 0 := by
  have hemits {e' : Emit} (he' : pl.emit = some e') : e = e' := Option.some.inj (he.symm.trans he')
  cases ho with
  | headerWord hst hv hc hemit htakes => simp [hemits hemit, hst]
  | headerEnd hst hv hc hfit hemit htakes => simp [hemits hemit, hst]
  | headerThenData hst hv hc hfit hemit htakes => simp [hemits hemit, hst]
  | pass hst hs hv hemit htakes => simp [hemits hemit, hst]
  | flush hst hs hl hemit htakes => simp [hemits hemit, hst]
  | window hst hs hl hv hemit htakes => simp [hemits hemit, hst]

/-- Settles O32: a step under reset offers no word, a committed one a word of the inserter. -/
theorem firstMarksHeaderWordZero : Obligations.FirstMarksHeaderWordZero := by
  intro s t w h hf hw
  cases hr : (inputsOf s).rst with
  | true =>
    have ht : t = resetStep s := cycle_reset (step_eq_cycle s ▸ h) hr
    simp [ht] at hw
  | false =>
    obtain ⟨pl, -, -, hp, rfl⟩ := step_faultFree h hr hf
    obtain ⟨e, he, rfl⟩ := Option.map_eq_some_iff.mp ((commit_phy ..).symm.trans hw)
    rcases planOf_silent_or_offers hp with ⟨-, hsilent⟩ | ho
    · simp [hsilent] at he
    · exact first_of_offers ho he

end Sys2Proof.Machine
end

section
/-! The packet-level function (R232) as a consumer reads it: a physical word is a run of slots of the flat dword
sequence. Runs are joined, cut and shifted here once, both for the facts about `Phys` (R234 to R238) and for the words
the Header Inserter makes. -/

namespace Sys2Proof.Machine

open Sys2Proof.Claims

/-! ## Runs of slots -/

/-- The `c` slots of a dword sequence from dword `n` on: enabled dwords, then empty slots. -/
def slotRun (l : List Dword) (n c : Nat) : List Slot := (List.range c).map fun j => physSlot l (n + j)

@[simp] theorem slotRun_length (l : List Dword) (n c : Nat) : (slotRun l n c).length = c := by simp [slotRun]

theorem slotRun_getElem (l : List Dword) (n c j : Nat) (h : j < (slotRun l n c).length) :
    (slotRun l n c)[j] = physSlot l (n + j) := by simp [slotRun]

theorem slotRun_append (l : List Dword) (n b c : Nat) : slotRun l n b ++ slotRun l (n + b) c = slotRun l n (b + c) := by
  simp [slotRun, List.range_add, Nat.add_assoc]

theorem slotRun_take (l : List Dword) (n : Nat) {b c : Nat} (h : b ≤ c) : (slotRun l n c).take b = slotRun l n b := by
  simp [slotRun, ← List.map_take, List.take_range, Nat.min_eq_left h]

theorem slotRun_drop (l : List Dword) (n b c : Nat) : (slotRun l n c).drop b = slotRun l (n + b) (c - b) := by
  apply List.ext_getElem (by simp)
  intro j hj hj'
  simp [slotRun_getElem, Nat.add_assoc]

/-- A run behind the first of two sequences is one of the second. -/
theorem slotRun_append_right (l m : List Dword) (n c : Nat) : slotRun (l ++ m) (l.length + n) c = slotRun m n c := by
  simp [slotRun, physSlot, Nat.add_assoc, List.getElem?_append_right]

/-- A run within the first is one of the first. -/
theorem slotRun_append_left {l : List Dword} (m : List Dword) {n c : Nat} (h : n + c ≤ l.length) :
    slotRun (l ++ m) n c = slotRun l n c := by
  apply List.ext_getElem (by simp)
  intro j hj hj'
  have hlt : n + j < l.length := by
    rw [slotRun_length] at hj
    omega
  simp [slotRun_getElem, physSlot, List.getElem?_append_left hlt]

/-- Behind the sequence every slot is empty. -/
theorem slotRun_beyond {l : List Dword} {n : Nat} (h : l.length ≤ n) (c : Nat) :
    slotRun l n c = List.replicate c ⟨0, noneEnabled⟩ := by
  apply List.ext_getElem (by simp)
  intro j hj hj'
  simp [slotRun_getElem, physSlot, List.getElem?_eq_none (show l.length ≤ n + j by omega)]

theorem physSlot_be (l : List Dword) (n : Nat) :
    (physSlot l n).be = if n < l.length then allEnabled else noneEnabled := by
  by_cases h : n < l.length
  · simp [physSlot, h]
  · simp [physSlot, h]

@[simp] theorem slotRead_physSlot (l : List Dword) (n : Nat) : slotRead (physSlot l n) = physSlot l n := by
  have hne : allEnabled ≠ noneEnabled := by decide
  by_cases h : n < l.length
  · simp [slotRead, physSlot, h, hne]
  · simp [slotRead, physSlot, h]

@[simp] theorem slotRun_map_slotRead (l : List Dword) (n c : Nat) : (slotRun l n c).map slotRead = slotRun l n c := by
  simp [slotRun, Function.comp_def]

/-- R188, R232: a run of header dwords, all enabled. -/
theorem headerSlots_eq_slotRun {h : BitVec 128} {l : List Dword} {n c : Nat} (hlen : n + c ≤ l.length)
    (hl : ∀ j < l.length, l[j]? = some (hdr h j)) : headerSlots h n c = slotRun l n c := by
  apply List.ext_getElem (by simp)
  intro j hj hj'
  have hlt : n + j < l.length := by
    rw [slotRun_length] at hj'
    omega
  simp [slotRun_getElem, headerSlots, physSlot, hl _ hlt]

/-! ## The words of `Phys` -/

/-- The slots of word `w` are the run that starts at its first dword. -/
theorem physWords_eq (d : Nat) (l : List Dword) :
    physWords d l = (List.range (ceilDiv l.length d)).map fun w =>
      ⟨w == 0, w + 1 == ceilDiv l.length d, slotRun l (w * d) d⟩ := rfl

@[simp] theorem physWords_length (d : Nat) (l : List Dword) : (physWords d l).length = ceilDiv l.length d := by
  simp [physWords]

theorem physWords_getElem (d : Nat) (l : List Dword) (w : Nat) (h : w < (physWords d l).length) :
    (physWords d l)[w] = ⟨w == 0, w + 1 == ceilDiv l.length d, slotRun l (w * d) d⟩ := by
  simp [physWords_eq]

/-- The enabled dwords of a run. -/
theorem slotRun_enabled (l : List Dword) (n c : Nat) :
    ((slotRun l n c).filter fun x => x.be != noneEnabled).map (·.dat) = (l.drop n).take c := by
  have hne : (allEnabled != noneEnabled) = true := by decide
  rw [slotRun, physSlots_eq_append]
  simp [List.filter_map, Function.comp_def, hne, -List.map_take, -List.map_drop]

/-- R56, R232: flattening the words gives the dwords back, whatever the width. -/
theorem flatten_physWords {d : Nat} (hd : 0 < d) (l : List Dword) : flatten (physWords d l) = l := by
  have hceil : l.length ≤ ceilDiv l.length d * d :=
    Nat.le_of_not_lt fun h => Nat.lt_irrefl _ ((lt_ceilDiv_iff hd ..).mpr h)
  simp only [flatten, physWords_eq, List.flatMap_map, slotRun_enabled]
  exact (flatMap_payloadChunk d l _).trans (List.take_of_length_le hceil)

/-- Settles O53: at every width the flattened words are the flat sequence. -/
theorem widthIndependence : Obligations.WidthIndependence := by
  intro p q k he
  have hflat (p : Params) : flatten (phys p k) = flat p.endian k := flatten_physWords (D_pos p) _
  rw [hflat p, hflat q, he]
  exact ⟨rfl, rfl⟩

/-! ## The flat sequence of a well-formed packet -/

/-- Settles O7: a 64-bit address port admits every well-formed operation. -/
theorem hardwareHeaderIsTheEncoding : Obligations.HardwareHeaderIsTheEncoding := by
  intro i hwf
  refine headerOf_eq_encode (p := ⟨.w128, .a64, .noSwap, .prioReq⟩) ?_
  cases i with
  | mrd32 | mwr32 | cpl | cpld => rfl
  | mrd64 | mwr64 =>
    simp only [Instr.wellFormed, Bool.and_eq_true] at hwf
    simpa [admits, carries64, is64, adrHi] using hwf.2

/-- R99: what a well-formed packet is. -/
theorem wellFormed_iff {k : Packet} :
    k.wellFormed = true ↔ k.op.wellFormed = true ∧ k.data.length = k.op.payloadDwords := by
  simp [Packet.wellFormed]

@[simp] theorem headerOf_length (i : Instr) : (headerOf i).length = i.headerDwords := by simp [headerOf]

/-- R232: the converted header, then the converted data. -/
theorem flat_of_wellFormed {k : Packet} (h : k.wellFormed = true) (e : Endian) :
    flat e k = (headerOf k.op).map (conv e) ++ k.data.map (conv e) := by
  rw [flat, payloadOf_of_wellFormed h, List.map_append]

/-- R234: `T` dwords. -/
theorem flat_length {k : Packet} (h : k.wellFormed = true) (e : Endian) : (flat e k).length = totalDwords k := by
  simp [flat_of_wellFormed h, totalDwords, (wellFormed_iff.mp h).2]

theorem phys_length {k : Packet} (h : k.wellFormed = true) (p : Params) :
    (phys p k).length = ceilDiv (totalDwords k) p.D := by
  rw [phys, physWords_length, flat_length h]

theorem phys_getElem {p : Params} {k : Packet} (h : k.wellFormed = true) {w : Nat} (hw : w < (phys p k).length) :
    (phys p k)[w] = ⟨w == 0, w + 1 == ceilDiv (totalDwords k) p.D, slotRun (flat p.endian k) (w * p.D) p.D⟩ := by
  simp only [phys, physWords_getElem, flat_length h]

/-- A packet has a header, and so at least one word. -/
theorem phys_length_pos {k : Packet} (h : k.wellFormed = true) (p : Params) : 0 < (phys p k).length := by
  rw [phys_length h, lt_ceilDiv_iff (D_pos p), totalDwords]
  rcases headerDwords_cases k.op with hH | hH <;> omega

/-- Settles O54: the flattened words are the converted dwords of the encoding, and converting them again undoes it. -/
theorem physicalRoundTrip : Obligations.PhysicalRoundTrip := by
  intro p k hwf
  have hconv : (conv p.endian ∘ conv p.endian) = id := funext fun v => (converterIsAnInvolution p.endian v 0).1
  have hds : unswapped p (phys p k) = encode k.op ++ k.data := by
    rw [unswapped, phys, flatten_physWords (D_pos p), flat, payloadOf_of_wellFormed hwf, List.map_map, hconv,
      List.map_id, hardwareHeaderIsTheEncoding k.op (wellFormed_iff.mp hwf).1]
  have hpayload : k.data.length = (operation (emittedFields k.op)).payloadDwords := by
    rw [operation_emittedFields, (wellFormed_iff.mp hwf).2]
    cases k.op <;> rfl
  have htlp : decodeTlp (unswapped p (phys p k)) = .ok (⟨emittedFields k.op, k.data⟩, []) := by
    rw [hds]
    exact decodeTlp_of_header (by rw [List.append_nil]; exact decodeHeader_encode k.op k.data) hpayload
  exact ⟨operation_emittedFields k.op ▸ decodePacket_of_tlp htlp, htlp⟩

/-- Of the numbers below `n` just one is `m`. -/
theorem length_filter_range_eq {n m : Nat} (h : m < n) : ((List.range n).filter (· == m)).length = 1 := by
  rw [← List.countP_eq_length_filter]
  exact List.count_eq_one_of_mem List.nodup_range (List.mem_range.mpr h)

/-- Settles O51: the flat sequence has `T` dwords, and of its words the one with number 0 carries `first`, the one
before `ceil(T / D)` carries `last`. -/
theorem lengthConservation : Obligations.LengthConservation := by
  intro p k hwf
  have hpos := phys_length_pos hwf p
  have hlen := phys_length hwf p
  obtain ⟨n, hn⟩ := Nat.exists_eq_succ_of_ne_zero (hlen ▸ hpos).ne'
  have hwords : phys p k = (List.range (n + 1)).map fun w =>
      ⟨w == 0, w + 1 == n + 1, slotRun (flat p.endian k) (w * p.D) p.D⟩ := by
    rw [phys, physWords_eq, flat_length hwf, hn]
  refine ⟨?_, hlen, ?_, ?_, ?_, ?_⟩
  · rw [phys, flatten_physWords (D_pos p), flat_length hwf]
  · rw [hwords, List.filter_map, List.length_map]
    simpa [Function.comp_def] using length_filter_range_eq (Nat.lt_succ_self n)
  · rw [hwords, List.filter_map, List.length_map]
    exact length_filter_range_eq (Nat.succ_pos n)
  · simp [hwords, List.getLast?_range]
  · simp [hwords, List.range_succ_eq_map]

/-- Settles O52: dword `n` stands in slot `n % D` of word `n / D`. -/
theorem byteEnableCorrectness : Obligations.ByteEnableCorrectness := by
  intro p k n hwf hn
  have hw : n / p.D < (phys p k).length := Nat.div_lt_of_lt_mul (Nat.mul_comm .. ▸ hn)
  have hslot : n % p.D < p.D := Nat.mod_lt _ (D_pos p)
  have hsplit : n / p.D * p.D + n % p.D = n := Nat.div_add_mod' ..
  rw [List.getElem?_eq_getElem hw, phys_getElem hwf hw]
  simp [slotRun, hslot, hsplit, physSlot_be, flat_length hwf, allEnabled, noneEnabled]

end Sys2Proof.Machine
end

section
/-! The whole step (R231) and the quiescent state (R239): where nothing is offered nothing moves. -/

namespace Sys2Proof.Machine

/-- Settles O39, for every operation the selected source may offer. -/
theorem stepIsTheWholeStepFunction : Obligations.StepIsTheWholeStepFunction := step_eq_cycle

/-- R252: a monitor without a standing offer finds nothing in a step without an offer. -/
theorem monitorCheck_not_valid {ω π : Type} [DecidableEq ω] [DecidableEq π] {m : Monitor ω π} (ho : m.offered = none)
    (w : ω) (first last : Bool) (side : π) (need : Nat) (zeroLen noData : Bool) :
    monitorCheck m w false first last side need zeroLen noData = none := by
  simp [monitorCheck, retracted, ho]

/-- R258 b: nothing is recorded where both checks find nothing. -/
theorem violationOf_of_checks {s : State} {inp : Inputs} (hreq : reqCheck s inp.req = none)
    (hcmp : cmpCheck s inp.cmp = none) : violationOf s inp = none := by
  simp [violationOf, hreq, hcmp]

/-- R171: with the grant idle and no offer nothing is selected. -/
theorem selOf_of_no_offer {inp : Inputs} {s : State} (hg : s.grant = .idle) (h : ∀ x, inp.validOn x = false) :
    selOf inp s = none := by
  rw [selOf, show inp.req.valid = false from h .req, show inp.cmp.valid = false from h .cmp]
  exact (select_of_idle hg).1

/-- R190, R239: a committed step in which nothing is selected while the inserter is in `HEADER` keeps everything. -/
theorem commit_idle {inp : Inputs} {s : State} (hg : s.grant = .idle) (hsel : selOf inp s = none) :
    let t := commit inp s ⟨none, false⟩
    t.out = some ⟨false, false, none⟩ ∧ t.st = s.st ∧ t.cnt = s.cnt ∧ t.sL = s.sL ∧ t.carry = s.carry ∧
      t.grant = s.grant ∧ t.policy = s.policy ∧ t.sent = s.sent ∧ t.reqQ = s.reqQ ∧ t.cmpQ = s.cmpQ := by
  have hready (x : Source) : readyTo x inp s ⟨none, false⟩ = false := readyTo_of_not_takes x rfl
  obtain ⟨hst, hcnt, hsL, hsent⟩ := commit_no_output_transfer (inp := inp) (s := s) (pl := ⟨none, false⟩) (.inr rfl)
  obtain ⟨hreqQ, -⟩ := commit_req_not_ready (hready .req)
  obtain ⟨hcmpQ, -⟩ := commit_cmp_not_ready (hready .cmp)
  refine ⟨?_, hst, hcnt, hsL, commit_carry_not_ready (hready .req) (hready .cmp), ?_, ?_, hsent, hreqQ, hcmpQ⟩
  · rw [commit_out, outputsOf, hready .req, hready .cmp]
    rfl
  · rw [commit_grant, hsel, hg]
    rfl
  · rw [commit_policy, hsel, policyStep_none]

/-- Settles O41: neither monitor finds anything, nothing is selected, and the inserter waits in `HEADER`. -/
theorem quiescentStepIsIdle : Obligations.QuiescentStepIsIdle := by
  intro s ⟨hst, _, hg, hreqOffer, hcmpOffer, hreq, hcmp, hfault⟩ hr
  have hcheckReq : reqCheck s (inputsOf s).req = none := by
    rw [reqCheck, hreq]
    exact monitorCheck_not_valid hreqOffer ..
  have hcheckCmp : cmpCheck s (inputsOf s).cmp = none := by
    rw [cmpCheck, hcmp]
    exact monitorCheck_not_valid hcmpOffer ..
  have hsel : selOf (inputsOf s) s = none := selOf_of_no_offer hg (forall_source_iff.mpr ⟨hreq, hcmp⟩)
  have hp : planOf s (rawOf (inputsOf s) s) = some ⟨none, false⟩ := by
    rw [rawOf_none hsel]
    exact planOf_header_silent hst rfl
  obtain ⟨hout, hst', hcnt, hsL, hcarry, hgrant, hpolicy, hsent, hreqQ, hcmpQ⟩ := commit_idle hg hsel
  exact ⟨_, (step_eq_cycle s).trans (cycle_commit hr hfault (violationOf_of_checks hcheckReq hcheckCmp) hp),
    hout, hst', hcnt, hsL, hcarry, hgrant, hpolicy, hfault, hsent, hreqQ, hcmpQ⟩

end Sys2Proof.Machine
end

section
/-! The words a packet is presented in (R53, R69): word `m` as its producer queues it, as the port carries it and as
`raw` shows it. -/

namespace Sys2Proof.Machine

/-- The input words of a packet (R69). -/
def inputWords (d : Nat) (k : Packet) : Nat := wordsNeeded d k.op.hasData k.op.len.toNat

/-- Word `m` of a packet on `raw` (R84, R230). -/
def rawWord (p : Params) (k : Packet) (m : Nat) : RawWord where
  valid := true
  first := m == 0
  last := m + 1 == inputWords p.D k
  slots := convSlots p.endian (payloadSlots p.D (payloadChunk p.D k.data m).length (payloadChunk p.D k.data m))
  header := convHeader p.endian (rawHeaderOf k.op)
  fmt := fmtOf k.op

/-- Word `m` of a request packet in its producer's queue. -/
def reqWord (d : Nat) (k : Packet) (m : Nat) : ReqIn :=
  { reqOfInstr k.op with first := m == 0, last := m + 1 == inputWords d k, dat := payloadChunk d k.data m }

/-- Word `m` of a completion packet in its producer's queue. -/
def cmpWord (d : Nat) (k : Packet) (m : Nat) : CmpIn :=
  { cmpOfInstr k.op with first := m == 0, last := m + 1 == inputWords d k, dat := payloadChunk d k.data m }

/-- The same words on the port, which has `D` slots (R54). -/
def reqPort (p : Params) (k : Packet) (m : Nat) : ReqIn :=
  { reqWord p.D k m with dat := fitDwords p.D (payloadChunk p.D k.data m) }

def cmpPort (p : Params) (k : Packet) (m : Nat) : CmpIn :=
  { cmpWord p.D k m with dat := fitDwords p.D (payloadChunk p.D k.data m) }

theorem inputWords_pos (d : Nat) (k : Packet) : 0 < inputWords d k := by
  obtain ⟨n, hn⟩ := exists_wordsNeeded_succ d k.op.hasData k.op.len.toNat
  rw [inputWords, hn]
  exact Nat.succ_pos n

/-- A packet without data is one word. -/
theorem inputWords_no_data {k : Packet} (h : k.op.hasData = false) (d : Nat) : inputWords d k = 1 := by
  simp [inputWords, wordsNeeded, h]

theorem packetReqWords_eq {k : Packet} (h : k.op.isRequest = true) (d : Nat) :
    packetReqWords d k = (List.range (inputWords d k)).map (reqWord d k) := by
  obtain ⟨op, data⟩ := k
  cases op with
  | mrd32 | mwr32 | mrd64 | mwr64 => rfl
  | cpl | cpld => cases h

theorem packetCmpWords_eq {k : Packet} (h : k.op.isRequest = false) (d : Nat) :
    packetCmpWords d k = (List.range (inputWords d k)).map (cmpWord d k) := by
  obtain ⟨op, data⟩ := k
  cases op with
  | mrd32 | mwr32 | mrd64 | mwr64 => cases h
  | cpl | cpld => rfl

/-- R6, R100: the port carries the address of an admitted request whole. -/
theorem portAdr_reqOfInstr {p : Params} {i : Instr} (h : admits p i = true) (hreq : i.isRequest = true) :
    portAdr p (reqOfInstr i).adr = (reqOfInstr i).adr := by
  cases i with
  | mrd32 adr | mwr32 adr => exact portAdr_setWidth p adr
  | mrd64 | mwr64 => exact portAdr_of_carries64 h
  | cpl | cpld => cases hreq

theorem onPort_reqWord {p : Params} {k : Packet} (h : admits p k.op = true) (hreq : k.op.isRequest = true) (m : Nat) :
    ReqIn.onPort p { reqWord p.D k m with valid := true } = reqPort p k m := by
  obtain ⟨hvalid, -, -⟩ := reqOfInstr_fields hreq
  simp [ReqIn.onPort, reqPort, reqWord, portAdr_reqOfInstr h hreq, hvalid]

theorem onPort_cmpWord {k : Packet} (hcmp : k.op.isRequest = false) (p : Params) (m : Nat) :
    CmpIn.onPort p { cmpWord p.D k m with valid := true } = cmpPort p k m := by
  obtain ⟨hvalid, -, -⟩ := cmpOfInstr_fields hcmp
  simp [CmpIn.onPort, cmpPort, cmpWord, hvalid]

/-- The side fields of a word on the port that say its kind and its length. -/
theorem reqPort_fields (p : Params) {k : Packet} (h : k.op.isRequest = true) (m : Nat) :
    (reqPort p k m).valid = true ∧ (reqPort p k m).we = k.op.hasData ∧ (reqPort p k m).len = k.op.len :=
  reqOfInstr_fields h

theorem cmpPort_fields (p : Params) {k : Packet} (h : k.op.isRequest = false) (m : Nat) :
    (cmpPort p k m).valid = true ∧ (cmpPort p k m).err = !k.op.hasData ∧ (cmpPort p k m).len = k.op.len :=
  cmpOfInstr_fields h

/-- A word's slots are those the port carries. -/
theorem payloadSlots_fitDwords (d nv : Nat) (l : List Dword) :
    payloadSlots d nv (fitDwords d l) = payloadSlots d nv l := by
  apply List.ext_getElem (by simp)
  intro j hj hj'
  have hjd : j < d := by simpa using hj
  simp [payloadSlots_getElem, fitDwords, hjd]

section
variable {p : Params} {k : Packet} (hwf : k.wellFormed = true) {m : Nat} (hm : m < inputWords p.D k)
include hwf hm

/-- R125, R144: a word enables the dwords it carries. -/
theorem payloadChunk_length_of_wellFormed : (payloadChunk p.D k.data m).length =
    cmpEnabledSlots p.D (!k.op.hasData) (m + 1 == inputWords p.D k) k.op.len.toNat :=
  payloadChunk_length (D_pos p) (wellFormed_iff.mp hwf).2 hm

theorem rawReq_reqPort (hreq : k.op.isRequest = true) : rawReq p (reqPort p k m) = rawWord p k m := by
  obtain ⟨hvalid, hwe, hlen⟩ := reqPort_fields p hreq m
  have hpos : k.op.len.toNat ≠ 0 := fun h =>
    len_ne_zero_of_wellFormed hreq (wellFormed_iff.mp hwf).1 (BitVec.eq_of_toNat_eq h)
  rw [rawReq, hvalid, hwe, hlen, reqEnabledSlots_eq_cmpEnabledSlots hpos, rawWord,
    payloadChunk_length_of_wellFormed hwf hm, rawHeaderOf, if_pos hreq, fmtOf, if_pos hreq, ← payloadSlots_fitDwords _ _ (payloadChunk p.D k.data m)]
  rfl

theorem rawCmp_cmpPort (hcmp : k.op.isRequest = false) : rawCmp p (cmpPort p k m) = rawWord p k m := by
  obtain ⟨hvalid, herr, hlen⟩ := cmpPort_fields p hcmp m
  rw [rawCmp, hvalid, herr, hlen, rawWord, payloadChunk_length_of_wellFormed hwf hm, rawHeaderOf,
    if_neg (by simp [hcmp]), fmtOf, if_neg (by simp [hcmp]), ← payloadSlots_fitDwords _ _ (payloadChunk p.D k.data m)]
  rfl

end

end Sys2Proof.Machine
end

section
/-! A producer's place in its packets (R52, R53, R69): its queue holds the words it has still to offer, and its monitor
has counted the words taken of the packet in progress (R33, R252 to R256). A producer at such a place breaks no rule as
long as it offers the head of its queue. -/

namespace Sys2Proof.Machine

open Sys2Proof.Claims

/-! ## Any stream -/

/-- How a stream presents packets: a word as it is queued, as the port carries it, and the packet's side fields. -/
structure Presentation (ω π : Type) where
  D : Nat
  word : Packet → Nat → ω
  port : Packet → Nat → ω
  side : Packet → π

/-- The producer has the packets `ks` still to present, of the first of which `m` words are taken. -/
structure Presentation.At {ω π : Type} (P : Presentation ω π) (q : List ω) (mon : Monitor ω π) (ks : List Packet)
    (m : Nat) : Prop where
  queue : q = (ks.flatMap fun k => (List.range (inputWords P.D k)).map (P.word k)).drop m
  place : m = 0 ∨ ∃ k rest, ks = k :: rest ∧ m < inputWords P.D k
  inPacket : mon.inPacket = decide (0 < m)
  wordsSeen : mon.wordsSeen = m
  params : mon.params = if m = 0 then none else ks.head?.map P.side
  offered : mon.offered = none ∨ mon.offered = ks.head?.map (P.port · m)

namespace Presentation.At

variable {ω π : Type} {P : Presentation ω π} {q : List ω} {mon : Monitor ω π} {ks rest : List Packet} {k : Packet}
  {m : Nat}

/-- A word is left of the packet in progress. -/
theorem lt_inputWords (h : P.At q mon (k :: rest) m) : m < inputWords P.D k := by
  rcases h.place with rfl | ⟨k', rest', hks, hm⟩
  · exact inputWords_pos P.D k
  · obtain ⟨rfl, -⟩ := List.cons.inj hks
    exact hm

/-- A producer without packets has nothing queued, and no offer of its stands. -/
theorem nil (h : P.At q mon [] m) : q = [] ∧ mon.offered = none := by
  have hoffered := h.offered
  exact ⟨by simpa using h.queue, by simpa using hoffered⟩

/-- The head of the queue is the next word of the packet in progress. -/
theorem queue_cons (h : P.At q mon (k :: rest) m) :
    q = P.word k m :: ((k :: rest).flatMap fun k => (List.range (inputWords P.D k)).map (P.word k)).drop (m + 1) := by
  have hm := h.lt_inputWords
  have hlt : m < ((k :: rest).flatMap fun k => (List.range (inputWords P.D k)).map (P.word k)).length := by
    simp only [List.flatMap_cons, List.length_append, List.length_map, List.length_range]
    omega
  rw [h.queue, List.drop_eq_getElem_cons hlt]
  simp [hm]

/-- R252 to R257: the monitor finds nothing in the next word of the packet in progress. -/
theorem check [DecidableEq ω] [DecidableEq π] (h : P.At q mon (k :: rest) m) {noData : Bool}
    (hdata : noData = true → inputWords P.D k = 1) :
    monitorCheck mon (P.port k m) true (m == 0) (m + 1 == inputWords P.D k) (P.side k) (inputWords P.D k) false
      noData = none := by
  have hm := h.lt_inputWords
  have hret : retracted mon (P.port k m) true = false := by
    rcases h.offered with ho | ho <;> simp [retracted, ho]
  have hfirst : ((m == 0) != !mon.inPacket) = false := by
    rcases Nat.eq_zero_or_pos m with rfl | hpos
    · simp [h.inPacket]
    · simp [h.inPacket, hpos, hpos.ne']
  have hside : (mon.inPacket && mon.params != some (P.side k)) = false := by
    rcases Nat.eq_zero_or_pos m with rfl | hpos
    · simp [h.inPacket]
    · simp [h.params, hpos.ne']
  have hmulti (hno : noData = true) : m = 0 ∧ m + 1 = inputWords P.D k := by
    have hone := hdata hno
    omega
  simpa [monitorCheck, hret, hfirst, h.wordsSeen, hside] using hmulti

/-- Where no word is transferred the producer stays at its place. -/
theorem wait (h : P.At q mon ks m) {w : ω} {valid ready : Bool} (last : Bool) (side : π)
    (hx : (valid && ready) = false) (hw : valid = true → some w = ks.head?.map (P.port · m)) :
    P.At q (monitorNext mon w valid ready last side) ks m := by
  refine ⟨h.queue, h.place, ?_, ?_, ?_, ?_⟩
  · simp [monitorNext, hx, h.inPacket]
  · simp [monitorNext, hx, h.wordsSeen]
  · simp [monitorNext, hx, h.params]
  · cases hvalid : valid with
    | false => exact .inl (by simp [monitorNext])
    | true =>
      rw [hvalid, Bool.true_and] at hx
      exact .inr (by simpa [monitorNext, hx] using hw hvalid)

/-- A transfer takes it to the next word, or to the next packet. -/
theorem take (h : P.At q mon (k :: rest) m) (w : ω) :
    P.At q.tail (monitorNext mon w true true (m + 1 == inputWords P.D k) (P.side k))
      (if m + 1 = inputWords P.D k then rest else k :: rest) (if m + 1 = inputWords P.D k then 0 else m + 1) := by
  have hm := h.lt_inputWords
  have htail := congrArg List.tail h.queue_cons
  rw [List.tail_cons] at htail
  by_cases hlast : m + 1 = inputWords P.D k
  · rw [if_pos hlast, if_pos hlast]
    refine ⟨?_, .inl rfl, ?_, ?_, ?_, ?_⟩
    · rw [htail, hlast]
      simp
    all_goals simp [monitorNext, hlast]
  · rw [if_neg hlast, if_neg hlast]
    refine ⟨htail, .inr ⟨k, rest, rfl, by omega⟩, ?_, ?_, ?_, ?_⟩
    · simp [monitorNext, hlast]
    · simp [monitorNext, hlast, h.wordsSeen]
    · rcases Nat.eq_zero_or_pos m with rfl | hpos
      · simp [monitorNext, hlast, h.inPacket]
      · simp [monitorNext, hlast, h.inPacket, h.params, hpos, hpos.ne']
    · exact .inl (by simp [monitorNext])

end Presentation.At

end Sys2Proof.Machine
end

section
/-! The two producers along a step (R7, R172, R280): where they stand, what they offer in a lawful frame, and where they
stand after the step. -/

namespace Sys2Proof.Machine

open Sys2Proof.Claims

/-! ## The two streams -/

def reqStream (p : Params) : Presentation ReqIn ReqParams :=
  ⟨p.D, reqWord p.D, reqPort p, fun k => (reqOfInstr k.op).params⟩

def cmpStream (p : Params) : Presentation CmpIn CmpParams :=
  ⟨p.D, cmpWord p.D, cmpPort p, fun k => (cmpOfInstr k.op).params⟩

/-- Where the source's producer stands. -/
def State.PlaceOn (s : State) (x : Source) (ks : List Packet) (m : Nat) : Prop :=
  match x with
  | .req => (reqStream s.cfg).At s.reqQ s.monReq ks m
  | .cmp => (cmpStream s.cfg).At s.cmpQ s.monCmp ks m

/-- The source's producer has the packets `ks` still to present, of the first of which `m` words are taken; they
are all well formed and admitted. -/
structure State.StreamOn (s : State) (x : Source) (ks : List Packet) (m : Nat) : Prop where
  loadable : Loadable s.cfg (x == .req) ks
  place : s.PlaceOn x ks m

/-- Word `m` of the packet is on offer on the source's stream, from its producer's queue. -/
def State.OnOffer (s : State) (x : Source) (k : Packet) (m : Nat) : Prop :=
  match x with
  | .req => (inputsOf s).req = reqPort s.cfg k m ∧ fromQueue (frameOf s).req = true
  | .cmp => (inputsOf s).cmp = cmpPort s.cfg k m ∧ fromQueue (frameOf s).cmp = true

theorem loadable_head {p : Params} {isReq : Bool} {k : Packet} {rest : List Packet}
    (h : Loadable p isReq (k :: rest)) : k.wellFormed = true ∧ admits p k.op = true ∧ k.op.isRequest = isReq :=
  h k List.mem_cons_self

theorem loadable_tail {p : Params} {isReq : Bool} {k : Packet} {rest : List Packet}
    (h : Loadable p isReq (k :: rest)) : Loadable p isReq rest :=
  fun k hk => h k (List.mem_cons_of_mem _ hk)

theorem flatMap_packetReqWords {p : Params} {ks : List Packet} (h : Loadable p true ks) :
    ks.flatMap (packetReqWords p.D) = ks.flatMap fun k => (List.range (inputWords p.D k)).map (reqWord p.D k) :=
  List.flatMap_congr fun k hk => packetReqWords_eq (h k hk).2.2 p.D

theorem flatMap_packetCmpWords {p : Params} {ks : List Packet} (h : Loadable p false ks) :
    ks.flatMap (packetCmpWords p.D) = ks.flatMap fun k => (List.range (inputWords p.D k)).map (cmpWord p.D k) :=
  List.flatMap_congr fun k hk => packetCmpWords_eq (h k hk).2.2 p.D

/-- A producer with a full queue and a fresh monitor is before the first word of its first packet. -/
theorem Presentation.at_fresh {ω π : Type} (P : Presentation ω π) (ks : List Packet) :
    P.At (ks.flatMap fun k => (List.range (inputWords P.D k)).map (P.word k)) Monitor.fresh ks 0 :=
  ⟨rfl, .inl rfl, rfl, rfl, rfl, .inl rfl⟩

section
variable {s : State} {x : Source} {ks rest : List Packet} {k : Packet} {m : Nat}

/-- A source's packet is in progress when a word of it is taken (R33). -/
theorem State.StreamOn.inPacketOn (h : s.StreamOn x ks m) : s.inPacketOn x = decide (0 < m) := by
  cases x with
  | req => exact h.place.inPacket
  | cmp => exact h.place.inPacket

theorem State.StreamOn.lt_inputWords (h : s.StreamOn x (k :: rest) m) : m < inputWords s.cfg.D k := by
  cases x with
  | req => exact h.place.lt_inputWords
  | cmp => exact h.place.lt_inputWords

/-- The packet in progress is well formed, admitted, and the source's. -/
theorem State.StreamOn.head (h : s.StreamOn x (k :: rest) m) :
    k.wellFormed = true ∧ admits s.cfg k.op = true ∧ sourceOf k.op = x := by
  obtain ⟨hwf, hadmits, hreq⟩ := loadable_head h.loadable
  refine ⟨hwf, hadmits, ?_⟩
  rw [sourceOf, hreq]
  cases x <;> rfl

/-- A producer without packets lets no offer stand. -/
theorem State.StreamOn.nil_offerOn (h : s.StreamOn x [] m) : s.offerOn x = false := by
  cases x with
  | req => exact congrArg Option.isSome h.place.nil.2
  | cmp => exact congrArg Option.isSome h.place.nil.2

end

/-! ## What is on offer -/

theorem State.OnOffer.valid {s : State} {x : Source} {k : Packet} {m : Nat} (ho : s.OnOffer x k m)
    (h : sourceOf k.op = x) : (inputsOf s).validOn x = true := by
  cases x with
  | req =>
    have hreq : k.op.isRequest = true := by simpa [sourceOf] using h
    exact (congrArg ReqIn.valid ho.1).trans (reqPort_fields s.cfg hreq m).1
  | cmp =>
    have hcmp : k.op.isRequest = false := by simpa [sourceOf] using h
    exact (congrArg CmpIn.valid ho.1).trans (cmpPort_fields s.cfg hcmp m).1

/-- What a producer that works from its queue drives: the queue's head, or nothing. -/
theorem inputsOf_req_of_queue {s : State} (h : (frameOf s).req = .queue) :
    (inputsOf s).req = ReqIn.onPort s.cfg ((s.reqQ.head?.map ({ · with valid := true })).getD ReqIn.idle) := by
  cases hq : s.reqQ <;> simp [inputsOf, reqSignals, h, hq]

theorem inputsOf_cmp_of_queue {s : State} (h : (frameOf s).cmp = .queue) :
    (inputsOf s).cmp = CmpIn.onPort s.cfg ((s.cmpQ.head?.map ({ · with valid := true })).getD CmpIn.idle) := by
  cases hq : s.cmpQ <;> simp [inputsOf, cmpSignals, h, hq]

theorem fromQueue_iff {ω : Type} {v : Drive ω} : fromQueue v = true ↔ v = .queue := by
  cases v <;> simp [fromQueue]

/-- Does the source's producer work from its queue in this step? -/
def State.queueOn (s : State) : Source → Bool
  | .req => fromQueue (frameOf s).req
  | .cmp => fromQueue (frameOf s).cmp

/-- A producer that works from its queue offers the next word of its packet. -/
theorem State.StreamOn.onOffer_of_queue {s : State} {x : Source} {k : Packet} {rest : List Packet} {m : Nat}
    (h : s.StreamOn x (k :: rest) m) (hq : s.queueOn x = true) : s.OnOffer x k m := by
  cases x with
  | req =>
    obtain ⟨hload, hat⟩ := h
    obtain ⟨-, hadmits, hreq⟩ := loadable_head hload
    refine ⟨?_, hq⟩
    rw [inputsOf_req_of_queue (fromQueue_iff.mp hq), hat.queue_cons]
    exact onPort_reqWord hadmits hreq m
  | cmp =>
    obtain ⟨hload, hat⟩ := h
    obtain ⟨-, -, hcmp⟩ := loadable_head hload
    refine ⟨?_, hq⟩
    rw [inputsOf_cmp_of_queue (fromQueue_iff.mp hq), hat.queue_cons]
    exact onPort_cmpWord hcmp s.cfg m

/-- A producer without packets offers nothing from its queue. -/
theorem State.StreamOn.nil_not_valid {s : State} {x : Source} {m : Nat} (h : s.StreamOn x [] m)
    (hq : s.queueOn x = true) : (inputsOf s).validOn x = false := by
  cases x with
  | req =>
    rw [Inputs.validOn, inputsOf_req_of_queue (fromQueue_iff.mp hq), h.place.nil.1]
    rfl
  | cmp =>
    rw [Inputs.validOn, inputsOf_cmp_of_queue (fromQueue_iff.mp hq), h.place.nil.1]
    rfl

/-- R280: in a lawful frame only a producer that works from its queue offers a word. -/
theorem queueOn_of_valid {s : State} {x : Source} (hf : (frameOf s).lawful = true)
    (hv : (inputsOf s).validOn x = true) : s.queueOn x = true := by
  simp only [Frame.lawful, Bool.and_eq_true] at hf
  obtain ⟨⟨-, hreq⟩, hcmp⟩ := hf
  cases x with
  | req =>
    cases hd : (frameOf s).req with
    | queue => simp [State.queueOn, hd, fromQueue]
    | gap => simp [Inputs.validOn, inputsOf, reqSignals, hd, ReqIn.onPort, ReqIn.idle] at hv
    | signals w => simp [hd, Drive.lawful] at hreq
  | cmp =>
    cases hd : (frameOf s).cmp with
    | queue => simp [State.queueOn, hd, fromQueue]
    | gap => simp [Inputs.validOn, inputsOf, cmpSignals, hd, CmpIn.onPort, CmpIn.idle] at hv
    | signals w => simp [hd, Drive.lawful] at hcmp

/-- So what is offered is the next word of a packet. -/
theorem State.StreamOn.onOffer_of_valid {s : State} {x : Source} {ks : List Packet} {m : Nat}
    (h : s.StreamOn x ks m) (hf : (frameOf s).lawful = true) (hv : (inputsOf s).validOn x = true) :
    ∃ k rest, ks = k :: rest ∧ s.OnOffer x k m := by
  have hq := queueOn_of_valid hf hv
  cases ks with
  | nil => simp [h.nil_not_valid hq] at hv
  | cons k rest => exact ⟨k, rest, rfl, h.onOffer_of_queue hq⟩

/-- R172: the selected source's word on `raw`. -/
theorem State.OnOffer.rawOf_eq {s : State} {x : Source} {k : Packet} {rest : List Packet} {m : Nat}
    (ho : s.OnOffer x k m) (h : s.StreamOn x (k :: rest) m) (hsel : selOf (inputsOf s) s = some x) :
    rawOf (inputsOf s) s = rawWord s.cfg k m := by
  have hm := h.lt_inputWords
  cases x with
  | req =>
    obtain ⟨hwf, -, hreq⟩ := loadable_head h.loadable
    rw [rawOf_req hsel, ho.1, rawReq_reqPort hwf hm hreq]
  | cmp =>
    obtain ⟨hwf, -, hcmp⟩ := loadable_head h.loadable
    rw [rawOf_cmp hsel, ho.1, rawCmp_cmpPort hwf hm hcmp]

/-! ## What the monitors find -/

section
variable {s : State} {ks : List Packet} {m : Nat}

/-- R252 to R257: a producer that works from its queue breaks no rule on `req_in`. -/
theorem reqCheck_of_queue (h : s.StreamOn .req ks m) (hq : s.queueOn .req = true) :
    reqCheck s (inputsOf s).req = none := by
  cases ks with
  | nil =>
    have hvalid : (inputsOf s).req.valid = false := h.nil_not_valid hq
    rw [reqCheck, hvalid]
    exact monitorCheck_not_valid h.place.nil.2 ..
  | cons k rest =>
    obtain ⟨hwf, -, hreq⟩ := loadable_head h.loadable
    obtain ⟨hvalid, hwe, hlen⟩ := reqPort_fields s.cfg hreq m
    have hpos := len_ne_zero_of_wellFormed hreq (wellFormed_iff.mp hwf).1
    rw [(h.onOffer_of_queue hq).1, reqCheck, hvalid, hwe, hlen, beq_false_of_ne hpos]
    exact h.place.check (noData := !k.op.hasData) fun hno => inputWords_no_data (by simpa using hno) s.cfg.D

/-- Nor on `cmp_in`. -/
theorem cmpCheck_of_queue (h : s.StreamOn .cmp ks m) (hq : s.queueOn .cmp = true) :
    cmpCheck s (inputsOf s).cmp = none := by
  cases ks with
  | nil =>
    have hvalid : (inputsOf s).cmp.valid = false := h.nil_not_valid hq
    rw [cmpCheck, hvalid]
    exact monitorCheck_not_valid h.place.nil.2 ..
  | cons k rest =>
    obtain ⟨-, -, hcmp⟩ := loadable_head h.loadable
    obtain ⟨hvalid, herr, hlen⟩ := cmpPort_fields s.cfg hcmp m
    rw [(h.onOffer_of_queue hq).1, cmpCheck, hvalid, herr, hlen, Bool.not_not]
    exact h.place.check (noData := !k.op.hasData) fun hno => inputWords_no_data (by simpa using hno) s.cfg.D

end

/-! ## After a committed step -/

/-- R172: a source whose word is not transferred stays at its place. -/
theorem State.StreamOn.commit_wait {s : State} {x : Source} {ks : List Packet} {m : Nat} {pl : Plan}
    (h : s.StreamOn x ks m) (hf : (frameOf s).lawful = true)
    (hx : selOf (inputsOf s) s ≠ some x ∨ rawXfer (inputsOf s) s pl = false) :
    (commit (inputsOf s) s pl).StreamOn x ks m := by
  have hno : ((inputsOf s).validOn x && readyTo x (inputsOf s) s pl) = false := by
    rw [validOn_and_readyTo]
    rcases hx with hx | hx <;> simp [hx]
  have hoffer := h.onOffer_of_valid hf
  cases x with
  | req =>
    refine ⟨h.loadable, ?_⟩
    rw [State.PlaceOn, commit_reqQ, show ((inputsOf s).req.valid && readyTo .req (inputsOf s) s pl) = false from hno]
    refine h.place.wait _ _ hno fun hv => ?_
    obtain ⟨k, rest, rfl, ho⟩ := hoffer hv
    exact congrArg some ho.1
  | cmp =>
    refine ⟨h.loadable, ?_⟩
    rw [State.PlaceOn, commit_cmpQ, show ((inputsOf s).cmp.valid && readyTo .cmp (inputsOf s) s pl) = false from hno]
    refine h.place.wait _ _ hno fun hv => ?_
    obtain ⟨k, rest, rfl, ho⟩ := hoffer hv
    exact congrArg some ho.1

/-- R172: the source whose word is transferred goes on to the next word, or to the next packet. -/
theorem State.StreamOn.commit_take {s : State} {x : Source} {k : Packet} {rest : List Packet} {m : Nat} {pl : Plan}
    (h : s.StreamOn x (k :: rest) m) (ho : s.OnOffer x k m) (hsel : selOf (inputsOf s) s = some x)
    (hx : rawXfer (inputsOf s) s pl = true) :
    (commit (inputsOf s) s pl).StreamOn x (if m + 1 = inputWords s.cfg.D k then rest else k :: rest)
      (if m + 1 = inputWords s.cfg.D k then 0 else m + 1) := by
  have hvalid := ho.valid h.head.2.2
  have hyes := validOn_and_readyTo x (inputsOf s) s pl
  rw [hvalid, hx, hsel] at hyes
  have hready : readyTo x (inputsOf s) s pl = true := by simpa using hyes
  cases x with
  | req =>
    refine ⟨?_, ?_⟩
    · split
      · exact loadable_tail h.loadable
      · exact h.loadable
    · rw [State.PlaceOn, commit_reqQ, commit_monReq, hready, show (inputsOf s).req.valid = true from hvalid, ho.2, ho.1]
      exact h.place.take (reqPort s.cfg k m)
  | cmp =>
    refine ⟨?_, ?_⟩
    · split
      · exact loadable_tail h.loadable
      · exact h.loadable
    · rw [State.PlaceOn, commit_cmpQ, commit_monCmp, hready, show (inputsOf s).cmp.valid = true from hvalid, ho.2, ho.1]
      exact h.place.take (cmpPort s.cfg k m)

end Sys2Proof.Machine
end

section
/-! The Header Inserter within a packet (R186 to R195, R232): how many of the packet's words are emitted and how many of
its input words are taken, in terms of the registers, and that each step emits the next word of `Phys`. -/

namespace Sys2Proof.Machine

/-! ## The numbers of a packet -/

/-- R186: the header's physical words hold the header and `s` payload slots. -/
theorem headerWords_mul_D (p : Params) (i : Instr) :
    headerWords p.D i.headerDwords * p.D = i.headerDwords + shiftOf p.D i.headerDwords := by
  rcases headerDwords_cases i with h | h <;> rcases D_cases p with hD | hD | hD | hD <;> rw [h, hD] <;> decide

theorem headerWords_pos (p : Params) (i : Instr) : 0 < headerWords p.D i.headerDwords := by
  rw [headerWords, lt_ceilDiv_iff (D_pos p)]
  rcases headerDwords_cases i with h | h <;> omega

theorem shiftOf_headerDwords_lt (p : Params) (i : Instr) :
    shiftOf p.D i.headerDwords < p.D ∧ shiftOf p.D i.headerDwords < 16 := by
  rcases headerDwords_cases i with h | h <;> rcases D_cases p with hD | hD | hD | hD <;> rw [h, hD] <;> decide

/-- R186: the rest of the header fills the last header word but for those slots. -/
theorem headerRest_add_shiftOf (p : Params) (i : Instr) :
    headerRest p.D i.headerDwords + shiftOf p.D i.headerDwords = p.D := by
  rcases headerDwords_cases i with h | h <;> rcases D_cases p with hD | hD | hD | hD <;> rw [h, hD] <;> decide

/-- R24: `cnt` counts the header words, of which only the narrowest width has two. -/
theorem cntOf_eq_toNat {p : Params} {cnt : BitVec 1} {i : Instr} (h : cnt.toNat < headerWords p.D i.headerDwords) :
    cntOf p.D cnt = cnt.toNat := by
  by_cases hD : p.D = 2
  · simp [cntOf, hD]
  · have hone : headerWords p.D i.headerDwords = 1 := by
      rcases headerDwords_cases i with h | h <;> rcases (D_cases p).resolve_left hD with hD | hD | hD <;>
        rw [h, hD] <;> decide
    simp [cntOf, hD]
    omega

/-- R69: a further word follows as long as payload dwords are left. -/
theorem succ_lt_inputWords_iff {d : Nat} (hd : 0 < d) (k : Packet) (m : Nat) :
    m + 1 < inputWords d k ↔ (m + 1) * d < k.op.payloadDwords := by
  cases hdata : k.op.hasData with
  | false => simp [inputWords_no_data hdata, Instr.payloadDwords, hdata]
  | true => simp [inputWords, wordsNeeded, hdata, Instr.payloadDwords, lt_ceilDiv_iff hd]

/-- R69: the input words have room for the payload. -/
theorem payloadDwords_le (d : Nat) (hd : 0 < d) (k : Packet) : k.op.payloadDwords ≤ inputWords d k * d :=
  payload_le_words hd k.op.hasData k.op.len.toNat

/-- R232: word `w` exists when its first dword does. -/
theorem lt_phys_length_iff {k : Packet} (h : k.wellFormed = true) (p : Params) (w : Nat) :
    w < (phys p k).length ↔ w * p.D < k.op.headerDwords + k.op.payloadDwords := by
  rw [phys_length h, lt_ceilDiv_iff (D_pos p), totalDwords]

/-- Behind the header words: what word `m` of the payload leaves over needs another word. -/
theorem headerWords_add_lt_iff {k : Packet} (h : k.wellFormed = true) (p : Params) (m : Nat) :
    headerWords p.D k.op.headerDwords + m < (phys p k).length ↔
      m * p.D + shiftOf p.D k.op.headerDwords < k.op.payloadDwords := by
  have hmul := headerWords_mul_D p k.op
  rw [lt_phys_length_iff h, Nat.add_mul]
  omega

theorem headerWords_le_phys_length {k : Packet} (h : k.wellFormed = true) (p : Params) :
    headerWords p.D k.op.headerDwords ≤ (phys p k).length := by
  have hpos := headerWords_pos p k.op
  obtain ⟨n, hn⟩ := Nat.exists_eq_succ_of_ne_zero hpos.ne'
  have hlast : n * p.D < k.op.headerDwords := 
    (lt_ceilDiv_iff (D_pos p) ..).mp (show n < headerWords p.D k.op.headerDwords by omega)
  rw [hn]
  exact (lt_phys_length_iff h p n).mpr (by omega)

/-- While an input word is left no more words are emitted than `Phys` has. -/
theorem headerWords_add_le {k : Packet} (h : k.wellFormed = true) (p : Params) {m : Nat} (hm : m < inputWords p.D k) :
    headerWords p.D k.op.headerDwords + m ≤ (phys p k).length := by
  cases m with
  | zero => exact headerWords_le_phys_length h p
  | succ m =>
    have hmore := (succ_lt_inputWords_iff (D_pos p) k m).mp hm
    have hsh := (shiftOf_headerDwords_lt p k.op).1
    have hlt := (headerWords_add_lt_iff h p m).mpr (by rw [Nat.succ_mul] at hmore; omega)
    omega

/-! ## The slots of a packet -/

/-- R232: word `w` of `Phys`. -/
theorem phys_getElem? {p : Params} {k : Packet} (h : k.wellFormed = true) {w : Nat} (hw : w < (phys p k).length) :
    (phys p k)[w]? = some ⟨w == 0, w + 1 == (phys p k).length, slotRun (flat p.endian k) (w * p.D) p.D⟩ := by
  rw [List.getElem?_eq_getElem hw, phys_getElem h hw, phys_length h]

/-- What a consumer may read of word `m` on `raw` is a run of the converted payload. -/
theorem rawWord_slots_read {p : Params} (k : Packet) (m : Nat) :
    (rawWord p k m).slots.map slotRead = slotRun (k.data.map (conv p.endian)) (m * p.D) p.D := by
  have hne : allEnabled ≠ noneEnabled := by decide
  have hchunk : (payloadChunk p.D k.data m).length ≤ p.D := by simp [payloadChunk]
  have hpad : p.D - (payloadChunk p.D k.data m).length = p.D - (k.data.length - m * p.D) := by
    simp [payloadChunk]
    omega
  have hread (v : Dword) : slotRead ⟨v, allEnabled⟩ = ⟨v, allEnabled⟩ := if_neg hne
  have hempty (v : Dword) : slotRead ⟨v, noneEnabled⟩ = ⟨0, noneEnabled⟩ := if_pos rfl
  rw [slotRun, physSlots_eq_append, rawWord, payloadSlots_eq_append hchunk, List.length_map, hpad]
  simp [convSlots, convSlot, Function.comp_def, hread, hempty, payloadChunk]

/-- R188, R232: the header slots of a packet's words. -/
theorem headerSlots_rawWord {p : Params} {k : Packet} (hwf : k.wellFormed = true) {n c m : Nat}
    (h : n + c ≤ k.op.headerDwords) :
    headerSlots (rawWord p k m).header n c = slotRun (flat p.endian k) n c := by
  have hlen : ((headerOf k.op).map (conv p.endian)).length = k.op.headerDwords := by simp
  rw [flat_of_wellFormed hwf, slotRun_append_left _ (hlen.symm ▸ h)]
  refine headerSlots_eq_slotRun (hlen.symm ▸ h) fun j hj => ?_
  have hj4 : j < 4 := by rcases headerDwords_cases k.op with hH | hH <;> omega
  rw [hlen] at hj
  simp [headerOf, hj, rawWord, hdr_convHeader _ _ hj4]

/-- Behind the header the flat sequence is the payload. -/
theorem slotRun_flat_payload {k : Packet} (hwf : k.wellFormed = true) (e : Endian) (n c : Nat) :
    slotRun (flat e k) (k.op.headerDwords + n) c = slotRun (k.data.map (conv e)) n c := by
  have hlen : ((headerOf k.op).map (conv e)).length = k.op.headerDwords := by simp
  rw [flat_of_wellFormed hwf, ← hlen, slotRun_append_right]

/-- Behind the header words it is the payload `s` slots on. -/
theorem slotRun_flat_behind {k : Packet} (hwf : k.wellFormed = true) (p : Params) (m c : Nat) :
    slotRun (flat p.endian k) ((headerWords p.D k.op.headerDwords + m) * p.D) c =
      slotRun (k.data.map (conv p.endian)) (m * p.D + shiftOf p.D k.op.headerDwords) c := by
  have hsplit : (headerWords p.D k.op.headerDwords + m) * p.D =
      k.op.headerDwords + (m * p.D + shiftOf p.D k.op.headerDwords) := by
    rw [Nat.add_mul, headerWords_mul_D]
    omega
  rw [hsplit, slotRun_flat_payload hwf]

/-- The slots of a run from slot `s` on are all empty exactly when the sequence ends before it. -/
theorem fits_slotRun {l : List Dword} {n d sh : Nat} (hsh : sh < d) (last : Bool) :
    fits last (slotRun l n d) sh = (last && decide (l.length ≤ n + sh)) := by
  have hne : (allEnabled == noneEnabled) = false := by decide
  rw [fits, slotRun_drop]
  congr 1
  by_cases h : l.length ≤ n + sh
  · rw [slotRun_beyond h]
    simp [h]
  · have hfirst : physSlot l (n + sh) ∈ slotRun l (n + sh) (d - sh) :=
      List.mem_map.mpr ⟨0, List.mem_range.mpr (by omega), rfl⟩
    have hbe : (physSlot l (n + sh)).be = allEnabled := (physSlot_be ..).trans (if_pos (Nat.lt_of_not_le h))
    rw [decide_eq_false h, Bool.eq_false_iff]
    intro hall
    have hempty := List.all_eq_true.mp hall _ hfirst
    rw [hbe, hne] at hempty
    cases hempty

section
variable {p : Params} {k : Packet} (hwf : k.wellFormed = true) {m : Nat} (hm : m < inputWords p.D k)
include hwf hm

/-- R189: a word fits exactly when no further word is needed. -/
theorem fits_rawWord :
    fits (rawWord p k m).last (rawWord p k m).slots (shiftOf p.D k.op.headerDwords) =
      (headerWords p.D k.op.headerDwords + m == (phys p k).length) := by
  have hsh := (shiftOf_headerDwords_lt p k.op).1
  have hmore := succ_lt_inputWords_iff (D_pos p) k m
  have hnext := headerWords_add_lt_iff hwf p m
  have hle := headerWords_add_le hwf p hm
  rw [Nat.succ_mul] at hmore
  rw [← fits_map_slotRead, rawWord_slots_read, fits_slotRun hsh, List.length_map, (wellFormed_iff.mp hwf).2,
    Bool.eq_iff_iff]
  simp only [rawWord, Bool.and_eq_true, beq_iff_eq, decide_eq_true_eq]
  omega

end

end Sys2Proof.Machine
end

section
/-! The Header Inserter's steps over a packet's words (R23, R190 to R195): from every place within the packet the step
in which the next input word is on offer and the consumer is ready emits the next word of `Phys`; the flush word is the
last one. -/

namespace Sys2Proof.Machine

/-! ## The places -/

/-- The inserter's place within packet `k`, of which `m` input words are taken and `e` words are emitted: before header
word `e`; passing the payload through behind a header that fills its words; behind a carried input word. -/
inductive State.InserterAt (s : State) (k : Packet) : Nat → Nat → Prop where
  | header (e : Nat) (hst : s.st = .header) (hcnt : s.cnt.toNat = e)
      (he : e < headerWords s.cfg.D k.op.headerDwords) : s.InserterAt k 0 e
  | pass (m : Nat) (hst : s.st = .data) (hcnt : s.cnt = 0) (hs : sLOf s.cfg.D s.sL = 0)
      (hshift : shiftOf s.cfg.D k.op.headerDwords = 0)
      (he : headerWords s.cfg.D k.op.headerDwords + m < (phys s.cfg k).length) :
      s.InserterAt k m (headerWords s.cfg.D k.op.headerDwords + m)
  | carried (m : Nat) (hst : s.st = .data) (hcnt : s.cnt = 0)
      (hs : sLOf s.cfg.D s.sL = shiftOf s.cfg.D k.op.headerDwords) (hshift : shiftOf s.cfg.D k.op.headerDwords ≠ 0)
      (hcarry : s.carry = ⟨(rawWord s.cfg k m).slots, (rawWord s.cfg k m).last⟩)
      (he : headerWords s.cfg.D k.op.headerDwords + m < (phys s.cfg k).length) :
      s.InserterAt k (m + 1) (headerWords s.cfg.D k.op.headerDwords + m)

/-- A place is one of the inserter's registers. -/
theorem State.InserterAt.congr {s t : State} {k : Packet} {m e : Nat} (h : s.InserterAt k m e) (hcfg : t.cfg = s.cfg)
    (hst : t.st = s.st) (hcnt : t.cnt = s.cnt) (hsL : t.sL = s.sL) (hcarry : t.carry = s.carry) :
    t.InserterAt k m e := by
  cases h with
  | header _ hst' hcnt' he => exact .header e (hst.trans hst') (hcnt ▸ hcnt') (hcfg ▸ he)
  | pass _ hst' hcnt' hs hshift he =>
    rw [← hcfg] at hs hshift he ⊢
    exact .pass m (hst.trans hst') (hcnt.trans hcnt') (hsL ▸ hs) hshift he
  | carried m hst' hcnt' hs hshift hcarry' he =>
    rw [← hcfg] at hs hshift he hcarry' ⊢
    exact .carried m (hst.trans hst') (hcnt.trans hcnt') (hsL ▸ hs) hshift (hcarry.trans hcarry') he

/-- A committed step emits word `e` of the packet and leaves the inserter at its next place, or done with the packet,
whose last input word it takes. -/
structure Advances (inp : Inputs) (s : State) (pl : Plan) (k : Packet) (m e : Nat) : Prop where
  emits : e < (phys s.cfg k).length
  sent : (commit inp s pl).sent.map seen = s.sent.map seen ++ (phys s.cfg k)[e]?.toList
  next : (commit inp s pl).InserterAt k (if rawXfer inp s pl then m + 1 else m) (e + 1) ∨
    ((commit inp s pl).st = .header ∧ (commit inp s pl).cnt = 0 ∧ rawXfer inp s pl = true ∧
      m + 1 = inputWords s.cfg.D k ∧ e + 1 = (phys s.cfg k).length)

/-- What a consumer reads of a committed step's word. -/
theorem commit_sent_of_emit {inp : Inputs} {s : State} {pl : Plan} {w : Emit} (hready : inp.ready = true)
    (hemit : pl.emit = some w) :
    (commit inp s pl).sent.map seen = s.sent.map seen ++ [⟨w.first, w.last, w.slots.map slotRead⟩] := by
  simp only [commit_sent, hready, hemit, if_true, Option.map_some, Option.toList_some, List.map_append, List.map_cons,
    List.map_nil, seen_phyOf]
  rfl

/-! ## The steps -/

theorem rawXfer_of_word {inp : Inputs} {s : State} {k : Packet} {m : Nat} (hready : inp.ready = true)
    (hraw : rawOf inp s = rawWord s.cfg k m) (w : Option Emit) (takes : Bool) : rawXfer inp s ⟨w, takes⟩ = takes := by
  simp [rawXfer, hraw, rawWord, hready]

/-- R187: the inserter finds the packet's header size. -/
theorem headerSize_rawWord {p : Params} {k : Packet} (hadmits : admits p k.op = true) (m : Nat) :
    headerSize (rawWord p k m).fmt = k.op.headerDwords :=
  headerSize_fmtOf hadmits

/-- R25: `sL` holds the header's shift. -/
theorem sLOf_shiftOf_headerDwords (p : Params) (i : Instr) :
    sLOf p.D (BitVec.ofNat 4 (shiftOf p.D i.headerDwords)) = shiftOf p.D i.headerDwords := by
  obtain ⟨hD, h16⟩ := shiftOf_headerDwords_lt p i
  rw [sLOf, BitVec.toNat_ofNat, Nat.mod_eq_of_lt h16, Nat.mod_eq_of_lt hD]

/-- R186: no header has more than two words. -/
theorem headerWords_le_two (p : Params) (i : Instr) : headerWords p.D i.headerDwords ≤ 2 := by
  rcases headerDwords_cases i with h | h <;> rcases D_cases p with hD | hD | hD | hD <;> rw [h, hD] <;> decide

section
variable {inp : Inputs} {s : State} {k : Packet} (hwf : k.wellFormed = true) (hready : inp.ready = true)
include hwf hready

/-- The word that leaves is word `e` of `Phys` when its framing and its slots are. -/
theorem sent_eq_phys {pl : Plan} {w : Emit} {e : Nat} (hemit : pl.emit = some w) (he : e < (phys s.cfg k).length)
    (hfirst : w.first = (e == 0)) (hlast : w.last = (e + 1 == (phys s.cfg k).length))
    (hslots : w.slots.map slotRead = slotRun (flat s.cfg.endian k) (e * s.cfg.D) s.cfg.D) :
    (commit inp s pl).sent.map seen = s.sent.map seen ++ (phys s.cfg k)[e]?.toList := by
  rw [commit_sent_of_emit hready hemit, phys_getElem? hwf he, hfirst, hlast, hslots]
  rfl

/-- R191: a header word before the last one. -/
theorem advances_headerWord {e : Nat} (hadmits : admits s.cfg k.op = true) (hraw : rawOf inp s = rawWord s.cfg k 0)
    (hst : s.st = .header) (hcnt : s.cnt.toNat = e) (hc : e + 1 < headerWords s.cfg.D k.op.headerDwords) :
    ∃ pl, planOf s (rawOf inp s) = some pl ∧ Advances inp s pl k 0 e := by
  have hle := headerWords_le_phys_length hwf s.cfg
  have htwo := headerWords_le_two s.cfg k.op
  have hcntOf : cntOf s.cfg.D s.cnt = e := (cntOf_eq_toNat (i := k.op) (by omega)).trans hcnt
  have hplan := planOf_headerWord (i := rawWord s.cfg k 0) hst rfl rfl
    (by rwa [hcntOf, headerSize_rawWord hadmits])
  have hfull := D_le_header_left hc
  rw [hraw]
  refine ⟨_, hplan, by omega, sent_eq_phys hwf hready rfl (by omega) ?_ ?_ ?_, .inl ?_⟩
  · rw [hcntOf]
  · exact (beq_false_of_ne (by omega)).symm
  · have hdwords : s.cfg.D * e + s.cfg.D ≤ k.op.headerDwords := by
      have hlt := (lt_ceilDiv_iff (D_pos s.cfg) ..).mp hc
      rw [Nat.succ_mul, Nat.mul_comm] at hlt
      exact hlt.le
    rw [hcntOf, hdrOnly, headerSlots_rawWord hwf hdwords, slotRun_map_slotRead, Nat.mul_comm]
  · rw [rawXfer_of_word hready hraw]
    have hcnt' : (s.cnt + 1).toNat = e + 1 := by
      rw [BitVec.toNat_add, hcnt]
      obtain rfl : e = 0 := by omega
      rfl
    exact .header (e + 1) (by simp [hready]) (by simpa [hready] using hcnt') hc

/-- R192: the last header word, filled up with the head of the payload. -/
theorem advances_lastHeaderWord {e : Nat} (hadmits : admits s.cfg k.op = true)
    (hraw : rawOf inp s = rawWord s.cfg k 0) (hst : s.st = .header) (hcnt : s.cnt.toNat = e)
    (he : e + 1 = headerWords s.cfg.D k.op.headerDwords) :
    ∃ pl, planOf s (rawOf inp s) = some pl ∧ Advances inp s pl k 0 e := by
  have hle := headerWords_le_phys_length hwf s.cfg
  have hm := inputWords_pos s.cfg.D k
  have hcntOf : cntOf s.cfg.D s.cnt = e := (cntOf_eq_toNat (i := k.op) (by omega)).trans hcnt
  have hsize := headerSize_rawWord hadmits 0
  have hfits := fits_rawWord hwf hm
  have hplan := planOf_lastHeaderWord (i := rawWord s.cfg k 0) hst rfl rfl (by rw [hcntOf, hsize]; omega)
  simp only [hsize, hcntOf, hfits, Nat.add_zero, ← he] at hplan
  rw [hraw]
  refine ⟨_, hplan, by omega, sent_eq_phys hwf hready rfl (by omega) rfl rfl ?_, ?_⟩
  · have hmul := headerWords_mul_D s.cfg k.op
    have hrest := headerRest_add_shiftOf s.cfg k.op
    rw [← he, Nat.succ_mul] at hmul
    have hhead : e * s.cfg.D + headerRest s.cfg.D k.op.headerDwords = k.op.headerDwords := by omega
    have hroom : s.cfg.D - headerRest s.cfg.D k.op.headerDwords = shiftOf s.cfg.D k.op.headerDwords := by omega
    have hpayload := slotRun_flat_payload hwf s.cfg.endian 0 (shiftOf s.cfg.D k.op.headerDwords)
    rw [hdrLast, List.map_append, Nat.mul_comm, headerSlots_rawWord hwf hhead.le, slotRun_map_slotRead, List.map_take,
      rawWord_slots_read, hroom, slotRun_take _ _ (by omega), Nat.zero_mul, ← hpayload, Nat.add_zero]
    nth_rw 2 [← hhead]
    rw [slotRun_append, hrest]
  · rw [rawXfer_of_word hready hraw]
    by_cases hend : e + 1 = (phys s.cfg k).length
    · have hlast := last_of_fits (hfits.trans (by simpa [← he] using hend))
      exact .inr ⟨by simp [hready, hend], by simp [hready], by simp [hend], by simpa [rawWord] using hlast, hend⟩
    · have hfit : (e + 1 == (phys s.cfg k).length) = false := beq_false_of_ne hend
      have hlt : headerWords s.cfg.D k.op.headerDwords + 0 < (phys s.cfg k).length := by omega
      have hsL := sLOf_shiftOf_headerDwords s.cfg k.op
      simp only [hfit, Bool.or_false, Bool.false_eq_true, if_false]
      left
      rw [he]
      by_cases hshift : shiftOf s.cfg.D k.op.headerDwords = 0
      · rw [hshift] at hsL ⊢
        exact .pass 0 (by simp [hready]) (by simp [hready]) (by simpa [hready] using hsL) hshift hlt
      · have htakes : decide (0 < shiftOf s.cfg.D k.op.headerDwords) = true :=
          decide_eq_true (Nat.pos_of_ne_zero hshift)
        rw [htakes, if_pos rfl]
        refine .carried 0 (by simp [hready]) (by simp [hready]) (by simpa [hready] using hsL) hshift ?_ hlt
        rw [commit_carry_xfer (rawXfer_of_word hready hraw _ _), hraw, commit_cfg]

/-- R193: a word passed through. -/
theorem advances_pass {m : Nat} (hraw : rawOf inp s = rawWord s.cfg k m) (hm : m < inputWords s.cfg.D k)
    (hst : s.st = .data) (hcnt : s.cnt = 0) (hs : sLOf s.cfg.D s.sL = 0)
    (hshift : shiftOf s.cfg.D k.op.headerDwords = 0)
    (he : headerWords s.cfg.D k.op.headerDwords + m < (phys s.cfg k).length) :
    ∃ pl, planOf s (rawOf inp s) = some pl ∧ Advances inp s pl k m (headerWords s.cfg.D k.op.headerDwords + m) := by
  have hpos := headerWords_pos s.cfg k.op
  have hmore := succ_lt_inputWords_iff (D_pos s.cfg) k m
  have hnext := headerWords_add_lt_iff hwf s.cfg (m + 1)
  rw [hshift, Nat.add_zero] at hnext
  have hlast : (rawWord s.cfg k m).last =
      (headerWords s.cfg.D k.op.headerDwords + m + 1 == (phys s.cfg k).length) := by
    rw [Bool.eq_iff_iff]
    simp only [rawWord, beq_iff_eq]
    omega
  have hplan := (planOf_pass (i := rawWord s.cfg k m) hst hs).trans (congrArg some (planPass_of_valid s.cnt s.sL rfl))
  rw [hraw]
  refine ⟨_, hplan, he, sent_eq_phys hwf hready rfl he (beq_false_of_ne (by omega)).symm hlast ?_, ?_⟩
  · rw [rawWord_slots_read, slotRun_flat_behind hwf, hshift, Nat.add_zero]
  · rw [rawXfer_of_word hready hraw]
    by_cases hend : headerWords s.cfg.D k.op.headerDwords + m + 1 = (phys s.cfg k).length
    · have hlast' : (rawWord s.cfg k m).last = true := hlast.trans (by simpa using hend)
      exact .inr ⟨by simp [hready, hlast'], by simp [hready, hcnt], rfl, by simpa [rawWord] using hlast', hend⟩
    · have hlast' : (rawWord s.cfg k m).last = false := hlast.trans (by simpa using hend)
      exact .inl (.pass (m + 1) (by simp [hready, hlast']) (by simp [hready, hcnt]) (by simpa [hready] using hs) hshift
        (show headerWords s.cfg.D k.op.headerDwords + (m + 1) < (phys s.cfg k).length by omega))

/-- R194: a word of the sliding window. -/
theorem advances_window {m : Nat} (hraw : rawOf inp s = rawWord s.cfg k (m + 1)) (hm : m + 1 < inputWords s.cfg.D k)
    (hst : s.st = .data) (hcnt : s.cnt = 0) (hs : sLOf s.cfg.D s.sL = shiftOf s.cfg.D k.op.headerDwords)
    (hshift : shiftOf s.cfg.D k.op.headerDwords ≠ 0)
    (hcarry : s.carry = ⟨(rawWord s.cfg k m).slots, (rawWord s.cfg k m).last⟩)
    (he : headerWords s.cfg.D k.op.headerDwords + m < (phys s.cfg k).length) :
    ∃ pl, planOf s (rawOf inp s) = some pl ∧
      Advances inp s pl k (m + 1) (headerWords s.cfg.D k.op.headerDwords + m) := by
  have hpos := headerWords_pos s.cfg k.op
  have hle := headerWords_add_le hwf s.cfg hm
  have hsh := (shiftOf_headerDwords_lt s.cfg k.op).1
  have hlen : s.carry.slots.length = s.cfg.D := by simp [hcarry, rawWord]
  have hcarried : s.carry.last = false := by
    rw [hcarry]
    exact beq_false_of_ne hm.ne
  have hfits := fits_rawWord hwf hm
  have hplan := planOf_window (i := rawWord s.cfg k (m + 1)) hst (hs ▸ hshift) hcarried rfl rfl
  simp only [hs, hfits, ← Nat.add_assoc] at hplan
  rw [hraw]
  refine ⟨_, hplan, he, sent_eq_phys hwf hready rfl he (beq_false_of_ne (by omega)).symm rfl ?_, ?_⟩
  · have hnext : m * s.cfg.D + shiftOf s.cfg.D k.op.headerDwords +
        (s.cfg.D - shiftOf s.cfg.D k.op.headerDwords) = (m + 1) * s.cfg.D := by
      rw [Nat.succ_mul]
      omega
    rw [window, fitSlots_of_length hlen, hcarry, List.map_append, List.map_drop, List.map_take, rawWord_slots_read,
      rawWord_slots_read, slotRun_drop, slotRun_take _ _ hsh.le, ← hnext, slotRun_append, slotRun_flat_behind hwf]
    congr 1
    omega
  · rw [rawXfer_of_word hready hraw]
    by_cases hend : headerWords s.cfg.D k.op.headerDwords + m + 1 = (phys s.cfg k).length
    · have hlast := last_of_fits (hfits.trans (by simpa [Nat.add_assoc] using hend))
      exact .inr ⟨by simp [hready, hend], by simp [hready, hcnt], rfl, by simpa [rawWord] using hlast, hend⟩
    · refine .inl (.carried (m + 1) (by simp [hready, hend]) (by simp [hready, hcnt]) (by simpa [hready] using hs)
        hshift ?_ (show headerWords s.cfg.D k.op.headerDwords + (m + 1) < (phys s.cfg k).length by omega))
      rw [commit_carry_xfer (rawXfer_of_word hready hraw _ _), hraw, commit_cfg]

/-- R190 to R194: while an input word is left, the step with it on `raw` advances within the packet. -/
theorem State.InserterAt.advances {m e : Nat} (h : s.InserterAt k m e) (hadmits : admits s.cfg k.op = true)
    (hraw : rawOf inp s = rawWord s.cfg k m) (hm : m < inputWords s.cfg.D k) :
    ∃ pl, planOf s (rawOf inp s) = some pl ∧ Advances inp s pl k m e := by
  cases h with
  | header _ hst hcnt he =>
    by_cases hc : e + 1 < headerWords s.cfg.D k.op.headerDwords
    · exact advances_headerWord hwf hready hadmits hraw hst hcnt hc
    · exact advances_lastHeaderWord hwf hready hadmits hraw hst hcnt (by omega)
  | pass _ hst hcnt hs hshift he => exact advances_pass hwf hready hraw hm hst hcnt hs hshift he
  | carried m hst hcnt hs hshift hcarry he => exact advances_window hwf hready hraw hm hst hcnt hs hshift hcarry he

end

/-! ## The flush word -/

/-- R195: where every input word is taken, the flush word is left, the packet's last word. -/
theorem State.InserterAt.flush {s : State} {k : Packet} {e : Nat} (h : s.InserterAt k (inputWords s.cfg.D k) e)
    (hwf : k.wellFormed = true) :
    (∀ i, planOf s i = some (planFlush s.cfg.D s.cnt s.sL s.carry)) ∧ s.cnt = 0 ∧ e + 1 = (phys s.cfg k).length ∧
      ∀ inp : Inputs, inp.ready = true → (commit inp s (planFlush s.cfg.D s.cnt s.sL s.carry)).sent.map seen =
        s.sent.map seen ++ (phys s.cfg k)[e]?.toList := by
  have hroom := payloadDwords_le s.cfg.D (D_pos s.cfg) k
  have hpos := inputWords_pos s.cfg.D k
  have hheader := headerWords_pos s.cfg k.op
  generalize hm : inputWords s.cfg.D k = m at h hroom hpos
  cases h with
  | header => omega
  | pass _ _ _ _ hshift he =>
    have hleft := (headerWords_add_lt_iff hwf s.cfg m).mp he
    omega
  | carried m hst hcnt hs hshift hcarry he =>
    have hlast : s.carry.last = true := by
      rw [hcarry]
      exact beq_iff_eq.mpr hm.symm
    have hlen : s.carry.slots.length = s.cfg.D := by simp [hcarry, rawWord]
    have hsh := (shiftOf_headerDwords_lt s.cfg k.op).1
    have hend : headerWords s.cfg.D k.op.headerDwords + m + 1 = (phys s.cfg k).length := by
      have hover := headerWords_add_lt_iff hwf s.cfg (m + 1)
      omega
    have hnext : m * s.cfg.D + shiftOf s.cfg.D k.op.headerDwords +
        (s.cfg.D - shiftOf s.cfg.D k.op.headerDwords) = (m + 1) * s.cfg.D := by
      rw [Nat.succ_mul]
      omega
    have hempty : (k.data.map (conv s.cfg.endian)).length ≤ (m + 1) * s.cfg.D := by
      rw [List.length_map, (wellFormed_iff.mp hwf).2]
      exact hroom
    have hread : slotRead ⟨0, noneEnabled⟩ = ⟨0, noneEnabled⟩ := if_pos rfl
    refine ⟨fun i => planOf_flush hst (hs ▸ hshift) hlast, hcnt, hend, fun inp hready => ?_⟩
    refine sent_eq_phys hwf hready rfl he (beq_false_of_ne (by omega)).symm (by simpa using hend) ?_
    rw [Machine.flush, fitSlots_of_length hlen, hcarry, hs, List.map_append, List.map_drop, rawWord_slots_read,
      slotRun_drop, List.map_replicate, hread, ← slotRun_beyond hempty, ← hnext, slotRun_append, slotRun_flat_behind hwf]
    congr 1
    omega

end Sys2Proof.Machine
end

section
/-! The whole machine over queued packets (R232, R233, R235): what is emitted, what is in progress and what is still
queued make up the packets loaded. Every committed step in a lawful frame keeps this relation. -/

namespace Sys2Proof.Machine

open Sys2Proof.Claims

/-! ## Packets by source -/

/-- A source's packets, in their order (R99). -/
def packetsOn : Source → List Packet → List Packet
  | .req, l => l.filter fun k => k.op.isRequest
  | .cmp, l => l.filter fun k => !k.op.isRequest

theorem packetsOn_append (x : Source) (l m : List Packet) : packetsOn x (l ++ m) = packetsOn x l ++ packetsOn x m := by
  cases x <;> simp [packetsOn]

theorem packetsOn_singleton (x : Source) (k : Packet) :
    packetsOn x [k] = if sourceOf k.op = x then [k] else [] := by
  cases x <;> cases h : k.op.isRequest <;> simp [packetsOn, sourceOf, h]

/-- The packet in progress goes from those to present to those presented; the other source's stay. -/
theorem packetsOn_take {all ks : Source → List Packet} {order rest : List Packet} {x : Source} {k : Packet}
    (hall : ∀ y, all y = packetsOn y order ++ ks y) (hx : ks x = k :: rest) (hk : sourceOf k.op = x) (y : Source) :
    all y = packetsOn y (order ++ [k]) ++ Function.update ks x rest y := by
  rw [hall y, packetsOn_append, packetsOn_singleton, hk, List.append_assoc]
  by_cases hy : y = x
  · subst hy
    simp [hx]
  · simp [hy, Ne.symm hy]

/-! ## The relation -/

/-- The machine at work on the packets `all` of the two sources, `base` being the words emitted before: between two
packets; within packet `k` of source `x`; or with every input word of `k` taken and its flush word left. -/
inductive Progress (base : List PhyWord) (all : Source → List Packet) (s : State) : Prop where
  | boundary (order : List Packet) (ks : Source → List Packet) (hst : s.st = .header) (hcnt : s.cnt = 0)
      (hstream : ∀ x, s.StreamOn x (ks x) 0) (hall : ∀ x, all x = packetsOn x order ++ ks x)
      (hsent : s.sent.map seen = base ++ physAll s.cfg order)
  | within (order : List Packet) (ks : Source → List Packet) (x : Source) (k : Packet) (rest : List Packet) (m e : Nat)
      (hgrant : s.grant = grantOf x) (hx : ks x = k :: rest) (hins : s.InserterAt k m e) (he : 0 < e)
      (hstream : ∀ y, s.StreamOn y (ks y) (if y = x then m else 0)) (hall : ∀ y, all y = packetsOn y order ++ ks y)
      (hsent : s.sent.map seen = base ++ physAll s.cfg order ++ (phys s.cfg k).take e)
  | flushing (order : List Packet) (ks : Source → List Packet) (k : Packet) (e : Nat) (hwf : k.wellFormed = true)
      (hins : s.InserterAt k (inputWords s.cfg.D k) e) (hstream : ∀ x, s.StreamOn x (ks x) 0)
      (hall : ∀ x, all x = packetsOn x (order ++ [k]) ++ ks x)
      (hsent : s.sent.map seen = base ++ physAll s.cfg order ++ (phys s.cfg k).take e)

theorem physAll_concat (p : Params) (order : List Packet) (k : Packet) :
    physAll p (order ++ [k]) = physAll p order ++ phys p k := by
  simp [physAll]

/-- The words of the packets emitted, one word on. -/
theorem sent_take_succ {p : Params} {base sent sent' : List PhyWord} {order : List Packet} {k : Packet} {e : Nat}
    (hsent : sent = base ++ physAll p order ++ (phys p k).take e) (h : sent' = sent ++ (phys p k)[e]?.toList) :
    sent' = base ++ physAll p order ++ (phys p k).take (e + 1) := by
  rw [h, hsent, List.append_assoc, List.take_add_one]

/-- With its last word a packet is emitted whole. -/
theorem sent_take_length {p : Params} {base sent : List PhyWord} {order : List Packet} {k : Packet} {e : Nat}
    (hsent : sent = base ++ physAll p order ++ (phys p k).take e) (he : e = (phys p k).length) :
    sent = base ++ physAll p (order ++ [k]) := by
  rw [hsent, he, List.take_length, List.append_assoc, physAll_concat]

/-- R190 to R194: only the flush word leaves without a word on `raw`. -/
theorem valid_of_offers {s : State} {i : RawWord} {pl : Plan} (ho : Offers s i pl)
    (h : ¬ (s.st = .data ∧ sLOf s.cfg.D s.sL ≠ 0 ∧ s.carry.last = true)) : i.valid = true := by
  cases ho with
  | headerWord hst hv hc hemit htakes => exact hv
  | headerEnd hst hv hc hfit hemit htakes => exact hv
  | headerThenData hst hv hc hfit hemit htakes => exact hv
  | pass hst hs hv hemit htakes => exact hv
  | flush hst hs hl hemit htakes => exact absurd ⟨hst, hs, hl⟩ h
  | window hst hs hl hv hemit htakes => exact hv

/-- While an input word is left no flush word is due. -/
theorem State.InserterAt.no_flush {s : State} {k : Packet} {m e : Nat} (h : s.InserterAt k m e)
    (hm : m < inputWords s.cfg.D k) : ¬ (s.st = .data ∧ sLOf s.cfg.D s.sL ≠ 0 ∧ s.carry.last = true) := by
  rintro ⟨hdata, hs', hlast⟩
  cases h with
  | header _ hst => simp [hst] at hdata
  | pass _ hst hcnt hs => exact hs' hs
  | carried m hst hcnt hs hshift hcarry =>
    rw [hcarry] at hlast
    exact hm.ne (beq_iff_eq.mp hlast)

/-! ## A step -/

section
variable {base : List PhyWord} {all : Source → List Packet} {s : State} {pl : Plan}

/-- R198: a step without a transfer keeps the relation. -/
theorem Progress.commit_stays (h : Progress base all s) (hf : (frameOf s).lawful = true)
    (hst : (commit (inputsOf s) s pl).st = s.st) (hcnt : (commit (inputsOf s) s pl).cnt = s.cnt)
    (hsL : (commit (inputsOf s) s pl).sL = s.sL) (hsent' : (commit (inputsOf s) s pl).sent = s.sent)
    (hx : rawXfer (inputsOf s) s pl = false) : Progress base all (commit (inputsOf s) s pl) := by
  have hcarry := commit_carry_no_xfer hx
  cases h with
  | boundary order ks hst' hcnt' hstream hall hsent =>
    exact .boundary order ks (hst.trans hst') (hcnt.trans hcnt') (fun x => (hstream x).commit_wait hf (.inr hx)) hall
      (hsent' ▸ hsent)
  | within order ks x k rest m e hgrant hks hins he hstream hall hsent =>
    refine .within order ks x k rest m e ?_ hks (hins.congr rfl hst hcnt hsL hcarry) he
      (fun y => (hstream y).commit_wait hf (.inr hx)) hall (hsent' ▸ hsent)
    rw [commit_grant_selected pl (selOf_of_grant hgrant), hx]
    rfl
  | flushing order ks k e hwf hins hstream hall hsent =>
    exact .flushing order ks k e hwf (hins.congr rfl hst hcnt hsL hcarry)
      (fun x => (hstream x).commit_wait hf (.inr hx)) hall (hsent' ▸ hsent)

/-- R190 to R194: the step in which the next word of packet `k` leaves. -/
theorem Progress.of_advances {order rest : List Packet} {ks : Source → List Packet} {x : Source} {k : Packet}
    {m e : Nat} (hf : (frameOf s).lawful = true) (hks : ks x = k :: rest) (hsel : selOf (inputsOf s) s = some x)
    (ho : s.OnOffer x k m) (hadv : Advances (inputsOf s) s pl k m e)
    (hstream : ∀ y, s.StreamOn y (ks y) (if y = x then m else 0)) (hall : ∀ y, all y = packetsOn y order ++ ks y)
    (hsent : s.sent.map seen = base ++ physAll s.cfg order ++ (phys s.cfg k).take e) :
    Progress base all (commit (inputsOf s) s pl) := by
  have hstreamX : s.StreamOn x (k :: rest) m := by simpa [hks] using hstream x
  have hother {y : Source} (hy : y ≠ x) : (commit (inputsOf s) s pl).StreamOn y (ks y) 0 :=
    (by simpa [hy] using hstream y : s.StreamOn y (ks y) 0).commit_wait hf
      (.inl (by rw [hsel]; exact fun h => hy (Option.some.inj h).symm))
  obtain ⟨hwf, -, hk⟩ := hstreamX.head
  have hm := hstreamX.lt_inputWords
  have hsent' := sent_take_succ hsent hadv.sent
  have hlast : (rawOf (inputsOf s) s).last = (m + 1 == inputWords s.cfg.D k) := by rw [ho.rawOf_eq hstreamX hsel]; rfl
  -- The streams after the packet's last input word.
  have hdone (hx : rawXfer (inputsOf s) s pl = true) (hend : m + 1 = inputWords s.cfg.D k) (y : Source) :
      (commit (inputsOf s) s pl).StreamOn y (Function.update ks x rest y) 0 := by
    by_cases hy : y = x
    · subst hy
      simpa [hend] using hstreamX.commit_take ho hsel hx
    · simpa [hy] using hother hy
  rcases hadv.next with hins | ⟨hst, hcnt, hx, hend, he⟩
  · cases hx : rawXfer (inputsOf s) s pl with
    | false =>
      rw [hx, if_neg Bool.false_ne_true] at hins
      refine .within order ks x k rest m (e + 1) ?_ hks hins (Nat.succ_pos e)
        (fun y => (hstream y).commit_wait hf (.inr hx)) hall hsent'
      rw [commit_grant_selected pl hsel, hx]
      rfl
    | true =>
      rw [hx, if_pos rfl] at hins
      by_cases hend : m + 1 = inputWords s.cfg.D k
      · exact .flushing order _ k (e + 1) hwf (hend ▸ hins) (hdone hx hend) (packetsOn_take hall hks hk) hsent'
      · refine .within order ks x k rest (m + 1) (e + 1) ?_ hks hins (Nat.succ_pos e) (fun y => ?_) hall hsent'
        · rw [commit_grant_selected pl hsel, hx, hlast, beq_false_of_ne hend]
          rfl
        · by_cases hy : y = x
          · subst hy
            simpa [hend, hks] using hstreamX.commit_take ho hsel hx
          · simpa [hy] using hother hy
  · exact .boundary _ _ hst hcnt (hdone hx hend) (packetsOn_take hall hks hk) (sent_take_length hsent' he)

/-- R195: the step in which the flush word leaves. -/
theorem Progress.of_flush {order : List Packet} {ks : Source → List Packet} {k : Packet} {e : Nat}
    (hf : (frameOf s).lawful = true) (hready : (inputsOf s).ready = true) (hwf : k.wellFormed = true)
    (hins : s.InserterAt k (inputWords s.cfg.D k) e) (hstream : ∀ x, s.StreamOn x (ks x) 0)
    (hall : ∀ x, all x = packetsOn x (order ++ [k]) ++ ks x)
    (hsent : s.sent.map seen = base ++ physAll s.cfg order ++ (phys s.cfg k).take e) :
    Progress base all (commit (inputsOf s) s (planFlush s.cfg.D s.cnt s.sL s.carry)) := by
  obtain ⟨-, hcnt, he, hword⟩ := hins.flush hwf
  have hx : rawXfer (inputsOf s) s (planFlush s.cfg.D s.cnt s.sL s.carry) = false := rawXfer_of_not_takes rfl
  exact .boundary _ ks (by simp [hready, planFlush]) (by simp [hready, planFlush, hcnt])
    (fun x => (hstream x).commit_wait hf (.inr hx)) hall
    (sent_take_length (sent_take_succ hsent (hword _ hready)) he)

/-- R233: a committed step in a lawful frame keeps the relation. -/
theorem Progress.commit (h : Progress base all s) (hf : (frameOf s).lawful = true)
    (hp : planOf s (rawOf (inputsOf s) s) = some pl) : Progress base all (commit (inputsOf s) s pl) := by
  rcases commit_stays_or_offers hp with ⟨hst, hcnt, hsL, hsent', hx⟩ | ⟨hready, hoffers⟩
  · exact h.commit_stays hf hst hcnt hsL hsent' hx
  · cases h with
    | boundary order ks hst hcnt hstream hall hsent =>
      have hv := valid_of_offers hoffers (by simp [hst])
      obtain ⟨x, hsel⟩ := exists_selOf_of_valid hv
      obtain ⟨k, rest, hks, ho⟩ := (hstream x).onOffer_of_valid hf (rawOf_valid hsel ▸ hv)
      have hstreamX : s.StreamOn x (k :: rest) 0 := hks ▸ hstream x
      obtain ⟨hwf, hadmits, -⟩ := hstreamX.head
      have hins : s.InserterAt k 0 0 := .header 0 hst (by simp [hcnt]) (headerWords_pos ..)
      obtain ⟨pl', hp', hadv⟩ := hins.advances hwf hready hadmits (ho.rawOf_eq hstreamX hsel) hstreamX.lt_inputWords
      obtain rfl : pl' = pl := Option.some.inj (hp'.symm.trans hp)
      exact .of_advances hf hks hsel ho hadv (by simpa using hstream) hall (by simpa using hsent)
    | within order ks x k rest m e hgrant hks hins he hstream hall hsent =>
      have hsel : selOf (inputsOf s) s = some x := selOf_of_grant hgrant
      have hstreamX : s.StreamOn x (k :: rest) m := by simpa [hks] using hstream x
      have hv := valid_of_offers hoffers (hins.no_flush hstreamX.lt_inputWords)
      obtain ⟨k', rest', hks', ho⟩ := hstreamX.onOffer_of_valid hf (rawOf_valid hsel ▸ hv)
      obtain ⟨rfl, rfl⟩ := List.cons.inj hks'
      obtain ⟨hwf, hadmits, -⟩ := hstreamX.head
      obtain ⟨pl', hp', hadv⟩ := hins.advances hwf hready hadmits (ho.rawOf_eq hstreamX hsel) hstreamX.lt_inputWords
      obtain rfl : pl' = pl := Option.some.inj (hp'.symm.trans hp)
      exact .of_advances hf hks hsel ho hadv hstream hall hsent
    | flushing order ks k e hwf hins hstream hall hsent =>
      obtain rfl := Option.some.inj (((hins.flush hwf).1 _).symm.trans hp)
      exact .of_flush hf hready hwf hins hstream hall hsent

end

end Sys2Proof.Machine
end

section
/-! Runs from a packet boundary (R233, R235, R239): in every lawful run the relation between the packets loaded and the
words emitted holds as long as no violation is recorded. -/

namespace Sys2Proof.Machine

open Sys2Proof.Claims

/-! ## Runs -/

theorem run_succ_of_next {n : Nat} {s u : State} (h : step s = .next u) :
    Host.Core.run Sys2Proof.core (n + 1) s = Host.Core.run Sys2Proof.core n u := by
  simp only [Host.Core.run, show Sys2Proof.core.step s = .next u from h]

theorem exists_step_of_run {n : Nat} {s t : State} (h : Host.Core.run Sys2Proof.core (n + 1) s = .next t) :
    ∃ u, step s = .next u ∧ Host.Core.run Sys2Proof.core n u = .next t := by
  cases hs : step s with
  | next u => exact ⟨u, rfl, (run_succ_of_next hs).symm.trans h⟩
  | fault r =>
    simp [Host.Core.run, show Sys2Proof.core.step s = .fault r from hs] at h
  | refused r =>
    simp [Host.Core.run, show Sys2Proof.core.step s = .refused r from hs] at h

/-- What every step keeps holds at the end of a run. -/
theorem run_keeps {I : State → Prop} (hstep : ∀ s t, I s → step s = .next t → I t) {n : Nat} {s t : State} (h : I s)
    (hrun : Host.Core.run Sys2Proof.core n s = .next t) : I t := by
  induction n generalizing s with
  | zero =>
    obtain rfl : s = t := Host.Outcome.next.inj hrun
    exact h
  | succ n ih =>
    obtain ⟨u, hs, hrun⟩ := exists_step_of_run hrun
    exact ih (hstep s u h hs) hrun

/-- The two sources' packets. -/
def bySource (reqs cmps : List Packet) : Source → List Packet
  | .req => reqs
  | .cmp => cmps

/-- Loaded packets are all still to present. -/
theorem progress_loadPackets {s : State} {reqs cmps : List Packet} (hreqs : Loadable s.cfg true reqs)
    (hcmps : Loadable s.cfg false cmps) (env : List Frame) :
    Progress (s.sent.map seen) (bySource reqs cmps) (loadPackets reqs cmps env s) := by
  refine .boundary [] (bySource reqs cmps) rfl rfl (fun x => ?_) (fun x => by cases x <;> rfl)
    (List.append_nil _).symm
  cases x with
  | req =>
    refine ⟨hreqs, ?_⟩
    have hq : (loadPackets reqs cmps env s).reqQ =
      reqs.flatMap fun k => (List.range (inputWords s.cfg.D k)).map (reqWord s.cfg.D k) := flatMap_packetReqWords hreqs
    rw [State.PlaceOn, hq]
    exact (reqStream s.cfg).at_fresh reqs
  | cmp =>
    refine ⟨hcmps, ?_⟩
    have hq : (loadPackets reqs cmps env s).cmpQ =
      cmps.flatMap fun k => (List.range (inputWords s.cfg.D k)).map (cmpWord s.cfg.D k) := flatMap_packetCmpWords hcmps
    rw [State.PlaceOn, hq]
    exact (cmpStream s.cfg).at_fresh cmps

/-- A machine in a lawful run on the packets `all`. -/
structure LawfulRun (p : Params) (base : List PhyWord) (all : Source → List Packet) (s : State) : Prop where
  cfg : s.cfg = p
  env : ∀ f ∈ s.env, f.lawful = true
  progress : s.fault = none → Progress base all s

theorem frameOf_lawful {s : State} (h : ∀ f ∈ s.env, f.lawful = true) : (frameOf s).lawful = true := by
  cases henv : s.env with
  | nil => simp [frameOf, henv, Frame.default, Frame.lawful, Drive.lawful]
  | cons f env => simpa [frameOf, henv] using h f (by simp [henv])

/-- R280: a lawful frame holds no reset. -/
theorem rst_of_lawful {s : State} (h : (frameOf s).lawful = true) : (inputsOf s).rst = false := by
  simp only [Frame.lawful, Bool.and_eq_true, Bool.not_eq_true'] at h
  obtain ⟨⟨hrst, -⟩, -⟩ := h
  exact hrst

theorem LawfulRun.step {p : Params} {base : List PhyWord} {all : Source → List Packet} {s t : State}
    (h : LawfulRun p base all s) (hst : Machine.step s = .next t) : LawfulRun p base all t := by
  have hf := frameOf_lawful h.env
  have htail (f : Frame) (hmem : f ∈ s.env.tail) : f.lawful = true := h.env f (List.mem_of_mem_tail hmem)
  rw [step_eq_cycle] at hst
  rcases cycle_cases hst with ⟨hr, -⟩ | ⟨-, hfault, ⟨c, i, -, rfl⟩ | ⟨-, -, rfl⟩ | ⟨pl, -, hp, rfl⟩⟩
  · rw [rst_of_lawful hf] at hr
    cases hr
  · exact ⟨h.cfg, htail, fun hn => by simp at hn⟩
  · exact ⟨h.cfg, htail, fun hn => by simp at hn⟩
  · exact ⟨h.cfg, htail, fun _ => (h.progress hfault).commit hf hp⟩

/-- R233: so the relation holds at the end of every lawful run from a boundary. -/
theorem lawfulRun_of_loadPackets {s t : State} {reqs cmps : List Packet} {env : List Frame} {n : Nat}
    (hreqs : Loadable s.cfg true reqs) (hcmps : Loadable s.cfg false cmps) (henv : ∀ f ∈ env, f.lawful = true)
    (hrun : Host.Core.run Sys2Proof.core n (loadPackets reqs cmps env s) = .next t) :
    LawfulRun s.cfg (s.sent.map seen) (bySource reqs cmps) t :=
  have hload : LawfulRun s.cfg (s.sent.map seen) (bySource reqs cmps) (loadPackets reqs cmps env s) :=
    ⟨rfl, henv, fun _ => progress_loadPackets hreqs hcmps env⟩
  run_keeps (fun _ _ h hst => h.step hst) hload hrun

/-! ## Any lawful run -/

/-- What is emitted are the words of packets presented in an order that keeps each source's own, perhaps but for some
words of the last one. -/
theorem Progress.exists_order {base : List PhyWord} {all : Source → List Packet} {s : State}
    (h : Progress base all s) :
    ∃ order, (∀ x, packetsOn x order <+: all x) ∧ s.sent.map seen <+: base ++ physAll s.cfg order := by
  have hpart (order : List Packet) (k : Packet) (e : Nat) :
      base ++ physAll s.cfg order ++ (phys s.cfg k).take e <+: base ++ physAll s.cfg (order ++ [k]) := by
    rw [physAll_concat, ← List.append_assoc]
    exact (List.prefix_append_right_inj _).mpr (List.take_prefix ..)
  cases h with
  | boundary order ks hst hcnt hstream hall hsent =>
    exact ⟨order, fun x => ⟨ks x, (hall x).symm⟩, hsent ▸ List.prefix_rfl⟩
  | within order ks x k rest m e hgrant hks hins he hstream hall hsent =>
    have hk : sourceOf k.op = x := (hks ▸ hstream x).head.2.2
    exact ⟨order ++ [k], fun y => ⟨_, (packetsOn_take hall hks hk y).symm⟩, hsent ▸ hpart order k e⟩
  | flushing order ks k e hwf hins hstream hall hsent =>
    exact ⟨order ++ [k], fun x => ⟨ks x, (hall x).symm⟩, hsent ▸ hpart order k e⟩

/-- Settles O57: the order is that in which the packets are presented, the one in progress last. -/
theorem emittedWordsArePackets : Obligations.EmittedWordsArePackets := by
  intro s t reqs cmps env n hreqs hcmps henv hrun hfault
  have h := lawfulRun_of_loadPackets hreqs hcmps henv hrun
  obtain ⟨order, horder, hsent⟩ := (h.progress hfault).exists_order
  exact ⟨order, horder .req, horder .cmp, h.cfg ▸ hsent⟩

/-- Before its packet's first word the inserter is nowhere within it. -/
theorem State.InserterAt.eq_zero {s : State} {k : Packet} {m e : Nat} (h : s.InserterAt k m e) (hst : s.st = .header)
    (hcnt : s.cnt = 0) : m = 0 ∧ e = 0 := by
  cases h with
  | header _ _ hcnt' => exact ⟨rfl, by simpa [hcnt] using hcnt'.symm⟩
  | pass _ hst' => simp [hst] at hst'
  | carried _ hst' => simp [hst] at hst'

/-- Settles O60: of the three places only the one between packets is quiescent. -/
theorem quiescentMeansEmittedWhole : Obligations.QuiescentMeansEmittedWhole := by
  rintro s t reqs cmps env n hreqs hcmps henv hrun ⟨hst, hcnt, -, -, -, -, -, hfault⟩
  have h := lawfulRun_of_loadPackets hreqs hcmps henv hrun
  cases h.progress hfault with
  | boundary order ks _ _ hstream hall hsent =>
    have hreq := (hstream .req).place.queue
    have hcmp := (hstream .cmp).place.queue
    refine ⟨order, ks .req, ks .cmp, hall .req, hall .cmp, h.cfg ▸ hsent, ?_, ?_⟩
    · rw [← h.cfg, flatMap_packetReqWords (hstream .req).loadable]
      exact hreq
    · rw [← h.cfg, flatMap_packetCmpWords (hstream .cmp).loadable]
      exact hcmp
  | within _ _ _ _ _ _ _ _ _ hins he => exact absurd (hins.eq_zero hst hcnt).2 he.ne'
  | flushing _ _ k _ _ hins => exact absurd (hins.eq_zero hst hcnt).1 (inputWords_pos t.cfg.D k).ne'

end Sys2Proof.Machine
end

section
/-! Runs with a consumer that is always ready and producers without gaps (R232, R285): every step emits a word until all
packets are emitted, and then the machine is quiescent. -/

namespace Sys2Proof.Machine

open Sys2Proof.Claims

/-! ## Counting words -/

/-- The output words of both sources' packets. -/
def totalWords (p : Params) (all : Source → List Packet) : Nat :=
  (physAll p (all .req)).length + (physAll p (all .cmp)).length

theorem physAll_append (p : Params) (l m : List Packet) : physAll p (l ++ m) = physAll p l ++ physAll p m :=
  List.flatMap_append

/-- Packets in any order have the words of each source's packets. -/
theorem physAll_length_eq (p : Params) (order : List Packet) :
    (physAll p order).length = totalWords p (packetsOn · order) := by
  induction order with
  | nil => rfl
  | cons k order ih =>
    have hcons (l : List Packet) : (physAll p (k :: l)).length = (phys p k).length + (physAll p l).length := by
      simp [physAll]
    cases hreq : k.op.isRequest with
    | true =>
      simp only [totalWords, packetsOn, List.filter_cons, hreq, if_true, Bool.not_true, Bool.false_eq_true, if_false,
        hcons] at ih ⊢
      omega
    | false =>
      simp only [totalWords, packetsOn, List.filter_cons, hreq, if_true, Bool.not_false, Bool.false_eq_true, if_false,
        hcons] at ih ⊢
      omega

/-- The words emitted and the words left. -/
theorem totalWords_eq {all ks : Source → List Packet} {order : List Packet} (p : Params)
    (hall : ∀ x, all x = packetsOn x order ++ ks x) :
    totalWords p all = (physAll p order).length + totalWords p ks := by
  rw [physAll_length_eq, totalWords, hall .req, hall .cmp, physAll_append, physAll_append, List.length_append,
    List.length_append, totalWords, totalWords]
  omega

theorem phys_length_le_totalWords {ks : Source → List Packet} {x : Source} {k : Packet} {rest : List Packet}
    (p : Params) (h : ks x = k :: rest) : (phys p k).length ≤ totalWords p ks := by
  cases x <;> simp [totalWords, h, physAll] <;> omega

/-- Within a packet a word of it is left to emit. -/
theorem State.InserterAt.lt_phys_length {s : State} {k : Packet} {m e : Nat} (h : s.InserterAt k m e)
    (hwf : k.wellFormed = true) : e < (phys s.cfg k).length := by
  cases h with
  | header _ _ _ he => exact he.trans_le (headerWords_le_phys_length hwf s.cfg)
  | pass _ _ _ _ _ he => exact he
  | carried _ _ _ _ _ _ he => exact he

/-- Where as many words are emitted as there are, every packet is emitted whole. -/
theorem Progress.finished {base : List PhyWord} {all : Source → List Packet} {s : State} (h : Progress base all s)
    (hlen : s.sent.length = base.length + totalWords s.cfg all) :
    ∃ order, s.st = .header ∧ s.cnt = 0 ∧ (∀ x, s.StreamOn x [] 0) ∧ (∀ x, all x = packetsOn x order) ∧
      s.sent.map seen = base ++ physAll s.cfg order := by
  cases h with
  | boundary order ks hst hcnt hstream hall hsent =>
    have hnone (x : Source) : ks x = [] := by
      cases hks : ks x with
      | nil => rfl
      | cons k rest =>
        have hsum := congrArg List.length hsent
        have hpos := phys_length_pos (hks ▸ hstream x).head.1 s.cfg
        have hle := phys_length_le_totalWords s.cfg hks
        rw [List.length_map, hlen, totalWords_eq s.cfg hall, List.length_append] at hsum
        omega
    exact ⟨order, hst, hcnt, fun x => hnone x ▸ hstream x, fun x => by rw [hall x, hnone x, List.append_nil], hsent⟩
  | within order ks x k rest m e hgrant hks hins he hstream hall hsent =>
    have hsum := congrArg List.length hsent
    have hlt := hins.lt_phys_length (hks ▸ hstream x).head.1
    have hle := phys_length_le_totalWords s.cfg hks
    rw [List.length_map, hlen, totalWords_eq s.cfg hall, List.length_append, List.length_append,
      List.length_take] at hsum
    omega
  | flushing order ks k e hwf hins hstream hall hsent =>
    have hsum := congrArg List.length hsent
    have hlt := hins.lt_phys_length hwf
    rw [List.length_map, hlen, totalWords_eq s.cfg hall, physAll_concat, List.length_append, List.length_append,
      List.length_append, List.length_take] at hsum
    omega

/-! ## A step without stall or gap -/

/-- A machine at work on the packets `all`, its environment's script at the end (log entry 3). -/
structure ReadyRun (p : Params) (base : List PhyWord) (all : Source → List Packet) (s : State) : Prop where
  cfg : s.cfg = p
  env : s.env = []
  fault : s.fault = none
  grant : grantInv s
  progress : Progress base all s

theorem queueOn_of_no_script {s : State} (h : s.env = []) (x : Source) : s.queueOn x = true := by
  cases x <;> simp [State.queueOn, frameOf, h, Frame.default, fromQueue]

theorem ready_of_no_script {s : State} (h : s.env = []) : (inputsOf s).rst = false ∧ (inputsOf s).ready = true := by
  simp [inputsOf, frameOf, h, Frame.default]

/-- A source without packets holds no grant between two packets (R26, R173). -/
theorem grant_ne_of_nil {s : State} {x : Source} (hg : grantInv s) (h : s.StreamOn x [] 0) : s.grant ≠ grantOf x := by
  intro hx
  rcases (grantInv_iff.mp hg x).2 hx with hp | ho
  · simp [h.inPacketOn] at hp
  · simp [h.nil_offerOn] at ho

/-- R171: as long as a source has packets, one that has some is selected. -/
theorem exists_selOf_of_packets {s : State} {ks : Source → List Packet} {x : Source} (hg : grantInv s)
    (hq : ∀ y, s.queueOn y = true) (hstream : ∀ y, s.StreamOn y (ks y) 0) (hx : ks x ≠ []) :
    ∃ y k rest, ks y = k :: rest ∧ selOf (inputsOf s) s = some y := by
  cases hsel : selOf (inputsOf s) s with
  | none =>
    obtain ⟨-, hnone⟩ := selOf_none hsel
    obtain ⟨k, rest, hks⟩ := List.exists_cons_of_ne_nil hx
    have hstreamX : s.StreamOn x (k :: rest) 0 := hks ▸ hstream x
    have hv := (hstreamX.onOffer_of_queue (hq x)).valid hstreamX.head.2.2
    rw [(forall_source_iff.mpr hnone : ∀ y, (inputsOf s).validOn y = false) x] at hv
    cases hv
  | some y =>
    cases hks : ks y with
    | nil =>
      have hstreamY : s.StreamOn y [] 0 := hks ▸ hstream y
      exact absurd (grant_of_selOf_not_valid hsel (hstreamY.nil_not_valid (hq y))) (grant_ne_of_nil hg hstreamY)
    | cons k rest => exact ⟨y, k, rest, hks, rfl⟩

section
variable {p : Params} {base : List PhyWord} {all : Source → List Packet} {s : State} (h : ReadyRun p base all s)
include h

/-- R280: no violation is recorded. -/
theorem ReadyRun.violationOf_none : violationOf s (inputsOf s) = none := by
  have hq := queueOn_of_no_script h.env
  have hnone {ks : Source → List Packet} {m : Source → Nat} (hstream : ∀ x, s.StreamOn x (ks x) (m x)) :
      violationOf s (inputsOf s) = none :=
    violationOf_of_checks (reqCheck_of_queue (hstream .req) (hq .req)) (cmpCheck_of_queue (hstream .cmp) (hq .cmp))
  cases h.progress with
  | boundary order ks hst hcnt hstream => exact hnone hstream
  | within order ks x k rest m e hgrant hks hins he hstream => exact hnone hstream
  | flushing order ks k e hwf hins hstream => exact hnone hstream

/-- R190 to R195: while words are left the inserter moves, and a word leaves. -/
theorem ReadyRun.exists_word (hleft : s.sent.length < base.length + totalWords p all) :
    ∃ pl, planOf s (rawOf (inputsOf s) s) = some pl ∧
      (commit (inputsOf s) s pl).sent.length = s.sent.length + 1 := by
  have hq := queueOn_of_no_script h.env
  obtain ⟨-, hready⟩ := ready_of_no_script h.env
  have hcount {pl : Plan} {k : Packet} {e : Nat} (he : e < (phys s.cfg k).length)
      (hsent : (commit (inputsOf s) s pl).sent.map seen = s.sent.map seen ++ (phys s.cfg k)[e]?.toList) :
      (commit (inputsOf s) s pl).sent.length = s.sent.length + 1 := by
    have hlen := congrArg List.length hsent
    rwa [List.length_append, List.length_map, List.length_map, List.getElem?_eq_getElem he] at hlen
  have hadvance {x : Source} {k : Packet} {rest : List Packet} {m e : Nat} (hstream : s.StreamOn x (k :: rest) m)
      (hsel : selOf (inputsOf s) s = some x) (hins : s.InserterAt k m e) :
      ∃ pl, planOf s (rawOf (inputsOf s) s) = some pl ∧
        (commit (inputsOf s) s pl).sent.length = s.sent.length + 1 := by
    obtain ⟨hwf, hadmits, -⟩ := hstream.head
    have hraw := (hstream.onOffer_of_queue (hq x)).rawOf_eq hstream hsel
    obtain ⟨pl, hp, hadv⟩ := hins.advances hwf hready hadmits hraw hstream.lt_inputWords
    exact ⟨pl, hp, hcount hadv.emits hadv.sent⟩
  cases h.progress with
  | boundary order ks hst hcnt hstream hall hsent =>
    have hsome : ∃ x, ks x ≠ [] := by
      by_contra hnone
      have hnil (x : Source) : ks x = [] := not_not.mp (not_exists.mp hnone x)
      have hsum := congrArg List.length hsent
      rw [List.length_map, List.length_append, h.cfg] at hsum
      have hzero : totalWords p ks = 0 := by simp [totalWords, hnil, physAll]
      rw [totalWords_eq p hall, hzero] at hleft
      omega
    obtain ⟨x, hx⟩ := hsome
    obtain ⟨y, k, rest, hks, hsel⟩ := exists_selOf_of_packets h.grant hq hstream hx
    exact hadvance (hks ▸ hstream y) hsel (.header 0 hst (by simp [hcnt]) (headerWords_pos ..))
  | within order ks x k rest m e hgrant hks hins he hstream =>
    exact hadvance (by simpa [hks] using hstream x) (selOf_of_grant hgrant) hins
  | flushing order ks k e hwf hins =>
    obtain ⟨hp, -, he, hword⟩ := hins.flush hwf
    exact ⟨_, hp _, hcount (by omega) (hword _ hready)⟩

/-- R285: so a step emits one word. -/
theorem ReadyRun.step (hleft : s.sent.length < base.length + totalWords p all) :
    ∃ t, Machine.step s = .next t ∧ ReadyRun p base all t ∧ t.sent.length = s.sent.length + 1 := by
  obtain ⟨hrst, -⟩ := ready_of_no_script h.env
  have hv := h.violationOf_none
  obtain ⟨pl, hp, hlen⟩ := h.exists_word hleft
  refine ⟨commit (inputsOf s) s pl, (step_eq_cycle s).trans (cycle_commit hrst h.fault hv hp), ?_, hlen⟩
  exact ⟨h.cfg, by rw [commit_env, h.env]; rfl, h.fault, commit_grantInv h.grant hv,
    h.progress.commit (frameOf_lawful (by simp [h.env])) hp⟩

/-- R239: with every word emitted the machine is quiescent, between two packets and with nothing left to offer. -/
theorem ReadyRun.quiescent (hlen : s.sent.length = base.length + totalWords p all) :
    s.quiescent ∧ ∃ order, (∀ x, all x = packetsOn x order) ∧ s.sent.map seen = base ++ physAll p order := by
  obtain ⟨order, hst, hcnt, hstream, hall, hsent⟩ := h.progress.finished (h.cfg.symm ▸ hlen)
  have hidle : s.grant = .idle := by
    by_contra hg
    obtain ⟨x, hx⟩ := exists_grantOf hg
    exact grant_ne_of_nil h.grant (hstream x) hx
  have hvalid (x : Source) := (hstream x).nil_not_valid (queueOn_of_no_script h.env x)
  exact ⟨⟨hst, hcnt, hidle, (hstream .req).place.nil.2, (hstream .cmp).place.nil.2, hvalid .req, hvalid .cmp, h.fault⟩,
    order, hall, h.cfg ▸ hsent⟩

end

/-- R285: as many steps as words are left emit them all, and leave the machine quiescent. -/
theorem ReadyRun.run {p : Params} {base : List PhyWord} {all : Source → List Packet} {n : Nat} {s : State}
    (h : ReadyRun p base all s) (hn : s.sent.length + n = base.length + totalWords p all) :
    ∃ t, Host.Core.run Sys2Proof.core n s = .next t ∧ t.quiescent ∧
      ∃ order, (∀ x, all x = packetsOn x order) ∧ t.sent.map seen = base ++ physAll p order := by
  induction n generalizing s with
  | zero => exact ⟨s, rfl, h.quiescent hn⟩
  | succ n ih =>
    obtain ⟨t, hst, ht, hlen⟩ := h.step (by omega)
    obtain ⟨u, hu, hdone⟩ := ih ht (by omega)
    exact ⟨u, (run_succ_of_next hst).trans hu, hdone⟩

/-! ## One source -/

/-- Where the other source has none, the packets in any order are the one source's in theirs. -/
theorem order_of_one_source {isReq : Bool} {ks order : List Packet}
    (h : ∀ x, bySource (if isReq then ks else []) (if isReq then [] else ks) x = packetsOn x order) : order = ks := by
  have hreq := h .req
  have hcmp := h .cmp
  cases isReq with
  | true =>
    have hall : ∀ k ∈ order, k.op.isRequest = true := by simpa [bySource, packetsOn] using hcmp.symm
    exact ((List.filter_eq_self.mpr hall).symm.trans hreq.symm)
  | false =>
    have hall : ∀ k ∈ order, (!k.op.isRequest) = true := by simpa [bySource, packetsOn] using hreq.symm
    exact ((List.filter_eq_self.mpr hall).symm.trans hcmp.symm)

/-- Settles O56: a loaded queue is a run at its beginning, with all the queue's words left. -/
theorem packetsFollowWithoutGap : Obligations.PacketsFollowWithoutGap := by
  intro s ks isReq hload
  have hnil (b : Bool) : Loadable s.cfg b [] := fun _ hk => nomatch hk
  have hreqs : Loadable s.cfg true (if isReq then ks else []) := by cases isReq <;> simp_all
  have hcmps : Loadable s.cfg false (if isReq then [] else ks) := by cases isReq <;> simp_all
  have hrun : ReadyRun s.cfg (s.sent.map seen) (bySource (if isReq then ks else []) (if isReq then [] else ks))
      (loadPackets (if isReq then ks else []) (if isReq then [] else ks) [] s) :=
    ⟨rfl, rfl, rfl, ⟨fun h => (nomatch h), fun h => (nomatch h), fun h => (nomatch h), fun h => (nomatch h)⟩,
      progress_loadPackets hreqs hcmps []⟩
  have htotal : totalWords s.cfg (bySource (if isReq then ks else []) (if isReq then [] else ks)) =
      (physAll s.cfg ks).length := by
    cases isReq <;> simp [totalWords, bySource, physAll]
  obtain ⟨t, ht, hquiescent, order, horder, hsent⟩ := hrun.run (n := (physAll s.cfg ks).length)
    (by rw [htotal, List.length_map]; rfl)
  exact ⟨t, ht, order_of_one_source horder ▸ hsent, hquiescent⟩

/-- A loaded packet is a queue of one packet. -/
theorem loadPacket_eq (k : Packet) (s : State) :
    loadPacket k s =
      loadPackets (if k.op.isRequest then [k] else []) (if k.op.isRequest then [] else [k]) [] s := by
  cases hreq : k.op.isRequest with
  | true =>
    obtain ⟨-, hcmp⟩ := packetWords_of_request hreq s.cfg.D
    simp [loadPacket, loadPackets, hcmp]
  | false =>
    obtain ⟨hnone, -⟩ := packetWords_of_completion hreq s.cfg.D
    simp [loadPacket, loadPackets, hnone]

/-- Settles O55: the packet is a queue of its own. -/
theorem packetIsEmittedWhole : Obligations.PacketIsEmittedWhole := by
  intro s k hwf hadmits
  have hload : Loadable s.cfg k.op.isRequest [k] := by simp [Loadable, hwf, hadmits]
  obtain ⟨t, hrun, hsent, hquiescent⟩ := packetsFollowWithoutGap s [k] k.op.isRequest hload
  have hone : physAll s.cfg [k] = phys s.cfg k := List.flatMap_singleton ..
  rw [hone, phys_length hwf, ← loadPacket_eq] at hrun
  exact ⟨t, hrun, hone ▸ hsent, hquiescent⟩

end Sys2Proof.Machine
end

section
/-! Contract violations (R250 to R258, R261): what a monitor finds is recorded in the step, and a recorded fault ends
the run until reset. -/

namespace Sys2Proof.Machine

open Sys2Proof.Claims

/-! ## The record of a violation -/

/-- R258 b: what the monitor of `req_in` finds is the violation recorded. -/
theorem violationOf_of_reqCheck {s : State} {inp : Inputs} {c : Code} (hreq : reqCheck s inp.req = some c) :
    violationOf s inp = some (c, .reqIn) := by
  simp [violationOf, hreq]

/-- R258 b: where that monitor finds nothing, it is what the monitor of `cmp_in` finds. -/
theorem violationOf_of_cmpCheck {s : State} {inp : Inputs} {c : Code} (hreq : reqCheck s inp.req = none)
    (hcmp : cmpCheck s inp.cmp = some c) : violationOf s inp = some (c, .cmpIn) := by
  simp [violationOf, hreq, hcmp]

/-- R250: outside reset a step with a violation, from a state without a record, raises it. -/
theorem cycle_raise {inp : Inputs} {s : State} {c : Code} {x : StreamId} (hr : inp.rst = false) (hf : s.fault = none)
    (hv : violationOf s inp = some (c, x)) : cycle inp s = .next (raise c x s) := by
  simp [cycle, hr, hf, hv]

/-- R250, R261: outside reset a recorded fault is the whole answer of the step. -/
theorem cycle_of_fault {inp : Inputs} {s : State} {v : Violation} (hr : inp.rst = false) (hf : s.fault = some v) :
    cycle inp s = .fault (.contractViolation v) := by
  simp [cycle, hr, hf]

/-- R250, R251: the step records the violation that holds in it. -/
theorem records_of_violationOf {s : State} {c : Code} {x : StreamId} (hr : (inputsOf s).rst = false)
    (hf : s.fault = none) (hv : violationOf s (inputsOf s) = some (c, x)) : Records c x s :=
  ⟨raise c x s, (step_eq_cycle s).trans (cycle_raise hr hf hv), raise_fault c x s, raise_out c x s⟩

/-- Settles O43: the violation found is the one raised, first `req_in`'s, then `cmp_in`'s. -/
theorem violationIsRecorded : Obligations.ViolationIsRecorded := by
  refine ⟨fun s hf hr => ⟨fun c hreq => ?_, fun c hreq hcmp => ?_⟩, rfl, rfl, rfl, rfl, rfl, rfl⟩
  · exact records_of_violationOf hr hf (violationOf_of_reqCheck hreq)
  · exact records_of_violationOf hr hf (violationOf_of_cmpCheck hreq hcmp)

/-! ## A length of 0 -/

/-- R254: a packet of length 0 takes one word, of either kind. -/
theorem wordsNeeded_zero {d : Nat} (hd : 0 < d) (hasData : Bool) : wordsNeeded d hasData 0 = 1 := by
  simp [wordsNeeded, ceilDiv_zero hd]

section
variable {ω π : Type} [DecidableEq ω] [DecidableEq π] {m : Monitor ω π} {w : ω} {valid first last : Bool} {side : π}
  {need : Nat} {zeroLen noData : Bool}

/-- R258: what a monitor finds holds. -/
theorem holds_of_monitorCheck {c : Code}
    (h : monitorCheck m w valid first last side need zeroLen noData = some c) :
    holds m w valid first last side need zeroLen noData c :=
  ((monitorCheck_rightCode m w valid first last side need zeroLen noData).2 c h).1

/-- R258: a monitor finds some violation where one holds. -/
theorem exists_monitorCheck_of_holds {c : Code} (h : holds m w valid first last side need zeroLen noData c) :
    ∃ c', monitorCheck m w valid first last side need zeroLen noData = some c' :=
  Option.ne_none_iff_exists'.mp fun hnone => not_holds_of_monitorCheck_none hnone c h

/-- R255, R258 b: on a word that stands where it should, a zero length ranks first among what may still hold. -/
theorem monitorCheck_zeroLen (hret : retracted m w true = false) (hfirst : first = !m.inPacket)
    (hlast : last = (m.wordsSeen + 1 == need)) :
    monitorCheck m w true first last side need true noData = some .zeroLengthRequest := by
  simp [monitorCheck, hret, hfirst, hlast]

end

/-- R255: the monitor of `req_in` finds a violation on a request of length 0 on offer. -/
theorem exists_reqCheck_of_len_zero (s : State) {r : ReqIn} (hvalid : r.valid = true) (hlen : r.len = 0#10) :
    ∃ c, reqCheck s r = some c :=
  exists_monitorCheck_of_holds (c := .zeroLengthRequest) ⟨hvalid, beq_iff_eq.mpr hlen⟩

/-- R255, R254: and finds the zero length itself where the word is the one it should be, its packet being one word. -/
theorem reqCheck_of_len_zero {s : State} {r : ReqIn} (hvalid : r.valid = true) (hlen : r.len = 0#10)
    (hret : retracted s.monReq r true = false) (hfirst : r.first = !s.monReq.inPacket)
    (hlast : r.last = (s.monReq.wordsSeen + 1 == 1)) : reqCheck s r = some .zeroLengthRequest := by
  have hneed : wordsNeeded s.cfg.D r.we r.len.toNat = 1 := by
    rw [hlen]
    exact wordsNeeded_zero (D_pos s.cfg) r.we
  rw [reqCheck, hneed, hvalid, beq_iff_eq.mpr hlen]
  exact monitorCheck_zeroLen hret hfirst hlast

/-- R255: a zero length is no violation on `cmp_in`. -/
theorem cmpCheck_ne_zeroLengthRequest (s : State) (c : CmpIn) : cmpCheck s c ≠ some .zeroLengthRequest := fun h => by
  obtain ⟨-, hzero⟩ := holds_of_monitorCheck h
  exact Bool.false_ne_true hzero

/-- Settles O44: on such a word `ZeroLengthRequest` holds, so the monitor finds a violation, and finds that one where
no rank above it holds. -/
theorem zeroLengthRequestIsRecorded : Obligations.ZeroLengthRequestIsRecorded := by
  refine fun s hf hr => ⟨fun hvalid hlen => ?_, cmpCheck_ne_zeroLengthRequest s _⟩
  obtain ⟨c, hc⟩ := exists_reqCheck_of_len_zero s hvalid hlen
  refine ⟨c, records_of_violationOf hr hf (violationOf_of_reqCheck hc), fun hret hfirst hlast => ?_⟩
  exact Option.some.inj (hc.symm.trans (reqCheck_of_len_zero hvalid hlen hret hfirst hlast))

/-! ## After a recorded fault -/

/-- R239: a quiescent state holds no fault record. -/
theorem State.quiescent.fault_eq_none {s : State} (h : s.quiescent) : s.fault = none := by
  obtain ⟨-, -, -, -, -, -, -, hfault⟩ := h
  exact hfault

/-- Settles O45: the step of such a state is its fault, and quiescence asks for none. -/
theorem faultEndsTheRun : Obligations.FaultEndsTheRun := by
  refine fun s v hf => ⟨fun hr => (step_eq_cycle s).trans (cycle_of_fault hr hf), fun hq => ?_⟩
  exact Option.some_ne_none v (hf.symm.trans hq.fault_eq_none)

end Sys2Proof.Machine
end

section
/-! Reset (R270, R271) and the absence of an internal wait (R281). -/

namespace Sys2Proof.Machine

/-! ## The reset step -/

/-- R270: while reset is held every state makes the reset step, one with a recorded fault too. -/
theorem step_of_rst {s : State} (hr : (inputsOf s).rst = true) : step s = .next (resetStep s) :=
  (step_eq_cycle s).trans (if_pos hr)

/-- Settles O48: the step is the reset step, whose registers hold the values of R271. (The plain name `resetStep` is
the model's function.) -/
theorem resetStep_of_rst : Obligations.ResetStep := fun s hr =>
  ⟨resetStep s, step_of_rst hr, resetStep_st s, resetStep_cnt s, resetStep_grant s, resetStep_fault s,
    resetStep_monReq s, resetStep_monCmp s, resetStep_policy s, resetStep_cfg s, resetStep_sent s, resetStep_out s⟩

/-! ## No internal wait -/

/-- R190 to R195: each of the words the inserter offers stands on `phy_out`. -/
theorem emit_ne_none_of_offers {s : State} {i : RawWord} {pl : Plan} (ho : Offers s i pl) : pl.emit ≠ none := by
  cases ho with
  | headerWord hst hv hc hemit htakes => simp [hemit]
  | headerEnd hst hv hc hfit hemit htakes => simp [hemit]
  | headerThenData hst hv hc hfit hemit htakes => simp [hemit]
  | pass hst hs hv hemit htakes => simp [hemit]
  | flush hst hs hl hemit htakes => simp [hemit]
  | window hst hs hl hv hemit htakes => simp [hemit]

/-- Settles O35: the inserter of a committed step is silent for want of an input word only. -/
theorem onlyAMissingInputWordStalls : Obligations.OnlyAMissingInputWordStalls := by
  intro s t h hr hf hnone
  obtain ⟨pl, -, -, hp, rfl⟩ := step_faultFree h hr hf
  rcases planOf_silent_or_offers hp with ⟨hv, -⟩ | ho
  · exact hv
  · have hemit : pl.emit = none := Option.map_eq_none_iff.mp ((commit_phy ..).symm.trans hnone)
    exact absurd hemit (emit_ne_none_of_offers ho)

end Sys2Proof.Machine
end
